-- ==== Sys2Proof/Word.lean ====
section
/-! DEFINITION. The two widths of the block (spec/00_scope.md R11) and the padding scheme codes
(spec/30_encoding.md R90). -/

namespace Sys2Proof

/-- A byte, and so also a field element (R11, R110). -/
abbrev Byte := BitVec 8

/-- A 32-bit word: a control register, a key word, a command word (R11, R81). -/
abbrev Word := BitVec 32

/-- The four padding schemes, in the order of their codes 0 to 3 (R90). -/
inductive Scheme where
  | zero
  | ansi
  | pkcs7
  | iso
  deriving DecidableEq, Repr

end Sys2Proof
end

