-- ==== Sys2Proof/Syntax.lean ====
section
/-! DEFINITION. The commands of the CORE command set (spec/30_encoding.md R80, R89) and the two
reserved rows of mode number 7 (R92): one constructor per row of spec/opcode_table.json. -/

namespace Sys2Proof

/-- A decoded command word. Immediates are `a`, `b`, `n`, `par` and `pad` of R83 to R85;
the reserved mode 7 keeps the 24 bits that its rows ignore. -/
inductive Instr where
  -- SYS group
  | sysReset
  -- FE group
  | feInit
  | feAdd (a b : Byte)
  | feSub (a b : Byte)
  | feMul (a b : Byte)
  | feDiv (a b : Byte)
  | fePow (a : Byte) (n : Nat)
  | feInv (a : Byte)
  -- CC group
  | keySetup
  | blkEnc
  | blkDec
  -- PAD group
  | padZero
  | padAnsi
  | padPkcs7
  | padIso
  | unpadZero
  | unpadAnsi
  | unpadPkcs7
  | unpadIso
  -- MODE group, encrypt
  | ecbEnc (par : Bool) (pad : Scheme)
  | cbcEnc (par : Bool) (pad : Scheme)
  | pcbcEnc (par : Bool) (pad : Scheme)
  | cfbEnc (par : Bool)
  | ofbEnc (par : Bool)
  | ctrEnc (par : Bool)
  | rdEnc (par : Bool) (pad : Scheme)
  -- MODE group, decrypt
  | ecbDec (par : Bool) (pad : Scheme)
  | cbcDec (par : Bool) (pad : Scheme)
  | pcbcDec (par : Bool) (pad : Scheme)
  | cfbDec (par : Bool)
  | ofbDec (par : Bool)
  | ctrDec (par : Bool)
  | rdDec (par : Bool) (pad : Scheme)
  -- reserved mode number 7
  | mode7Enc (low : BitVec 24)
  | mode7Dec (low : BitVec 24)
  deriving DecidableEq, Repr

end Sys2Proof
end

