-- ==== Sys2Proof/WellFormed.lean ====
section
/-! DEFINITION. When a command term can be written as a command word. The types of the operands
already bound every field but one: the exponent of FE.POW is a natural number in the
semantics (spec/40_field_engine.md R120, R122) and a 16-bit field in the word
(spec/30_encoding.md R84). -/

namespace Sys2Proof

/-- The exponent fits the field `cmd[23:8]` (R84); no other command has an operand that its type
does not bound. -/
def Instr.wellFormed (i : Instr) : Bool :=
  match i with
  | .fePow _ n => decide (n < 2 ^ 16)
  | .sysReset | .feInit | .feAdd _ _ | .feSub _ _ | .feMul _ _ | .feDiv _ _ | .feInv _ => true
  | .keySetup | .blkEnc | .blkDec => true
  | .padZero | .padAnsi | .padPkcs7 | .padIso => true
  | .unpadZero | .unpadAnsi | .unpadPkcs7 | .unpadIso => true
  | .ecbEnc _ _ | .cbcEnc _ _ | .pcbcEnc _ _ | .cfbEnc _ | .ofbEnc _ | .ctrEnc _ | .rdEnc _ _ => true
  | .ecbDec _ _ | .cbcDec _ _ | .pcbcDec _ _ | .cfbDec _ | .ofbDec _ | .ctrDec _ | .rdDec _ _ => true
  | .mode7Enc _ | .mode7Dec _ => true

end Sys2Proof
end

