-- ==== Sys2Proof/Decode.lean ====
section
/-! DEFINITION. Decoding a command word and, after it, encoding a command
(spec/30_encoding.md R81 to R94). Decoding is total over all 2^32 words (R93). -/

namespace Sys2Proof

/-- Why a word names no command (R93). Both reasons end in IllegalCommandError (R259). -/
inductive DecodeError where
  /-- The opcode byte is not assigned (R87). -/
  | unassignedOpcode
  /-- A must-be-zero bit of the opcode's format is 1 (R81). -/
  | mustBeZero
  deriving DecidableEq, Repr

/-! ## Fields (R81, R86) -/

/-- `op = cmd[31:24]`. -/
def fieldOp (w : Word) : Byte := w.extractLsb' 24 8

/-- `a = cmd[7:0]`. -/
def fieldA (w : Word) : Byte := w.extractLsb' 0 8

/-- `b = cmd[15:8]`. -/
def fieldB (w : Word) : Byte := w.extractLsb' 8 8

/-- `n = cmd[23:8]`, unsigned. -/
def fieldN (w : Word) : Nat := (w.extractLsb' 8 16).toNat

/-- `par = cmd[8]`. -/
def fieldPar (w : Word) : Bool := w.getLsbD 8

/-- The 24 bits below the opcode. -/
def fieldLow (w : Word) : BitVec 24 := w.extractLsb' 0 24

/-- The 2-bit code of a padding scheme (R90). -/
def schemeCode (s : Scheme) : BitVec 2 :=
  match s with
  | .zero => 0
  | .ansi => 1
  | .pkcs7 => 2
  | .iso => 3

/-- The padding scheme of a 2-bit code; all four codes are legal (R90). -/
def schemeOfCode (c : BitVec 2) : Scheme :=
  match c.toNat with
  | 0 => .zero
  | 1 => .ansi
  | 2 => .pkcs7
  | _ => .iso

/-- `pad = cmd[1:0]`. -/
def fieldPad (w : Word) : Scheme := schemeOfCode (w.extractLsb' 0 2)

/-! ## Formats (R81): the must-be-zero bits of each -/

/-- Must-be-zero bits of format Z: `cmd[23:0]`. -/
def zeroBitsZ : Word := 0x00FFFFFF

/-- Must-be-zero bits of format F2: `cmd[23:16]`. -/
def zeroBitsF2 : Word := 0x00FF0000

/-- Must-be-zero bits of format F1: `cmd[23:8]`. -/
def zeroBitsF1 : Word := 0x00FFFF00

/-- Must-be-zero bits of format MP: `cmd[23:9]` and `cmd[7:2]`. -/
def zeroBitsMP : Word := 0x00FFFEFC

/-- Must-be-zero bits of format MU: `cmd[23:9]` and `cmd[7:0]`. -/
def zeroBitsMU : Word := 0x00FFFEFF

/-- The command `i`, unless one of the bits `z` of the word is set (R93). -/
def requireZero (z w : Word) (i : Instr) : Except DecodeError Instr :=
  if w &&& z = 0 then .ok i else .error .mustBeZero

/-! ## Decoding -/

/-- The command a word names (R81, R87, R89, R92), or why it names none (R93). -/
def decode (w : Word) : Except DecodeError Instr :=
  match (fieldOp w).toNat with
  | 0x01 => requireZero zeroBitsZ w .sysReset
  | 0x10 => requireZero zeroBitsZ w .feInit
  | 0x11 => requireZero zeroBitsF2 w (.feAdd (fieldA w) (fieldB w))
  | 0x12 => requireZero zeroBitsF2 w (.feSub (fieldA w) (fieldB w))
  | 0x13 => requireZero zeroBitsF2 w (.feMul (fieldA w) (fieldB w))
  | 0x14 => requireZero zeroBitsF2 w (.feDiv (fieldA w) (fieldB w))
  | 0x15 => .ok (.fePow (fieldA w) (fieldN w))
  | 0x16 => requireZero zeroBitsF1 w (.feInv (fieldA w))
  | 0x20 => requireZero zeroBitsZ w .keySetup
  | 0x21 => requireZero zeroBitsZ w .blkEnc
  | 0x22 => requireZero zeroBitsZ w .blkDec
  | 0x30 => requireZero zeroBitsZ w .padZero
  | 0x31 => requireZero zeroBitsZ w .padAnsi
  | 0x32 => requireZero zeroBitsZ w .padPkcs7
  | 0x33 => requireZero zeroBitsZ w .padIso
  | 0x38 => requireZero zeroBitsZ w .unpadZero
  | 0x39 => requireZero zeroBitsZ w .unpadAnsi
  | 0x3A => requireZero zeroBitsZ w .unpadPkcs7
  | 0x3B => requireZero zeroBitsZ w .unpadIso
  | 0x40 => requireZero zeroBitsMP w (.ecbEnc (fieldPar w) (fieldPad w))
  | 0x41 => requireZero zeroBitsMP w (.cbcEnc (fieldPar w) (fieldPad w))
  | 0x42 => requireZero zeroBitsMP w (.pcbcEnc (fieldPar w) (fieldPad w))
  | 0x43 => requireZero zeroBitsMU w (.cfbEnc (fieldPar w))
  | 0x44 => requireZero zeroBitsMU w (.ofbEnc (fieldPar w))
  | 0x45 => requireZero zeroBitsMU w (.ctrEnc (fieldPar w))
  | 0x46 => requireZero zeroBitsMP w (.rdEnc (fieldPar w) (fieldPad w))
  | 0x47 => .ok (.mode7Enc (fieldLow w))
  | 0x48 => requireZero zeroBitsMP w (.ecbDec (fieldPar w) (fieldPad w))
  | 0x49 => requireZero zeroBitsMP w (.cbcDec (fieldPar w) (fieldPad w))
  | 0x4A => requireZero zeroBitsMP w (.pcbcDec (fieldPar w) (fieldPad w))
  | 0x4B => requireZero zeroBitsMU w (.cfbDec (fieldPar w))
  | 0x4C => requireZero zeroBitsMU w (.ofbDec (fieldPar w))
  | 0x4D => requireZero zeroBitsMU w (.ctrDec (fieldPar w))
  | 0x4E => requireZero zeroBitsMP w (.rdDec (fieldPar w) (fieldPad w))
  | 0x4F => .ok (.mode7Dec (fieldLow w))
  | _ => .error .unassignedOpcode

/-- The instruction read from a word given as a number, bit 0 the least significant bit of the
command word (R62: the command word is a number, not a byte string). A number that does not fit
32 bits is no command word. -/
def decodeTableWord (nbits w : Nat) : Option Instr :=
  if nbits ≤ 32 ∧ w < 2 ^ nbits then (decode (BitVec.ofNat 32 w)).toOption else none

/-! ## Encoding, from the same table (R81, R89) -/

/-- Format Z: the opcode and 24 zero bits. -/
def wordZ (op : Byte) : Word := op ++ 0#24

/-- Format F2: `b` above `a`. -/
def wordF2 (op a b : Byte) : Word := op ++ 0#8 ++ b ++ a

/-- Format F1: `a` alone. -/
def wordF1 (op a : Byte) : Word := op ++ 0#16 ++ a

/-- Format FP: the 16-bit exponent above `a`. -/
def wordFP (op a : Byte) (n : Nat) : Word := op ++ BitVec.ofNat 16 n ++ a

/-- Format MP: `par` at bit 8, `pad` at bits 1:0. -/
def wordMP (op : Byte) (par : Bool) (pad : Scheme) : Word :=
  op ++ 0#15 ++ BitVec.ofBool par ++ 0#6 ++ schemeCode pad

/-- Format MU: `par` at bit 8. -/
def wordMU (op : Byte) (par : Bool) : Word := op ++ 0#15 ++ BitVec.ofBool par ++ 0#8

/-- The rows of mode number 7: any low bits. -/
def wordM7 (op : Byte) (low : BitVec 24) : Word := op ++ low

/-- The command word of a well-formed command (R81, R89). -/
def encode (i : Instr) : Word :=
  match i with
  | .sysReset => wordZ 0x01
  | .feInit => wordZ 0x10
  | .feAdd a b => wordF2 0x11 a b
  | .feSub a b => wordF2 0x12 a b
  | .feMul a b => wordF2 0x13 a b
  | .feDiv a b => wordF2 0x14 a b
  | .fePow a n => wordFP 0x15 a n
  | .feInv a => wordF1 0x16 a
  | .keySetup => wordZ 0x20
  | .blkEnc => wordZ 0x21
  | .blkDec => wordZ 0x22
  | .padZero => wordZ 0x30
  | .padAnsi => wordZ 0x31
  | .padPkcs7 => wordZ 0x32
  | .padIso => wordZ 0x33
  | .unpadZero => wordZ 0x38
  | .unpadAnsi => wordZ 0x39
  | .unpadPkcs7 => wordZ 0x3A
  | .unpadIso => wordZ 0x3B
  | .ecbEnc par pad => wordMP 0x40 par pad
  | .cbcEnc par pad => wordMP 0x41 par pad
  | .pcbcEnc par pad => wordMP 0x42 par pad
  | .cfbEnc par => wordMU 0x43 par
  | .ofbEnc par => wordMU 0x44 par
  | .ctrEnc par => wordMU 0x45 par
  | .rdEnc par pad => wordMP 0x46 par pad
  | .ecbDec par pad => wordMP 0x48 par pad
  | .cbcDec par pad => wordMP 0x49 par pad
  | .pcbcDec par pad => wordMP 0x4A par pad
  | .cfbDec par => wordMU 0x4B par
  | .ofbDec par => wordMU 0x4C par
  | .ctrDec par => wordMU 0x4D par
  | .rdDec par pad => wordMP 0x4E par pad
  | .mode7Enc low => wordM7 0x47 low
  | .mode7Dec low => wordM7 0x4F low

/-! ## The columns `mask` and `match` of the opcode table (R81, R89, R92) -/

/-- The mask of the command's row: "a command word names the command of a row exactly when
`(cmd AND mask) = match`" (R81). -/
def rowMask (i : Instr) : Word :=
  match i with
  | .sysReset | .feInit | .keySetup | .blkEnc | .blkDec => 0xFFFFFFFF
  | .padZero | .padAnsi | .padPkcs7 | .padIso => 0xFFFFFFFF
  | .unpadZero | .unpadAnsi | .unpadPkcs7 | .unpadIso => 0xFFFFFFFF
  | .feAdd _ _ | .feSub _ _ | .feMul _ _ | .feDiv _ _ => 0xFFFF0000
  | .feInv _ => 0xFFFFFF00
  | .fePow _ _ => 0xFF000000
  | .ecbEnc _ _ | .cbcEnc _ _ | .pcbcEnc _ _ | .rdEnc _ _ => 0xFFFFFEFC
  | .ecbDec _ _ | .cbcDec _ _ | .pcbcDec _ _ | .rdDec _ _ => 0xFFFFFEFC
  | .cfbEnc _ | .ofbEnc _ | .ctrEnc _ | .cfbDec _ | .ofbDec _ | .ctrDec _ => 0xFFFFFEFF
  | .mode7Enc _ | .mode7Dec _ => 0xFF000000

/-- The match value of the command's row. -/
def rowMatch (i : Instr) : Word :=
  match i with
  | .sysReset => 0x01000000
  | .feInit => 0x10000000
  | .feAdd _ _ => 0x11000000
  | .feSub _ _ => 0x12000000
  | .feMul _ _ => 0x13000000
  | .feDiv _ _ => 0x14000000
  | .fePow _ _ => 0x15000000
  | .feInv _ => 0x16000000
  | .keySetup => 0x20000000
  | .blkEnc => 0x21000000
  | .blkDec => 0x22000000
  | .padZero => 0x30000000
  | .padAnsi => 0x31000000
  | .padPkcs7 => 0x32000000
  | .padIso => 0x33000000
  | .unpadZero => 0x38000000
  | .unpadAnsi => 0x39000000
  | .unpadPkcs7 => 0x3A000000
  | .unpadIso => 0x3B000000
  | .ecbEnc _ _ => 0x40000000
  | .cbcEnc _ _ => 0x41000000
  | .pcbcEnc _ _ => 0x42000000
  | .cfbEnc _ => 0x43000000
  | .ofbEnc _ => 0x44000000
  | .ctrEnc _ => 0x45000000
  | .rdEnc _ _ => 0x46000000
  | .ecbDec _ _ => 0x48000000
  | .cbcDec _ _ => 0x49000000
  | .pcbcDec _ _ => 0x4A000000
  | .cfbDec _ => 0x4B000000
  | .ofbDec _ => 0x4C000000
  | .ctrDec _ => 0x4D000000
  | .rdDec _ _ => 0x4E000000
  | .mode7Enc _ => 0x47000000
  | .mode7Dec _ => 0x4F000000

end Sys2Proof
end

