-- ==== Sys2Proof/Config.lean ====
section
/-! DEFINITION. The parameters that have no default (spec/00_scope.md R9, R10) and the free values: the
cipher constants the spec leaves open, the random source, the undetermined bytes of OUT and the
order in which the dispatcher's workers move. An `opaque` constant has no value a proof can use. The
parameters that have a default are in Sys2Proof/Machine/Params.lean. -/

namespace Sys2Proof

/-- The open parameters of the Cipher Core (R9, R140, R144, R149): the two byte permutations,
the matrix, the derivation of the S-box key words from N, ME and MO, and the rotation of the second
word of a round, an amount that counts modulo 32 (DESIGN CHOICE, log entry 32). -/
structure CipherParams where
  q0 : Byte → Byte
  q1 : Byte → Byte
  mds : Fin 4 → Fin 4 → Byte
  skey : Nat → List Word → List Word → List Word
  g1Rot : Nat

namespace Config

/-- The byte permutation Q0; OPEN, no default (R10, R140). -/
opaque q0 : Byte → Byte

/-- The byte permutation Q1; OPEN, no default (R10, R140). -/
opaque q1 : Byte → Byte

/-- The matrix entry MDS[r][c]; OPEN, no default (R10, R140). -/
opaque mds : Fin 4 → Fin 4 → Byte

/-- A derivation of the S-box key material other than the default: a function from N, ME and MO to 2N
words (spec/41_cipher_core.md R144), one for each index; OPEN. -/
opaque skeyOther (k n : Nat) (me mo : List Word) : Vector Word (2 * n)

/-- The byte the random source delivers at a draw (R270): free, one value per draw. -/
opaque rng : Nat → Byte

/-- A byte of OUT that the spec leaves unspecified (spec/20_memory.md R69): free. -/
opaque freeByte : Nat → Byte

/-- Which of the possible worker moves comes next (spec/44_dispatcher.md R234, "in any
interleaving"): free. -/
opaque poolChoice : Nat → Nat

end Config

end Sys2Proof
end

