-- ==== Sys2Proof/Machine/Params.lean ====
section
/-! DEFINITION. The implementation parameters that stay open and have a default (spec/00_scope.md R9):
the structure that holds them, and the defaults. -/

namespace Sys2Proof.Machine

/-- SKEY (spec/41_cipher_core.md R144): the default, or any other function. -/
inductive SkeyRule where
  /-- The default of R144. -/
  | interleaved
  /-- The function `Config.skeyOther k`. -/
  | other (k : Nat)
  deriving DecidableEq, Repr

/-- The open parameters of R9 that are data, with the bounds R9 gives them; Q0, Q1 and MDS are in
`Config`. -/
structure Params where
  /-- POLY_ALLOW, each member with GEN of it; the first entry counts for a member listed twice. -/
  polys : List (Nat × Byte)
  skey : SkeyRule
  /-- G1_ROT, any number, taken modulo 32: DESIGN CHOICE, R9 and R149 give no range and R13 rotates by 0 to
  31 only (log entry 32). -/
  g1Rot : Nat
  bufcap : { n : Nat // 16 ≤ n ∧ n ≤ 32752 }
  maxWorkers : { n : Nat // 4 ≤ n }
  /-- The address of the block in the host's address space. -/
  coreBase : Nat
  deriving DecidableEq, Repr

/-- OUTCAP (R9). -/
def Params.outcap (P : Params) : Nat := 2 * P.bufcap.val + 32

/-- GEN(p) for a member `p` of POLY_ALLOW; `none` when `p` is not in the list. All 32 bits of POLY
count (spec/40_field_engine.md R113). -/
def Params.genOf (P : Params) (p : Word) : Option Byte := P.polys.lookup p.toNat

/-- POLY_ALLOW with GEN(p) for each member: the default of R114 (spec/40_field_engine.md). -/
def polyTable : List (Nat × Byte) :=
  [ (0x11B, 0x03), (0x11D, 0x02), (0x12B, 0x02), (0x12D, 0x02), (0x139, 0x03),
    (0x13F, 0x03), (0x14D, 0x02), (0x15F, 0x02), (0x163, 0x02), (0x165, 0x02),
    (0x169, 0x02), (0x171, 0x02), (0x177, 0x03), (0x17B, 0x09), (0x187, 0x02),
    (0x18B, 0x06), (0x18D, 0x02), (0x19F, 0x03), (0x1A3, 0x03), (0x1A9, 0x02),
    (0x1B1, 0x06), (0x1BD, 0x07), (0x1C3, 0x02), (0x1CF, 0x02), (0x1D7, 0x07),
    (0x1DD, 0x06), (0x1E7, 0x02), (0x1F3, 0x06), (0x1F5, 0x02), (0x1F9, 0x03) ]

/-- The defaults of R9; CORE_BASE, for which the spec gives none, is 0, so that an address is a block
offset. -/
def Params.default : Params :=
  { polys := polyTable
    skey := .interleaved
    g1Rot := 8
    bufcap := ⟨4096, by decide⟩
    maxWorkers := ⟨16, by decide⟩
    coreBase := 0 }

end Sys2Proof.Machine
end

