-- ==== Sys2Proof/Machine/State.lean ====
section
/-! DEFINITION. Every piece of state of the block (spec/10_state.md R20 to R50), the outside world as
the model holds it, the reasons a step can stop, and the state after reset. -/

namespace Sys2Proof.Machine

/-! ## STATUS (R24) -/

/-- The error codes 0 to 9 (spec/60_exceptions.md R250); codes 10 to 15 are never recorded. -/
inductive ErrCode where
  | none
  | config
  | keyLength
  | blockSize
  | ivLength
  | length
  | padding
  | divideByZero
  | notReady
  | illegalCommand
  deriving DecidableEq, Repr

/-- STATUS but for BUSY, which is 1 exactly while a command word is held in `State.cmd`. -/
structure Status where
  /-- STATUS[1] -/
  feReady : Bool
  /-- STATUS[2] -/
  keyReady : Bool
  /-- STATUS[3], sticky -/
  flt : Bool
  /-- STATUS[7:4] -/
  err : ErrCode
  deriving DecidableEq, Repr

/-! ## Control registers (R27 to R35) -/

/-- The 32-bit control registers other than CMD and STATUS. -/
structure Regs where
  res : Word
  poly : Word
  polya : Word
  threads : Word
  seg : Word
  keylen : Word
  ivlen : Word
  inlen : Word
  outlen : Word
  deriving DecidableEq, Repr

/-! ## Internal tables (R36 to R42) -/

/-- The Field Engine tables EXP and LOG (R36, R37). -/
structure Tables where
  exp : Vector Byte 512
  log : Vector Byte 256
  deriving DecidableEq, Repr

/-- The cipher's key material N, ME, MO, S and round-key schedule K (R39 to R42). -/
structure KeyState where
  n : Nat
  me : Vector Word 4
  mo : Vector Word 4
  sbox : Vector Word 8
  k : Vector Word 40
  deriving DecidableEq, Repr

/-! ## Windows (R44) -/

/-- Bytes at block offsets: addresses strictly rising, no entry equal to 0, which is what an address
that is not listed reads as. -/
abbrev Memory := List Host.Cell

/-- The canonical form of a memory. -/
abbrev Memory.wf (m : Memory) : Prop :=
  m.Pairwise (fun c d => c.1 < d.1) ∧ ∀ c ∈ m, c.2 ≠ 0

/-- The OUT window. The bytes at window index `start` and above are unspecified (R69): byte `i` is
`Config.freeByte (draw + i)`; the bytes below `start` are those of `cells`. -/
structure OutWindow where
  cells : Memory
  start : Nat
  draw : Nat
  deriving DecidableEq, Repr

/-! ## Transient state of a MODE command (R45, R47) -/

/-- FB (16 bytes), NONCE (8 bytes), CTRV (64 bits) and BLK (R45). -/
structure ModeState where
  fb : List Byte
  nonce : List Byte
  ctrv : BitVec 64
  blk : Nat
  deriving DecidableEq, Repr

/-- "Reset: FB, NONCE, CTRV, BLK all 0" (R45). -/
def ModeState.cleared : ModeState :=
  { fb := List.replicate 16 0, nonce := List.replicate 8 0, ctrv := 0, blk := 0 }

/-- The dispatcher while it runs (R47, spec/44_dispatcher.md R234): worker `t` is idle (`none`) or
holds a chunk; `slots` are the destination slots. -/
structure Dispatcher where
  nchunk : Nat
  qnext : Nat
  qdone : Nat
  workers : List (Option Nat)
  slots : List (List Byte)
  deriving DecidableEq, Repr

/-! ## The outside world (spec/00_scope.md R8) -/

/-- One host access (spec/20_memory.md R60) at the block offset, or the address, `off`: four bytes, one
byte, or any other number `n` of bytes, which no rule allows. -/
inductive Access where
  | readWord (off : Nat)
  | readByte (off : Nat)
  | readOther (off n : Nat)
  | writeWord (off : Nat) (v : Word)
  | writeByte (off : Nat) (v : Byte)
  | writeOther (off n : Nat)
  deriving DecidableEq, Repr

/-- What happens next: the host makes an access, its address counted in the host's own address space,
the sequencer executes the command that was issued, or hardware reset is applied
(spec/70_reset_and_hazards.md R280). -/
inductive Event where
  | access (a : Access)
  | sequencer
  | hwReset
  deriving DecidableEq, Repr

/-- The model's own part of the state, which is not state of the block: the events still to come,
the number the last host read returned, the position in the random source (R48), the next free
byte, and the next free choice of the dispatcher. -/
structure Outside where
  pending : List Event
  rdata : Word
  rngCursor : Nat
  freeCursor : Nat
  poolCursor : Nat
  deriving DecidableEq, Repr

/-! ## The whole state -/

structure State where
  /-- The command word in execution; `none` when BUSY is 0. CMD holds nothing between commands
  (R23). -/
  cmd : Option Word
  status : Status
  regs : Regs
  tab : Tables
  key : KeyState
  /-- The KEY, IV and IN windows, which the host writes. -/
  mem : Memory
  /-- The OUT window, which the commands write. -/
  out : OutWindow
  mode : ModeState
  disp : Option Dispatcher
  ext : Outside
  /-- The implementation parameters: an argument of the model and no state of the block (R20), carried
  here because `exec` and `step` take no other argument. Nothing writes them. -/
  conf : Params
  deriving DecidableEq, Repr

/-- STATUS.BUSY (R24). -/
def State.busy (s : State) : Bool := s.cmd.isSome

/-! ## Why a step can stop -/

/-- A host access to an address at which the spec puts nothing. Raised by the host-access step only,
never by a command. Safe: the spec gives such an access no meaning (R66). -/
inductive Fault where
  /-- A host address below CORE_BASE, where the block is not (R44). Safe. -/
  | belowBase (addr : Nat)
  /-- A reserved offset below 0x40000 (R65). Safe. -/
  | reservedOffset (off : Nat)
  /-- An offset beyond the block's footprint of 0x40000 bytes (R65). Safe. -/
  | outsideFootprint (off : Nat)
  deriving DecidableEq, Repr

/-- What the model gives no step. Safe: the spec defines no behaviour for a refused access (R66). -/
inductive Refusal where
  /-- Raised by `exec` for a command that has no meaning yet. Safe. -/
  | notModelled (mnemonic : String)
  /-- A read of CMD or of the KEY window (R66). Raised by the host-access step. Safe. -/
  | readOfWriteOnly (off : Nat)
  /-- A write of STATUS, RES, POLYA, OUTLEN or the OUT window (R66). Raised by the host-access
  step. Safe. -/
  | writeOfReadOnly (off : Nat)
  /-- An access of a width the offset does not allow (R60, R63). Raised by the host-access step.
  Safe. -/
  | wrongWidth (off : Nat)
  /-- A four-byte access inside a register but not at its offset (R64). Raised by the host-access
  step. Safe. -/
  | misaligned (off : Nat)
  /-- An access other than a read of STATUS while BUSY is 1 (R66, R284). Raised by the host-access
  step. Safe. -/
  | accessWhileBusy (off : Nat)
  deriving DecidableEq, Repr

/-! ## Reset (R50, R280) -/

/-- STATUS after reset. -/
def Status.reset : Status := { feReady := false, keyReady := false, flt := false, err := .none }

/-- The control registers after reset. -/
def Regs.reset : Regs :=
  { res := 0, poly := 0x11B, polya := 0, threads := 4, seg := 16, keylen := 0, ivlen := 0,
    inlen := 0, outlen := 0 }

/-- EXP and LOG after reset. -/
def Tables.reset : Tables :=
  { exp := ⟨⟨List.replicate 512 0⟩, List.length_replicate⟩,
    log := ⟨⟨List.replicate 256 0⟩, List.length_replicate⟩ }

/-- The key material after reset. -/
def KeyState.reset : KeyState :=
  { n := 0
    me := ⟨⟨List.replicate 4 0⟩, List.length_replicate⟩
    mo := ⟨⟨List.replicate 4 0⟩, List.length_replicate⟩
    sbox := ⟨⟨List.replicate 8 0⟩, List.length_replicate⟩
    k := ⟨⟨List.replicate 40 0⟩, List.length_replicate⟩ }

/-- Every byte of OUT is 0 after reset: nothing is listed and nothing is unspecified. -/
def OutWindow.reset (P : Params) : OutWindow := { cells := [], start := P.outcap, draw := 0 }

/-- No event, nothing read, nothing drawn: the model's own part when the block comes out of its
first reset. -/
def Outside.start : Outside :=
  { pending := [], rdata := 0, rngCursor := 0, freeCursor := 0, poolCursor := 0 }

/-- The state after hardware reset (R50), of a block whose parameters have their defaults (R9). -/
def State.reset : State :=
  { cmd := none
    status := Status.reset
    regs := Regs.reset
    tab := Tables.reset
    key := KeyState.reset
    mem := []
    out := OutWindow.reset Params.default
    mode := ModeState.cleared
    disp := none
    ext := Outside.start
    conf := Params.default }

end Sys2Proof.Machine
end

