-- ==== Sys2Proof/Machine/Ops.lean ====
section
/-! DEFINITION. The named operations over memory, OUT, the random source and the transient state, and
how a command ends: completion, a fault, reset (spec/20_memory.md R69, spec/60_exceptions.md R256,
R257, spec/45_system.md R245). -/

namespace Sys2Proof.Machine

/-! ## Where the windows lie (spec/10_state.md R44) -/

def keyBase : Nat := 0x40
def keySize : Nat := 32
def ivBase : Nat := 0x60
def ivSize : Nat := 16
def inBase : Nat := 0x10000
def outBase : Nat := 0x20000

/-- The block's footprint in its address space (spec/20_memory.md R65). -/
def footprint : Nat := 0x40000

/-! ## Memory -/

/-- The byte at `a`; an address that is not listed reads as 0, its value after reset (R50). -/
def Memory.read : Memory → Nat → Byte
  | [], _ => 0
  | c :: m, a => if c.1 = a then c.2 else Memory.read m a

/-- The memory with byte `b` at `a`. -/
def Memory.write : Memory → Nat → Byte → Memory
  | [], a, b => if b = 0 then [] else [(a, b)]
  | c :: m, a, b =>
    if c.1 < a then c :: Memory.write m a b
    else if c.1 = a then (if b = 0 then m else (a, b) :: m)
    else (if b = 0 then c :: m else (a, b) :: c :: m)

/-- The `n` bytes from `a` on. -/
def Memory.readBytes (m : Memory) (a : Nat) : Nat → List Byte
  | 0 => []
  | n + 1 => Memory.read m a :: Memory.readBytes m (a + 1) n

/-- The memory that holds the byte string `bs` from `a` on and nothing else. -/
def Memory.ofBytes (a : Nat) : List Byte → Memory
  | [] => []
  | b :: bs => if b = 0 then Memory.ofBytes (a + 1) bs else (a, b) :: Memory.ofBytes (a + 1) bs

/-! ## OUT -/

/-- Byte `i` of the OUT window. -/
def OutWindow.read (o : OutWindow) (i : Nat) : Byte :=
  if i < o.start then Memory.read o.cells (outBase + i) else Config.freeByte (o.draw + i)

/-- The byte at block offset `a`, whichever window it lies in. -/
def State.readByte (s : State) (a : Nat) : Byte :=
  if outBase ≤ a ∧ a < outBase + s.conf.outcap then OutWindow.read s.out (a - outBase)
  else Memory.read s.mem a

/-- `OUT[0..len r) <- r ; OUTLEN <- len r`; the bytes of OUT from `len r` on become unspecified
(R69). -/
def State.setOut (r : List Byte) (s : State) : State :=
  { s with
    out := { cells := Memory.ofBytes outBase r, start := r.length, draw := s.ext.freeCursor }
    regs := { s.regs with outlen := BitVec.ofNat 32 r.length }
    ext := { s.ext with freeCursor := s.ext.freeCursor + s.conf.outcap } }

/-! ## Random source (spec/60_exceptions.md R270) -/

/-- The values number `i`, `i + 1`, ... of a source. -/
def stream (f : Nat → Byte) (i : Nat) : Nat → List Byte
  | 0 => []
  | n + 1 => f i :: stream f (i + 1) n

/-- The next `n` bytes of the random source, in draw order. -/
def State.drawn (n : Nat) (s : State) : List Byte := stream Config.rng s.ext.rngCursor n

/-- The state after `n` draws. -/
def State.skipDraws (n : Nat) (s : State) : State :=
  { s with ext := { s.ext with rngCursor := s.ext.rngCursor + n } }

/-! ## Transient state of a MODE command (R45, R47, spec/43_modes.md R195) -/

/-- Load the mode state at the start of a command. -/
def State.withMode (m : ModeState) (s : State) : State := { s with mode := m }

/-- "Zeroed when the command ends, with or without fault" (R45); the dispatcher state is gone too
(R47). -/
def State.endMode (s : State) : State := { s with mode := ModeState.cleared, disp := none }

/-! ## How a command ends -/

/-- Completion without fault: `ERR <- 0 ; BUSY <- 0`, FLT unchanged (R257). -/
def State.complete (s : State) : State :=
  { s with cmd := none, status := { s.status with err := .none } }

/-- A data command's result goes to OUT and the command completes without fault. -/
def State.deliver (r : List Byte) (s : State) : State := (s.setOut r).complete

/-- `raise E` (R256), the one fault mechanism of the block: ERR and FLT record it, BUSY is cleared,
and for a data command (`data`) OUTLEN is 0 and every byte of OUT is unspecified. There is no
handler, no saved state and no return (R260). -/
def State.raise (data : Bool) (e : ErrCode) (s : State) : State :=
  let s := if data then s.setOut [] else s
  { s with cmd := none, status := { s.status with err := e, flt := true } }

/-- Every piece of the block's state takes its reset value (R245, R280); the outside world goes on, and
the parameters stay (R20). -/
def State.resetBlock (s : State) : State :=
  { State.reset with out := OutWindow.reset s.conf, ext := s.ext, conf := s.conf }

/-! ## Register files -/

/-- The vector of `n` entries that begins with `l` and goes on with `d`. -/
def vecOf {α : Type} (n : Nat) (d : α) (l : List α) : Vector α n :=
  ⟨⟨(l ++ List.replicate n d).take n⟩, by simp⟩

end Sys2Proof.Machine
end

