-- ==== Sys2Proof/Machine/Flags.lean ====
section
/-! DEFINITION. The flags of the block: the number a read of STATUS returns (spec/10_state.md R24) and
the checks whose first failure decides ERR (spec/60_exceptions.md R250, R258, R259, R261). -/

namespace Sys2Proof.Machine

/-- The number recorded in STATUS.ERR (R250). -/
def ErrCode.code (e : ErrCode) : BitVec 4 :=
  match e with
  | .none => 0
  | .config => 1
  | .keyLength => 2
  | .blockSize => 3
  | .ivLength => 4
  | .length => 5
  | .padding => 6
  | .divideByZero => 7
  | .notReady => 8
  | .illegalCommand => 9

/-- STATUS as a host read returns it: BUSY, FE_READY, KEY_READY, FLT in bits 0 to 3, ERR in bits
7:4, bits 31:8 zero (R24). -/
def State.statusWord (s : State) : Word :=
  0#24 ++ ErrCode.code s.status.err ++ BitVec.ofBool s.status.flt
    ++ BitVec.ofBool s.status.keyReady ++ BitVec.ofBool s.status.feReady ++ BitVec.ofBool s.busy

/-- "The first that fails decides the fault" (spec/43_modes.md R191): each check is whether it fails
and the error it then gives, in the order of the list (R261). -/
def firstFault : List (Bool × ErrCode) → Option ErrCode
  | [] => none
  | (failed, e) :: cs => if failed then some e else firstFault cs

/-- `INLEN > BUFCAP` (R259 (b)). -/
def State.inputTooLong (s : State) : Bool := decide (s.conf.bufcap.val < s.regs.inlen.toNat)

/-- What a MODE command requires beyond a ready key: whether it may run with `par = 1` (R230),
whether it reads SEG (R204), the IV length it needs (R192) and the unit its input length must be a
multiple of (R197, R199, R202, R222). -/
structure ModeNeeds where
  independent : Bool
  usesSeg : Bool
  ivLength : Option Nat
  lengthUnit : Option Nat
  deriving DecidableEq, Repr

/-- Steps 2 to 8 of the checks of a MODE command (R191). -/
def modeChecks (r : ModeNeeds) (par : Bool) (s : State) : List (Bool × ErrCode) :=
  [ (s.inputTooLong, .illegalCommand),
    (!s.status.keyReady, .notReady),
    (par && !r.independent, .config),
    (par && !decide (1 ≤ s.regs.threads.toNat ∧ s.regs.threads.toNat ≤ s.conf.maxWorkers.val), .config),
    (r.usesSeg && !decide (1 ≤ s.regs.seg.toNat ∧ s.regs.seg.toNat ≤ 16), .config),
    (match r.ivLength with
      | none => false
      | some n => decide (s.regs.ivlen.toNat ≠ n), .ivLength),
    (match r.lengthUnit with
      | none => false
      | some m => decide (s.regs.inlen.toNat % m ≠ 0), .length) ]

/-- The checks of BLK.ENC and BLK.DEC (spec/41_cipher_core.md R151, R153). -/
def blockChecks (s : State) : List (Bool × ErrCode) :=
  [ (s.inputTooLong, .illegalCommand),
    (!s.status.keyReady, .notReady),
    (decide (s.regs.inlen.toNat ≠ 16), .blockSize) ]

end Sys2Proof.Machine
end

