-- ==== Sys2Proof/Machine/Bus.lean ====
section
/-! DEFINITION. The host's accesses to the block (spec/20_memory.md R60 to R66, spec/10_state.md R23 to
R35, R44): what lies at an offset, what a read returns, what a write stores, and which accesses are
refused. -/

namespace Sys2Proof.Machine

/-- The control registers. -/
inductive RegName where
  | cmd
  | status
  | res
  | poly
  | polya
  | threads
  | seg
  | keylen
  | ivlen
  | inlen
  | outlen
  deriving DecidableEq, Repr

/-- What lies at a block offset. -/
inductive Place where
  /-- A control register, at its own offset. -/
  | reg (r : RegName)
  /-- Inside a control register, not at its offset. -/
  | regInside
  /-- A byte of the KEY window, write-only. -/
  | key
  /-- A byte of the IV window, read-write. -/
  | iv
  /-- A byte of the IN window, read-write. -/
  | inWin
  /-- A byte of the OUT window, read-only. -/
  | outWin
  /-- A reserved offset (R65). -/
  | reserved
  /-- Beyond the block's footprint (R65). -/
  | outside
  deriving DecidableEq, Repr

/-- The register at word index `i`, offset `4 * i` (the table of spec/10_state.md section 4). -/
def regAtIndex (i : Nat) : Option RegName :=
  [RegName.cmd, .status, .res, .poly, .polya, .threads, .seg, .keylen, .ivlen, .inlen, .outlen][i]?

/-- What lies at offset `off` (R44, R65, section 4 of spec/10_state.md). -/
def placeAt (P : Params) (off : Nat) : Place :=
  if footprint ≤ off then .outside
  else
    match regAtIndex (off / 4) with
    | some r => if off % 4 = 0 then .reg r else .regInside
    | none =>
      if keyBase ≤ off ∧ off < keyBase + keySize then .key
      else if ivBase ≤ off ∧ off < ivBase + ivSize then .iv
      else if inBase ≤ off ∧ off < inBase + P.bufcap.val then .inWin
      else if outBase ≤ off ∧ off < outBase + P.outcap then .outWin
      else .reserved

/-- What a host read of a register returns; CMD is write-only (R23, R24, R27 to R35). -/
def State.readReg (r : RegName) (s : State) : Option Word :=
  match r with
  | .cmd => none
  | .status => some s.statusWord
  | .res => some s.regs.res
  | .poly => some s.regs.poly
  | .polya => some s.regs.polya
  | .threads => some s.regs.threads
  | .seg => some s.regs.seg
  | .keylen => some s.regs.keylen
  | .ivlen => some s.regs.ivlen
  | .inlen => some s.regs.inlen
  | .outlen => some s.regs.outlen

/-- What a host write of a register does: a write of CMD issues the command, the read-write registers
hold all 32 bits as written, the others are read-only (R23 to R35, R65). -/
def State.writeReg (r : RegName) (v : Word) (s : State) : Option State :=
  match r with
  | .cmd => some { s with cmd := some v }
  | .poly => some { s with regs := { s.regs with poly := v } }
  | .threads => some { s with regs := { s.regs with threads := v } }
  | .seg => some { s with regs := { s.regs with seg := v } }
  | .keylen => some { s with regs := { s.regs with keylen := v } }
  | .ivlen => some { s with regs := { s.regs with ivlen := v } }
  | .inlen => some { s with regs := { s.regs with inlen := v } }
  | .status | .res | .polya | .outlen => none

/-- A host read that returned `v`. -/
def State.withRead (v : Word) (s : State) : State := { s with ext := { s.ext with rdata := v } }

/-- A four-byte read. -/
def hostReadWord (off : Nat) (s : State) : Host.Outcome State Fault Refusal :=
  match placeAt s.conf off with
  | .reg r =>
    match s.readReg r with
    | some v => .next (s.withRead v)
    | none => .refused (.readOfWriteOnly off)
  | .regInside => .refused (.misaligned off)
  | .key | .iv | .inWin | .outWin => .refused (.wrongWidth off)
  | .reserved => .fault (.reservedOffset off)
  | .outside => .fault (.outsideFootprint off)

/-- A four-byte write. -/
def hostWriteWord (off : Nat) (v : Word) (s : State) : Host.Outcome State Fault Refusal :=
  match placeAt s.conf off with
  | .reg r =>
    match s.writeReg r v with
    | some t => .next t
    | none => .refused (.writeOfReadOnly off)
  | .regInside => .refused (.misaligned off)
  | .key | .iv | .inWin | .outWin => .refused (.wrongWidth off)
  | .reserved => .fault (.reservedOffset off)
  | .outside => .fault (.outsideFootprint off)

/-- A one-byte read. -/
def hostReadByte (off : Nat) (s : State) : Host.Outcome State Fault Refusal :=
  match placeAt s.conf off with
  | .iv | .inWin | .outWin => .next (s.withRead ((s.readByte off).setWidth 32))
  | .key => .refused (.readOfWriteOnly off)
  | .reg _ | .regInside => .refused (.wrongWidth off)
  | .reserved => .fault (.reservedOffset off)
  | .outside => .fault (.outsideFootprint off)

/-- A one-byte write. -/
def hostWriteByte (off : Nat) (v : Byte) (s : State) : Host.Outcome State Fault Refusal :=
  match placeAt s.conf off with
  | .key | .iv | .inWin => .next { s with mem := Memory.write s.mem off v }
  | .outWin => .refused (.writeOfReadOnly off)
  | .reg _ | .regInside => .refused (.wrongWidth off)
  | .reserved => .fault (.reservedOffset off)
  | .outside => .fault (.outsideFootprint off)

/-- An access of any other width (R60). -/
def hostOther (off : Nat) (s : State) : Host.Outcome State Fault Refusal :=
  match placeAt s.conf off with
  | .reserved => .fault (.reservedOffset off)
  | .outside => .fault (.outsideFootprint off)
  | .reg _ | .regInside | .key | .iv | .inWin | .outWin => .refused (.wrongWidth off)

/-- The offset of an access. -/
def accessOffset (a : Access) : Nat :=
  match a with
  | .readWord off | .readByte off | .readOther off _ => off
  | .writeWord off _ | .writeByte off _ | .writeOther off _ => off

/-- A read of STATUS, the one access that is allowed while BUSY is 1 (R66, R284). -/
def isStatusRead (P : Params) (a : Access) : Bool :=
  match a with
  | .readWord off => placeAt P off == .reg .status
  | .readByte _ | .readOther _ _ | .writeWord _ _ | .writeByte _ _ | .writeOther _ _ => false

/-- One host access at a block offset (R60, R66). -/
def hostAccess (a : Access) (s : State) : Host.Outcome State Fault Refusal :=
  if s.busy && !isStatusRead s.conf a then .refused (.accessWhileBusy (accessOffset a))
  else
    match a with
    | .readWord off => hostReadWord off s
    | .readByte off => hostReadByte off s
    | .writeWord off v => hostWriteWord off v s
    | .writeByte off v => hostWriteByte off v s
    | .readOther off _ | .writeOther off _ => hostOther off s

/-! ## The host's address space: "CORE_BASE plus a byte offset" (R44) -/

/-- The same access at another place. -/
def Access.mapOffset (f : Nat → Nat) (a : Access) : Access :=
  match a with
  | .readWord off => .readWord (f off)
  | .readByte off => .readByte (f off)
  | .readOther off n => .readOther (f off) n
  | .writeWord off v => .writeWord (f off) v
  | .writeByte off v => .writeByte (f off) v
  | .writeOther off n => .writeOther (f off) n

/-- One host access at an address of the host's address space. -/
def busAccess (a : Access) (s : State) : Host.Outcome State Fault Refusal :=
  if accessOffset a < s.conf.coreBase then .fault (.belowBase (accessOffset a))
  else hostAccess (a.mapOffset (fun addr => addr - s.conf.coreBase)) s

end Sys2Proof.Machine
end

