-- ==== Sys2Proof/Machine/Operands.lean ====
section
/-! DEFINITION. The operands of the commands: byte strings, little-endian words, the big-endian
counter, blocks and segments (spec/00_scope.md R12, spec/20_memory.md R61, R68), and what a command
reads from the windows. -/

namespace Sys2Proof.Machine

/-! ## Byte strings (R12) -/

/-- `X xor Y`, byte-wise, on strings of equal length. -/
def xorBytes (x y : List Byte) : List Byte := List.zipWith (fun a b => a ^^^ b) x y

/-- `first(X, m)` (spec/43_modes.md R190). -/
def firstBytes (x : List Byte) (m : Nat) : List Byte := x.take m

/-- `LE32` of four bytes, lowest index first. -/
def le32 (b0 b1 b2 b3 : Byte) : Word := b3 ++ b2 ++ b1 ++ b0

/-- `byte_j(w) = w[8j+7:8j]`. -/
def byteOf (w : Word) (j : Nat) : Byte := w.extractLsb' (8 * j) 8

/-- `LE32inv(w)`. -/
def le32Inv (w : Word) : List Byte := [byteOf w 0, byteOf w 1, byteOf w 2, byteOf w 3]

/-- Word `i` of a byte string: `LE32(B[4i..4i+4))` (R61). -/
def wordAt (b : List Byte) (i : Nat) : Word :=
  le32 (b.getD (4 * i) 0) (b.getD (4 * i + 1) 0) (b.getD (4 * i + 2) 0) (b.getD (4 * i + 3) 0)

/-- `BE64(n)`: eight bytes, most significant first (R12, R61 (c)). -/
def be64 (n : BitVec 64) : List Byte :=
  [n.extractLsb' 56 8, n.extractLsb' 48 8, n.extractLsb' 40 8, n.extractLsb' 32 8,
    n.extractLsb' 24 8, n.extractLsb' 16 8, n.extractLsb' 8 8, n.extractLsb' 0 8]

/-! ## Blocks, segments, chunks (R68) -/

/-- `n` consecutive pieces of `m` bytes; the last one is shorter when the bytes run out. -/
def splitEvery (m : Nat) : Nat → List Byte → List (List Byte)
  | 0, _ => []
  | n + 1, d => d.take m :: splitEvery m n (d.drop m)

/-- The `ceil(len d / m)` pieces of `m` bytes of a byte string, the last possibly shorter. -/
def pieces (m : Nat) (d : List Byte) : List (List Byte) :=
  splitEvery m ((d.length + (m - 1)) / m) d

/-! ## What a command reads (R68, spec/70_reset_and_hazards.md R285) -/

/-- `IN[0..INLEN)`. -/
def State.input (s : State) : List Byte := Memory.readBytes s.mem inBase s.regs.inlen.toNat

/-- `IV[0..n)`. -/
def State.ivBytes (s : State) (n : Nat) : List Byte := Memory.readBytes s.mem ivBase n

/-- `KEY[0..KEYLEN)`. -/
def State.keyBytes (s : State) : List Byte := Memory.readBytes s.mem keyBase s.regs.keylen.toNat

end Sys2Proof.Machine
end

