-- ==== Sys2Proof/Machine/Field.lean ====
section
/-! DEFINITION. The Field Engine (spec/40_field_engine.md): multiply-reduce, the tables FE.INIT
builds, and the six operations as functions of the tables. -/

namespace Sys2Proof.Machine

/-! ## The multiply-reduce datapath (R111, R112) -/

/-- `xtime(v, p)`: doubling, reduced by `p` when bit 8 comes out set (R111). -/
def xtime (v : Byte) (p : BitVec 9) : Byte :=
  let t : BitVec 9 := v.setWidth 9 <<< 1
  (if t.getLsbD 8 then t ^^^ p else t).setWidth 8

/-- The loop of R112 over bits `i`, `i + 1`, ... of `b`, for `n` more bits. -/
def pmulredLoop (b : Byte) (p : BitVec 9) : Nat → Nat → Byte → Byte → Byte
  | 0, _, _, r => r
  | n + 1, i, a, r =>
    pmulredLoop b p n (i + 1) (xtime a p) (if b.getLsbD i then r ^^^ a else r)

/-- `pmulred(a, b, p)`: the product of `a` and `b` modulo `p` (R112). -/
def pmulred (a b : Byte) (p : BitVec 9) : Byte := pmulredLoop b p 8 0 a 0

/-! ## The tables (R113) -/

/-- `v, v·g, v·g², ...`: the values `v` takes in the loop of R113. -/
def powersFrom (g : Byte) (p : BitVec 9) : Nat → Byte → List Byte
  | 0, _ => []
  | n + 1, v => v :: powersFrom g p n (pmulred v g p)

/-- The values EXP[0] to EXP[254] that FE.INIT writes. -/
def powers (g : Byte) (p : BitVec 9) : List Byte := powersFrom g p 255 1

/-- EXP: the 255 powers, then `EXP[i] = EXP[i - 255]` up to index 511. -/
def expTable (g : Byte) (p : BitVec 9) : Vector Byte 512 :=
  vecOf 512 0 (powers g p ++ powers g p ++ powers g p)

/-- `LOG[v] <- i` for the values `v` in order, `i` counting up. -/
def logFill : List Byte → Nat → Vector Byte 256 → Vector Byte 256
  | [], _, l => l
  | v :: vs, i, l => logFill vs (i + 1) (l.set v.toNat (BitVec.ofNat 8 i) v.isLt)

/-- LOG after FE.INIT: the 255 entries in the order of the loop, then `LOG[0] <- 0`. -/
def logTable (g : Byte) (p : BitVec 9) (old : Vector Byte 256) : Vector Byte 256 :=
  (logFill (powers g p) 0 old).set 0 0

/-- The tables FE.INIT builds from generator `g` for modulus `p`. -/
def buildTables (g : Byte) (p : BitVec 9) (old : Tables) : Tables :=
  { exp := expTable g p, log := logTable g p old.log }

/-! ## The operations (R122) -/

/-- LOG[a], a number 0 to 255. -/
def logAt (T : Tables) (a : Byte) : Nat := (T.log[a.toNat]'a.isLt).toNat

/-- EXP[i]. -/
def expAt (T : Tables) (i : Nat) : Byte := T.exp.toList.getD i 0

/-- `gf_add(a, b)`. -/
def gfAdd (a b : Byte) : Byte := a ^^^ b

/-- `gf_sub(a, b)`. -/
def gfSub (a b : Byte) : Byte := a ^^^ b

/-- `gf_mul(a, b)`. -/
def gfMul (T : Tables) (a b : Byte) : Byte :=
  if a = 0 ∨ b = 0 then 0 else expAt T (logAt T a + logAt T b)

/-- `gf_div(a, b)`; the divisor is tested first. -/
def gfDiv (T : Tables) (a b : Byte) : Except ErrCode Byte :=
  if b = 0 then .error .divideByZero
  else if a = 0 then .ok 0
  else .ok (expAt T (((logAt T a : Int) - (logAt T b : Int)) % 255).toNat)

/-- `gf_pow(a, n)`; the tests are made in this order, so `gf_pow(0, 0) = 1`. -/
def gfPow (T : Tables) (a : Byte) (n : Nat) : Byte :=
  if a = 0 ∧ 0 < n then 0
  else if n = 0 then 1
  else expAt T ((logAt T a * n) % 255)

/-- `gf_inv(a)`. -/
def gfInv (T : Tables) (a : Byte) : Except ErrCode Byte :=
  if a = 0 then .error .divideByZero else .ok (expAt T (255 - logAt T a))

end Sys2Proof.Machine
end

