-- ==== Sys2Proof/Machine/Cipher.lean ====
section
/-! DEFINITION. The Cipher Core as functions (spec/41_cipher_core.md): the h-function, the key schedule,
the round and the two block functions, over the open parameters `CipherParams` and the Field Engine
tables. -/

namespace Sys2Proof.Machine

/-! ## The h-function (R145 to R147) -/

/-- `QP(j, v)`: Q0 at even byte positions, Q1 at odd ones (R145). -/
def qp (P : CipherParams) (j : Nat) (v : Byte) : Byte := if j % 2 = 0 then P.q0 v else P.q1 v

/-- The byte at position `j` after the first application of the permutation and one more after each
key word, in ascending order (R146). -/
def hByte (P : CipherParams) (j : Nat) (x : Byte) (L : List Word) : Byte :=
  L.foldl (fun y l => qp P j (y ^^^ byteOf l j)) (qp P j x)

/-- Row `r` of the matrix times the column `y0, y1, y2, y3`, in the Field Engine (R146). -/
def mdsRow (P : CipherParams) (T : Tables) (r : Fin 4) (y0 y1 y2 y3 : Byte) : Byte :=
  gfMul T (P.mds r 0) y0 ^^^ gfMul T (P.mds r 1) y1 ^^^ gfMul T (P.mds r 2) y2
    ^^^ gfMul T (P.mds r 3) y3

/-- `h(X, L)` (R146). -/
def hFun (P : CipherParams) (T : Tables) (X : Word) (L : List Word) : Word :=
  let y0 := hByte P 0 (byteOf X 0) L
  let y1 := hByte P 1 (byteOf X 1) L
  let y2 := hByte P 2 (byteOf X 2) L
  let y3 := hByte P 3 (byteOf X 3) L
  le32 (mdsRow P T 0 y0 y1 y2 y3) (mdsRow P T 1 y0 y1 y2 y3) (mdsRow P T 2 y0 y1 y2 y3)
    (mdsRow P T 3 y0 y1 y2 y3)

/-! ## Key setup (R141 to R148) -/

/-- The default of SKEY: the bytes of ME[j] and MO[j] alternate, ME first, low byte first (R144). -/
def interleave (n : Nat) (me mo : List Word) : List Word :=
  (List.range n).flatMap fun j =>
    let e := me.getD j 0
    let o := mo.getD j 0
    [ le32 (byteOf e 0) (byteOf o 0) (byteOf e 1) (byteOf o 1),
      le32 (byteOf e 2) (byteOf o 2) (byteOf e 3) (byteOf o 3) ]

/-- SKEY(N, ME, MO) (R144). -/
def skeyOf (k : SkeyRule) : Nat → List Word → List Word → List Word :=
  match k with
  | .interleaved => interleave
  | .other i => fun n me mo => (Config.skeyOther i n me mo).toList

/-- The parameters of the Cipher Core (spec/00_scope.md R9, R10). -/
def Params.cipher (P : Params) : CipherParams :=
  { q0 := Config.q0, q1 := Config.q1, mds := Config.mds, skey := skeyOf P.skey, g1Rot := P.g1Rot }

/-- ρ, the word whose four bytes are all 1 (R148). -/
def rho : Word := 0x01010101

/-- K[2i] and K[2i+1] (R148). -/
def subkeyPair (P : CipherParams) (T : Tables) (me mo : List Word) (i : Nat) : List Word :=
  let A := hFun P T (BitVec.ofNat 32 (2 * i) * rho) me
  let B := (hFun P T (BitVec.ofNat 32 (2 * i + 1) * rho) mo).rotateLeft 8
  [A + B, (A + B + B).rotateLeft 9]

/-- K[0..39]: the pairs for i = 0 to 19 (R148). -/
def keySchedule (P : CipherParams) (T : Tables) (me mo : List Word) : List Word :=
  (List.range 20).flatMap (subkeyPair P T me mo)

/-- ME: the even words of the key (R142, R143). -/
def evenWords (n : Nat) (key : List Byte) : List Word :=
  (List.range n).map fun j => wordAt key (2 * j)

/-- MO: the odd words of the key (R142, R143). -/
def oddWords (n : Nat) (key : List Byte) : List Word :=
  (List.range n).map fun j => wordAt key (2 * j + 1)

/-- N, ME, MO, S and K for the given key bytes; entries of ME, MO at index ≥ N and of S at index
≥ 2N are 0 (R141). -/
def setupKey (P : CipherParams) (T : Tables) (key : List Byte) : KeyState :=
  let n := key.length / 8
  let me := evenWords n key
  let mo := oddWords n key
  { n := n
    me := vecOf 4 0 me
    mo := vecOf 4 0 mo
    sbox := vecOf 8 0 (P.skey n me mo)
    k := vecOf 40 0 (keySchedule P T me mo) }

/-! ## The round (R149, R150) -/

/-- `F(A, B, r)` for the two subkeys of round `r` (R149); `S` is the whole S-box key material, so
`hFun P T · S` is the g-value (R147). -/
def roundF (P : CipherParams) (T : Tables) (S : List Word) (A B k0 k1 : Word) : Word × Word :=
  let T0 := hFun P T A S
  let T1 := hFun P T (B.rotateLeft P.g1Rot) S
  (T0 + T1 + k0, T0 + T1 + T1 + k1)

/-- The subkeys of the 16 rounds in order: K[2r+8] and K[2r+9] (R150). -/
def roundKeys (K : List Word) : List (Word × Word) :=
  (List.range 16).map fun r => (K.getD (2 * r + 8) 0, K.getD (2 * r + 9) 0)

/-- The four words of a block in processing. -/
structure Quad where
  r0 : Word
  r1 : Word
  r2 : Word
  r3 : Word
  deriving DecidableEq, Repr

/-- One round of encryption (R152). -/
def encRound (P : CipherParams) (T : Tables) (S : List Word) (q : Quad) (k : Word × Word) : Quad :=
  let f := roundF P T S q.r0 q.r1 k.1 k.2
  { r0 := (q.r2 ^^^ f.1).rotateRight 1
    r1 := q.r3.rotateLeft 1 ^^^ f.2
    r2 := q.r0
    r3 := q.r1 }

/-- One round of decryption (R154). -/
def decRound (P : CipherParams) (T : Tables) (S : List Word) (q : Quad) (k : Word × Word) : Quad :=
  let f := roundF P T S q.r2 q.r3 k.1 k.2
  { r0 := q.r2
    r1 := q.r3
    r2 := q.r0.rotateLeft 1 ^^^ f.1
    r3 := (q.r1 ^^^ f.2).rotateRight 1 }

/-- `(R[0], R[1], R[2], R[3]) = (R[2], R[3], R[0], R[1])` (R152, R154). -/
def Quad.swap (q : Quad) : Quad := { r0 := q.r2, r1 := q.r3, r2 := q.r0, r3 := q.r1 }

/-- XOR with four consecutive subkeys from index `i` on: the whitening (R150). -/
def Quad.whiten (K : List Word) (i : Nat) (q : Quad) : Quad :=
  { r0 := q.r0 ^^^ K.getD i 0
    r1 := q.r1 ^^^ K.getD (i + 1) 0
    r2 := q.r2 ^^^ K.getD (i + 2) 0
    r3 := q.r3 ^^^ K.getD (i + 3) 0 }

/-- The four little-endian words of a block (R61). -/
def Quad.load (b : List Byte) : Quad :=
  { r0 := wordAt b 0, r1 := wordAt b 1, r2 := wordAt b 2, r3 := wordAt b 3 }

/-- The 16 bytes of four words. -/
def Quad.store (q : Quad) : List Byte :=
  le32Inv q.r0 ++ le32Inv q.r1 ++ le32Inv q.r2 ++ le32Inv q.r3

/-! ## The block functions -/

/-- `E(B)` (R152). -/
def encryptBlock (P : CipherParams) (T : Tables) (S K : List Word) (b : List Byte) : List Byte :=
  let q := (Quad.load b).whiten K 0
  let q := (roundKeys K).foldl (encRound P T S) q
  (q.swap.whiten K 4).store

/-- `D(C)` (R154). -/
def decryptBlock (P : CipherParams) (T : Tables) (S K : List Word) (b : List Byte) : List Byte :=
  let q := ((Quad.load b).whiten K 4).swap
  let q := (roundKeys K).reverse.foldl (decRound P T S) q
  (q.whiten K 0).store

/-- S[0..2N) of the latched key. -/
def KeyState.sboxWords (k : KeyState) : List Word := k.sbox.toList.take (2 * k.n)

/-- E under the latched key and the tables in place (spec/43_modes.md R190). -/
def State.encBlock (s : State) (b : List Byte) : List Byte :=
  encryptBlock s.conf.cipher s.tab s.key.sboxWords s.key.k.toList b

/-- D under the latched key and the tables in place (R190). -/
def State.decBlock (s : State) (b : List Byte) : List Byte :=
  decryptBlock s.conf.cipher s.tab s.key.sboxWords s.key.k.toList b

end Sys2Proof.Machine
end

