-- ==== Sys2Proof/Machine/Cc.lean ====
section
/-! DEFINITION. The CC commands (spec/41_cipher_core.md R141, R151, R153). -/

namespace Sys2Proof.Machine

/-- A KEY.SETUP that faults clears KEY_READY and leaves the key material as it was (R141). -/
def State.failKeySetup (e : ErrCode) (s : State) : State :=
  State.raise false e { s with status := { s.status with keyReady := false } }

/-- KEYLEN ∈ {16, 24, 32} (R141). -/
def legalKeyLength (n : Nat) : Bool := n == 16 || n == 24 || n == 32

/-- KEY.SETUP (R141). -/
def execKeySetup (s : State) : Host.Outcome State Fault Refusal :=
  if !s.status.feReady then .next (s.failKeySetup .notReady)
  else if !legalKeyLength s.regs.keylen.toNat then .next (s.failKeySetup .keyLength)
  else
    let s := { s with
      key := setupKey s.conf.cipher s.tab s.keyBytes
      status := { s.status with keyReady := true } }
    .next s.complete

/-- What BLK.ENC and BLK.DEC share: the checks, then the block function on IN[0..16) (R151). -/
def blockCommand (f : List Byte → List Byte) (s : State) : Host.Outcome State Fault Refusal :=
  match firstFault (blockChecks s) with
  | some e => .next (s.raise true e)
  | none => .next (s.deliver (f s.input))

/-- BLK.ENC (R151). -/
def execBlkEnc (s : State) : Host.Outcome State Fault Refusal := blockCommand s.encBlock s

/-- BLK.DEC (R153). -/
def execBlkDec (s : State) : Host.Outcome State Fault Refusal := blockCommand s.decBlock s

end Sys2Proof.Machine
end

