-- ==== Sys2Proof/Machine/Fe.lean ====
section
/-! DEFINITION. The FE commands (spec/40_field_engine.md R113, R116 to R121, R125). -/

namespace Sys2Proof.Machine

/-- FE.INIT (R113): KEY_READY is cleared before anything else; a POLY outside the allow-list also
clears FE_READY and POLYA and leaves the tables as they were. -/
def execFeInit (s : State) : Host.Outcome State Fault Refusal :=
  let s := { s with status := { s.status with keyReady := false } }
  match s.conf.genOf s.regs.poly with
  | none =>
    let s := { s with
      status := { s.status with feReady := false }
      regs := { s.regs with polya := 0 } }
    .next (s.raise false .config)
  | some g =>
    let s := { s with
      tab := buildTables g (s.regs.poly.setWidth 9) s.tab
      regs := { s.regs with polya := s.regs.poly }
      status := { s.status with feReady := true } }
    .next s.complete

/-- The common part of the six operation commands: NotReadyError without tables, then the operation's
own fault, else `RES <- zext_32(result)` (R125). -/
def fieldCommand (r : Except ErrCode Byte) (s : State) : Host.Outcome State Fault Refusal :=
  if !s.status.feReady then .next (s.raise false .notReady)
  else
    match r with
    | .error e => .next (s.raise false e)
    | .ok v => .next (State.complete { s with regs := { s.regs with res := v.setWidth 32 } })

/-- FE.ADD (R116). -/
def execFeAdd (a b : Byte) (s : State) : Host.Outcome State Fault Refusal :=
  fieldCommand (.ok (gfAdd a b)) s

/-- FE.SUB (R117). -/
def execFeSub (a b : Byte) (s : State) : Host.Outcome State Fault Refusal :=
  fieldCommand (.ok (gfSub a b)) s

/-- FE.MUL (R118). -/
def execFeMul (a b : Byte) (s : State) : Host.Outcome State Fault Refusal :=
  fieldCommand (.ok (gfMul s.tab a b)) s

/-- FE.DIV (R119): `a` is the dividend, `b` the divisor. -/
def execFeDiv (a b : Byte) (s : State) : Host.Outcome State Fault Refusal :=
  fieldCommand (gfDiv s.tab a b) s

/-- FE.POW (R120). -/
def execFePow (a : Byte) (n : Nat) (s : State) : Host.Outcome State Fault Refusal :=
  fieldCommand (.ok (gfPow s.tab a n)) s

/-- FE.INV (R121). -/
def execFeInv (a : Byte) (s : State) : Host.Outcome State Fault Refusal :=
  fieldCommand (gfInv s.tab a) s

end Sys2Proof.Machine
end

