-- ==== Sys2Proof/Machine/Padding.lean ====
section
/-! DEFINITION. The Padding Module as functions (spec/42_padding.md): `pad(d, s)` and
`unpad(d, s)`. -/

namespace Sys2Proof.Machine

/-- `padLen(n) = 16 - (n mod 16)` (R171). -/
def padLen (n : Nat) : Nat := 16 - n % 16

/-- How many random bytes `pad` draws for data of `n` bytes: the filler of scheme 3 (R172). -/
def fillerCount (s : Scheme) (n : Nat) : Nat :=
  match s with
  | .iso => padLen n - 1
  | .zero | .ansi | .pkcs7 => 0

/-- `pad(d, s)`, given the random bytes that scheme 3 draws (R172). -/
def padBytes (s : Scheme) (filler d : List Byte) : List Byte :=
  let p := padLen d.length
  match s with
  | .zero => d ++ List.replicate p 0
  | .ansi => d ++ List.replicate (p - 1) 0 ++ [BitVec.ofNat 8 p]
  | .pkcs7 => d ++ List.replicate p (BitVec.ofNat 8 p)
  | .iso => d ++ filler ++ [BitVec.ofNat 8 p]

/-- The string without its trailing zero bytes (R177). -/
def stripZeros : List Byte → List Byte
  | [] => []
  | b :: bs =>
    match stripZeros bs with
    | [] => if b = 0 then [] else [b]
    | c :: cs => b :: c :: cs

/-- Whether the `t - 1` bytes before the trailer are what the scheme wrote there; scheme 3 does not
look (R177). -/
def fillerMatches (s : Scheme) (t : Nat) (d : List Byte) : Bool :=
  let inside := (d.drop (d.length - t)).dropLast
  match s with
  | .ansi => inside.all (fun b => b == 0)
  | .pkcs7 => inside.all (fun b => b == BitVec.ofNat 8 t)
  | .zero | .iso => true

/-- `unpad(d, s)` for a scheme with a trailer byte, `d` a whole number of blocks (R177). -/
def unpadTrailer (s : Scheme) (d : List Byte) : Except ErrCode (List Byte) :=
  match d.getLast? with
  | none => .error .padding
  | some t =>
    if t.toNat = 0 ∨ 16 < t.toNat then .error .padding
    else if !fillerMatches s t.toNat d then .error .padding
    else .ok (d.take (d.length - t.toNat))

/-- `unpad(d, s)` (R177). -/
def unpadBytes (s : Scheme) (d : List Byte) : Except ErrCode (List Byte) :=
  if d.length % 16 ≠ 0 then .error .length
  else
    match s with
    | .zero => .ok (stripZeros d)
    | .ansi | .pkcs7 | .iso => unpadTrailer s d

end Sys2Proof.Machine
end

