-- ==== Sys2Proof/Machine/Pad.lean ====
section
/-! DEFINITION. The PAD commands (spec/42_padding.md R173 to R182). They need no readiness. -/

namespace Sys2Proof.Machine

/-- The padded input: the filler of scheme 3 is drawn, the other schemes draw nothing (R172). -/
def State.paddedInput (p : Scheme) (s : State) : List Byte :=
  padBytes p (s.drawn (fillerCount p s.regs.inlen.toNat)) s.input

/-- The state after the draws of `paddedInput`. -/
def State.skipFiller (p : Scheme) (s : State) : State :=
  s.skipDraws (fillerCount p s.regs.inlen.toNat)

/-- The common part of the four pad commands (R182). -/
def padCommand (p : Scheme) (s : State) : Host.Outcome State Fault Refusal :=
  if s.inputTooLong then .next (s.raise true .illegalCommand)
  else .next ((s.skipFiller p).deliver (s.paddedInput p))

/-- The common part of the four unpad commands (R182). -/
def unpadCommand (p : Scheme) (s : State) : Host.Outcome State Fault Refusal :=
  if s.inputTooLong then .next (s.raise true .illegalCommand)
  else
    match unpadBytes p s.input with
    | .error e => .next (s.raise true e)
    | .ok r => .next (s.deliver r)

/-- PAD.ZERO (R173). -/
def execPadZero (s : State) : Host.Outcome State Fault Refusal := padCommand .zero s

/-- PAD.ANSI (R174). -/
def execPadAnsi (s : State) : Host.Outcome State Fault Refusal := padCommand .ansi s

/-- PAD.PKCS7 (R175). -/
def execPadPkcs7 (s : State) : Host.Outcome State Fault Refusal := padCommand .pkcs7 s

/-- PAD.ISO (R176). -/
def execPadIso (s : State) : Host.Outcome State Fault Refusal := padCommand .iso s

/-- UNPAD.ZERO (R178). -/
def execUnpadZero (s : State) : Host.Outcome State Fault Refusal := unpadCommand .zero s

/-- UNPAD.ANSI (R179). -/
def execUnpadAnsi (s : State) : Host.Outcome State Fault Refusal := unpadCommand .ansi s

/-- UNPAD.PKCS7 (R180). -/
def execUnpadPkcs7 (s : State) : Host.Outcome State Fault Refusal := unpadCommand .pkcs7 s

/-- UNPAD.ISO (R181). -/
def execUnpadIso (s : State) : Host.Outcome State Fault Refusal := unpadCommand .iso s

end Sys2Proof.Machine
end

