-- ==== Sys2Proof/Machine/Modes.lean ====
section
/-! DEFINITION. The Mode Layer as functions (spec/43_modes.md): what each mode does with one block,
segment or unit, given the block functions, and the loop over a whole buffer. -/

namespace Sys2Proof.Machine

/-- What a mode does with one piece of the buffer: the output bytes and the mode state after it. -/
abbrev BlockStep := ModeState → List Byte → List Byte × ModeState

/-- The sequential path: piece after piece, BLK counting them (R45, R191). -/
def runBlocks (f : BlockStep) : ModeState → List (List Byte) → List Byte × ModeState
  | m, [] => ([], m)
  | m, b :: bs =>
    let r := f m b
    let rest := runBlocks f { r.2 with blk := r.2.blk + 1 } bs
    (r.1 ++ rest.1, rest.2)

/-- ECB: the block function alone (R196, R197). -/
def ecbStep (F : List Byte → List Byte) : BlockStep := fun m b => (F b, m)

/-- CBC encrypt: `FB = E(pd{i} xor FB) ; OUT{i} <- FB` (R198). -/
def cbcEncStep (E : List Byte → List Byte) : BlockStep := fun m b =>
  let c := E (xorBytes b m.fb)
  (c, { m with fb := c })

/-- CBC decrypt: `T{i} = D(IN{i}) xor FB ; FB = IN{i}` (R199). -/
def cbcDecStep (D : List Byte → List Byte) : BlockStep := fun m b =>
  (xorBytes (D b) m.fb, { m with fb := b })

/-- PCBC encrypt: `C = E(pd{i} xor FB) ; FB = pd{i} xor C` (R200, R201). -/
def pcbcEncStep (E : List Byte → List Byte) : BlockStep := fun m b =>
  let c := E (xorBytes b m.fb)
  (c, { m with fb := xorBytes b c })

/-- PCBC decrypt: `T{i} = D(IN{i}) xor FB ; FB = T{i} xor IN{i}` (R202). -/
def pcbcDecStep (D : List Byte → List Byte) : BlockStep := fun m b =>
  let t := xorBytes (D b) m.fb
  (t, { m with fb := xorBytes t b })

/-- `FB[s..16) ‖ cseg` when the segment is whole; a short last segment leaves FB (R203, R205). -/
def shiftIn (s : Nat) (fb cseg : List Byte) : List Byte :=
  if cseg.length = s then fb.drop s ++ cseg else fb

/-- CFB encrypt with segments of `s` bytes (R205). -/
def cfbEncStep (E : List Byte → List Byte) (s : Nat) : BlockStep := fun m seg =>
  let cseg := xorBytes seg (firstBytes (E m.fb) seg.length)
  (cseg, { m with fb := shiftIn s m.fb cseg })

/-- CFB decrypt: the register takes the input segment (R206). -/
def cfbDecStep (E : List Byte → List Byte) (s : Nat) : BlockStep := fun m seg =>
  (xorBytes seg (firstBytes (E m.fb) seg.length), { m with fb := shiftIn s m.fb seg })

/-- OFB: `FB = E(FB)`, then the data is XORed with the new register (R208, R210). -/
def ofbStep (E : List Byte → List Byte) : BlockStep := fun m b =>
  let ks := E m.fb
  (xorBytes b (firstBytes ks b.length), { m with fb := ks })

/-- The counter block: nonce, then the counter, most significant byte first (R218). -/
def counterBlock (nonce : List Byte) (i : BitVec 64) : List Byte := nonce ++ be64 i

/-- CTR: the data is XORed with E of the counter block; the counter goes up by one (R213, R215). -/
def ctrStep (E : List Byte → List Byte) : BlockStep := fun m b =>
  (xorBytes b (firstBytes (E (counterBlock m.nonce m.ctrv)) b.length), { m with ctrv := m.ctrv + 1 })

/-- RandomDelta encrypt of one unit, the mask followed by the plaintext block: the mask in clear,
then `E(pd{i} xor MASK)` (R221, R224). -/
def rdEncStep (E : List Byte → List Byte) : BlockStep := fun m u =>
  (u.take 16 ++ E (xorBytes (u.drop 16) (u.take 16)), m)

/-- RandomDelta decrypt of one unit, the mask followed by the ciphertext block (R222). -/
def rdDecStep (D : List Byte → List Byte) : BlockStep := fun m u =>
  (xorBytes (D (u.drop 16)) (u.take 16), m)

/-- The units of RandomDelta encrypt: each block with its mask in front (R221). -/
def rdUnits (masks blocks : List (List Byte)) : List (List Byte) :=
  List.zipWith (fun mask b => mask ++ b) masks blocks

/-! ## Mode state at the start of a command (R195) -/

/-- FB loaded from the IV. -/
def ModeState.withIv (iv : List Byte) : ModeState := { ModeState.cleared with fb := iv }

/-- NONCE loaded from the IV window, CTRV 0 (R213). -/
def ModeState.withNonce (nonce : List Byte) : ModeState := { ModeState.cleared with nonce := nonce }

/-! ## The sequential path over the machine's state -/

/-- Load the mode state, run the pieces, and leave the mode state where the loop left it. -/
def State.runSequential (f : BlockStep) (m : ModeState) (ps : List (List Byte)) (s : State) :
    List Byte × State :=
  let s1 := s.withMode m
  let r := runBlocks f s1.mode ps
  (r.1, s1.withMode r.2)

end Sys2Proof.Machine
end

