-- ==== Sys2Proof/Machine/Pool.lean ====
section
/-! DEFINITION. The Parallel Dispatcher (spec/44_dispatcher.md): the queue, the workers' moves in any
interleaving, and the join. -/

namespace Sys2Proof.Machine

/-- The transform of chunk `k` (R233). -/
abbrev ChunkTransform := Nat → List Byte → List Byte

/-- A worker's move (R234). -/
inductive PoolMove where
  | take (t : Nat)
  | finish (t k : Nat)
  deriving DecidableEq, Repr

/-- "When dispatching starts: QNEXT <- 0, QDONE <- 0, every worker idle" (R234). -/
def Dispatcher.start (threads nchunk : Nat) : Dispatcher :=
  { nchunk := nchunk
    qnext := 0
    qdone := 0
    workers := List.replicate threads none
    slots := List.replicate nchunk [] }

/-- The moves of workers `t`, `t + 1`, ...: one that holds a chunk can finish it, an idle one can
take the next chunk while there is one (R234). -/
def enabledFrom (qnext nchunk : Nat) : Nat → List (Option Nat) → List PoolMove
  | _, [] => []
  | t, w :: ws =>
    match w with
    | some k => .finish t k :: enabledFrom qnext nchunk (t + 1) ws
    | none =>
      if qnext < nchunk then .take t :: enabledFrom qnext nchunk (t + 1) ws
      else enabledFrom qnext nchunk (t + 1) ws

/-- The moves that are possible now. -/
def Dispatcher.enabled (d : Dispatcher) : List PoolMove := enabledFrom d.qnext d.nchunk 0 d.workers

/-- The effect of a move: `src` are the chunks, `X` the transform (R234, R235). -/
def Dispatcher.move (X : ChunkTransform) (src : List (List Byte)) (d : Dispatcher) (mv : PoolMove) :
    Dispatcher :=
  match mv with
  | .take t => { d with workers := d.workers.set t (some d.qnext), qnext := d.qnext + 1 }
  | .finish t k =>
    { d with
      workers := d.workers.set t none
      slots := d.slots.set k (X k (src.getD k []))
      qdone := d.qdone + 1 }

/-- `n` moves, each chosen among those that are possible by a free value; it stops when none is
(R234, R236). -/
def Dispatcher.run (X : ChunkTransform) (src : List (List Byte)) (choice : Nat → Nat) :
    Nat → Nat → Dispatcher → Dispatcher
  | 0, _, d => d
  | n + 1, c, d =>
    match d.enabled[choice c % d.enabled.length]? with
    | none => d
    | some mv => Dispatcher.run X src choice n (c + 1) (d.move X src mv)

/-- The dispatched path: start, let the workers move until every chunk is taken and finished (two
moves a chunk), join, and reassemble the slots in order (R232, R236). -/
def State.runDispatched (X : ChunkTransform) (src : List (List Byte)) (s : State) :
    List Byte × State :=
  let d := Dispatcher.run X src Config.poolChoice (2 * src.length) s.ext.poolCursor
    (Dispatcher.start s.regs.threads.toNat src.length)
  (d.slots.flatten,
    { s with
      disp := some d
      ext := { s.ext with poolCursor := s.ext.poolCursor + 2 * src.length } })

/-- The per-chunk transform of CTR: the counter is the chunk's index (R233). -/
def ctrChunk (E : List Byte → List Byte) (nonce : List Byte) : ChunkTransform := fun k c =>
  xorBytes c (firstBytes (E (counterBlock nonce (BitVec.ofNat 64 k))) c.length)

end Sys2Proof.Machine
end

