-- ==== Sys2Proof/Machine/Mode.lean ====
section
/-! DEFINITION. The MODE commands (spec/43_modes.md R191 to R222, spec/44_dispatcher.md R230 to
R236). -/

namespace Sys2Proof.Machine

/-- The checks 2 to 8 of R191, then the command's own work. A fault leaves no mode state (R45). -/
def modeCommand (needs : ModeNeeds) (par : Bool) (work : State → State) (s : State) :
    Host.Outcome State Fault Refusal :=
  match firstFault (modeChecks needs par s) with
  | some e => .next (s.endMode.raise true e)
  | none => .next (work s)

/-- The end of a MODE command: the mode state is discarded and the result delivered, or the error of
unpad raised (R191 step 9, R195). -/
def State.finishMode (r : Except ErrCode (List Byte)) (s : State) : State :=
  match r with
  | .ok out => s.endMode.deliver out
  | .error e => s.endMode.raise true e

/-- The per-block step of an independent mode, sequential or dispatched (R190, R238). -/
def State.runIndependent (par : Bool) (X : ChunkTransform) (f : BlockStep) (m : ModeState)
    (ps : List (List Byte)) (s : State) : List Byte × State :=
  if par then s.runDispatched X ps else s.runSequential f m ps

/-- The work of an encrypt command of a padded chained mode: pad once, then block after block
(R193). -/
def State.padThenRun (p : Scheme) (f : BlockStep) (m : ModeState) (s : State) : State :=
  let r := (s.skipFiller p).runSequential f m (pieces 16 (s.paddedInput p))
  r.2.finishMode (.ok r.1)

/-- The work of a decrypt command of a padded chained mode: unit after unit of `u` bytes, then unpad
once (R193). -/
def State.runThenUnpad (p : Scheme) (u : Nat) (f : BlockStep) (m : ModeState) (s : State) : State :=
  let r := s.runSequential f m (pieces u s.input)
  r.2.finishMode (unpadBytes p r.1)

/-- The work of a mode without padding: pieces of `u` bytes, the last possibly shorter (R194). -/
def State.runUnpadded (u : Nat) (f : BlockStep) (m : ModeState) (s : State) : State :=
  let r := s.runSequential f m (pieces u s.input)
  r.2.finishMode (.ok r.1)

/-! ## ECB (R196, R197) -/

def ecbEncNeeds : ModeNeeds :=
  { independent := true, usesSeg := false, ivLength := none, lengthUnit := none }

def ecbDecNeeds : ModeNeeds :=
  { independent := true, usesSeg := false, ivLength := none, lengthUnit := some 16 }

/-- ECB.ENC (R196; dispatched: R232, R233). -/
def execEcbEnc (par : Bool) (p : Scheme) (s : State) : Host.Outcome State Fault Refusal :=
  modeCommand ecbEncNeeds par (fun s =>
    let r := (s.skipFiller p).runIndependent par (fun _ c => s.encBlock c) (ecbStep s.encBlock)
      ModeState.cleared (pieces 16 (s.paddedInput p))
    r.2.finishMode (.ok r.1)) s

/-- ECB.DEC (R197; dispatched: R232, R233). -/
def execEcbDec (par : Bool) (p : Scheme) (s : State) : Host.Outcome State Fault Refusal :=
  modeCommand ecbDecNeeds par (fun s =>
    let r := s.runIndependent par (fun _ c => s.decBlock c) (ecbStep s.decBlock)
      ModeState.cleared (pieces 16 s.input)
    r.2.finishMode (unpadBytes p r.1)) s

/-! ## CBC (R198, R199) -/

def cbcEncNeeds : ModeNeeds :=
  { independent := false, usesSeg := false, ivLength := some 16, lengthUnit := none }

def cbcDecNeeds : ModeNeeds :=
  { independent := false, usesSeg := false, ivLength := some 16, lengthUnit := some 16 }

/-- CBC.ENC (R198). -/
def execCbcEnc (par : Bool) (p : Scheme) (s : State) : Host.Outcome State Fault Refusal :=
  modeCommand cbcEncNeeds par (fun s =>
    s.padThenRun p (cbcEncStep s.encBlock) (ModeState.withIv (s.ivBytes 16))) s

/-- CBC.DEC (R199). -/
def execCbcDec (par : Bool) (p : Scheme) (s : State) : Host.Outcome State Fault Refusal :=
  modeCommand cbcDecNeeds par (fun s =>
    s.runThenUnpad p 16 (cbcDecStep s.decBlock) (ModeState.withIv (s.ivBytes 16))) s

/-! ## PCBC (R200 to R202) -/

def pcbcEncNeeds : ModeNeeds :=
  { independent := false, usesSeg := false, ivLength := some 16, lengthUnit := none }

def pcbcDecNeeds : ModeNeeds :=
  { independent := false, usesSeg := false, ivLength := some 16, lengthUnit := some 16 }

/-- PCBC.ENC (R201). -/
def execPcbcEnc (par : Bool) (p : Scheme) (s : State) : Host.Outcome State Fault Refusal :=
  modeCommand pcbcEncNeeds par (fun s =>
    s.padThenRun p (pcbcEncStep s.encBlock) (ModeState.withIv (s.ivBytes 16))) s

/-- PCBC.DEC (R202). -/
def execPcbcDec (par : Bool) (p : Scheme) (s : State) : Host.Outcome State Fault Refusal :=
  modeCommand pcbcDecNeeds par (fun s =>
    s.runThenUnpad p 16 (pcbcDecStep s.decBlock) (ModeState.withIv (s.ivBytes 16))) s

/-! ## CFB (R203 to R206) -/

def cfbNeeds : ModeNeeds :=
  { independent := false, usesSeg := true, ivLength := some 16, lengthUnit := none }

/-- CFB.ENC (R205). -/
def execCfbEnc (par : Bool) (s : State) : Host.Outcome State Fault Refusal :=
  modeCommand cfbNeeds par (fun s =>
    s.runUnpadded s.regs.seg.toNat (cfbEncStep s.encBlock s.regs.seg.toNat)
      (ModeState.withIv (s.ivBytes 16))) s

/-- CFB.DEC (R206): E, never D. -/
def execCfbDec (par : Bool) (s : State) : Host.Outcome State Fault Refusal :=
  modeCommand cfbNeeds par (fun s =>
    s.runUnpadded s.regs.seg.toNat (cfbDecStep s.encBlock s.regs.seg.toNat)
      (ModeState.withIv (s.ivBytes 16))) s

/-! ## OFB (R208 to R211) -/

def ofbNeeds : ModeNeeds :=
  { independent := false, usesSeg := false, ivLength := some 16, lengthUnit := none }

/-- OFB.ENC (R210). -/
def execOfbEnc (par : Bool) (s : State) : Host.Outcome State Fault Refusal :=
  modeCommand ofbNeeds par (fun s =>
    s.runUnpadded 16 (ofbStep s.encBlock) (ModeState.withIv (s.ivBytes 16))) s

/-- OFB.DEC, "exactly the effect of OFB.ENC" (R211). -/
def execOfbDec (par : Bool) (s : State) : Host.Outcome State Fault Refusal :=
  modeCommand ofbNeeds par (fun s =>
    s.runUnpadded 16 (ofbStep s.encBlock) (ModeState.withIv (s.ivBytes 16))) s

/-! ## CTR (R213 to R218) -/

def ctrNeeds : ModeNeeds :=
  { independent := true, usesSeg := false, ivLength := some 8, lengthUnit := none }

/-- The work of a CTR command, sequential or dispatched (R215, R233). -/
def State.runCtr (par : Bool) (s : State) : State :=
  let r := s.runIndependent par (ctrChunk s.encBlock (s.ivBytes 8)) (ctrStep s.encBlock)
    (ModeState.withNonce (s.ivBytes 8)) (pieces 16 s.input)
  r.2.finishMode (.ok r.1)

/-- CTR.ENC (R215). -/
def execCtrEnc (par : Bool) (s : State) : Host.Outcome State Fault Refusal :=
  modeCommand ctrNeeds par (State.runCtr par) s

/-- CTR.DEC, "exactly the effect of CTR.ENC" (R216). -/
def execCtrDec (par : Bool) (s : State) : Host.Outcome State Fault Refusal :=
  modeCommand ctrNeeds par (State.runCtr par) s

/-! ## RandomDelta (R221, R222) -/

def rdEncNeeds : ModeNeeds :=
  { independent := false, usesSeg := false, ivLength := none, lengthUnit := none }

def rdDecNeeds : ModeNeeds :=
  { independent := false, usesSeg := false, ivLength := none, lengthUnit := some 32 }

/-- RD.ENC (R221): the pad filler is drawn first, then 16 mask bytes for each block in order. -/
def execRdEnc (par : Bool) (p : Scheme) (s : State) : Host.Outcome State Fault Refusal :=
  modeCommand rdEncNeeds par (fun s =>
    let blocks := pieces 16 (s.paddedInput p)
    let s1 := s.skipFiller p
    let masks := pieces 16 (s1.drawn (16 * blocks.length))
    let s2 := s1.skipDraws (16 * blocks.length)
    let r := s2.runSequential (rdEncStep s2.encBlock) ModeState.cleared (rdUnits masks blocks)
    r.2.finishMode (.ok r.1)) s

/-- RD.DEC (R222). -/
def execRdDec (par : Bool) (p : Scheme) (s : State) : Host.Outcome State Fault Refusal :=
  modeCommand rdDecNeeds par (fun s =>
    s.runThenUnpad p 32 (rdDecStep s.decBlock) ModeState.cleared) s

end Sys2Proof.Machine
end

