-- ==== Sys2Proof/Machine/Sys.lean ====
section
/-! DEFINITION. The SYS command (spec/45_system.md R245), the reserved mode number 7
(spec/30_encoding.md R92) and a word that names no command (R93). -/

namespace Sys2Proof.Machine

/-- SYS.RESET (R245): every piece of the block's state takes its reset value. -/
def execSysReset (s : State) : Host.Outcome State Fault Refusal := .next s.resetBlock

/-- Mode number 7, encrypt (R92): ConfigError and nothing else; not a data command (R256). -/
def execMode7Enc (s : State) : Host.Outcome State Fault Refusal := .next (s.raise false .config)

/-- Mode number 7, decrypt (R92). -/
def execMode7Dec (s : State) : Host.Outcome State Fault Refusal := .next (s.raise false .config)

/-- A word that matches no row of the opcode table (R93, R259 (a)): IllegalCommandError and nothing
else. -/
def illegalWord (s : State) : Host.Outcome State Fault Refusal :=
  .next (s.raise false .illegalCommand)

end Sys2Proof.Machine
end

