-- ==== Sys2Proof/Machine/Dispatch.lean ====
section
/-! DEFINITION. Which meaning each command has: one arm per constructor of `Instr`. -/

namespace Sys2Proof.Machine

/-- The effect of a decoded command, executed to its end (spec/20_memory.md R70, spec/10_state.md
R22). -/
def exec (i : Instr) (s : State) : Host.Outcome State Fault Refusal :=
  match i with
  | .sysReset => Sys2Proof.Machine.execSysReset s
  | .feInit => Sys2Proof.Machine.execFeInit s
  | .feAdd a b => Sys2Proof.Machine.execFeAdd a b s
  | .feSub a b => Sys2Proof.Machine.execFeSub a b s
  | .feMul a b => Sys2Proof.Machine.execFeMul a b s
  | .feDiv a b => Sys2Proof.Machine.execFeDiv a b s
  | .fePow a n => Sys2Proof.Machine.execFePow a n s
  | .feInv a => Sys2Proof.Machine.execFeInv a s
  | .keySetup => Sys2Proof.Machine.execKeySetup s
  | .blkEnc => Sys2Proof.Machine.execBlkEnc s
  | .blkDec => Sys2Proof.Machine.execBlkDec s
  | .padZero => Sys2Proof.Machine.execPadZero s
  | .padAnsi => Sys2Proof.Machine.execPadAnsi s
  | .padPkcs7 => Sys2Proof.Machine.execPadPkcs7 s
  | .padIso => Sys2Proof.Machine.execPadIso s
  | .unpadZero => Sys2Proof.Machine.execUnpadZero s
  | .unpadAnsi => Sys2Proof.Machine.execUnpadAnsi s
  | .unpadPkcs7 => Sys2Proof.Machine.execUnpadPkcs7 s
  | .unpadIso => Sys2Proof.Machine.execUnpadIso s
  | .ecbEnc par p => Sys2Proof.Machine.execEcbEnc par p s
  | .cbcEnc par p => Sys2Proof.Machine.execCbcEnc par p s
  | .pcbcEnc par p => Sys2Proof.Machine.execPcbcEnc par p s
  | .cfbEnc par => Sys2Proof.Machine.execCfbEnc par s
  | .ofbEnc par => Sys2Proof.Machine.execOfbEnc par s
  | .ctrEnc par => Sys2Proof.Machine.execCtrEnc par s
  | .rdEnc par p => Sys2Proof.Machine.execRdEnc par p s
  | .ecbDec par p => Sys2Proof.Machine.execEcbDec par p s
  | .cbcDec par p => Sys2Proof.Machine.execCbcDec par p s
  | .pcbcDec par p => Sys2Proof.Machine.execPcbcDec par p s
  | .cfbDec par => Sys2Proof.Machine.execCfbDec par s
  | .ofbDec par => Sys2Proof.Machine.execOfbDec par s
  | .ctrDec par => Sys2Proof.Machine.execCtrDec par s
  | .rdDec par p => Sys2Proof.Machine.execRdDec par p s
  | .mode7Enc _ => Sys2Proof.Machine.execMode7Enc s
  | .mode7Dec _ => Sys2Proof.Machine.execMode7Dec s

end Sys2Proof.Machine
end

