-- ==== Sys2Proof/Machine/Step.lean ====
section
/-! DEFINITION. One step of the machine: the next event, or, when none is pending, the sequencer
(spec/00_scope.md R8, spec/10_state.md R22, R23, spec/70_reset_and_hazards.md R280, R284). -/

namespace Sys2Proof.Machine

/-- The sequencer executes the command word `w` to its end (R22, R93). -/
def runWord (w : Word) (s : State) : Host.Outcome State Fault Refusal :=
  match decode w with
  | .ok i => exec i s
  | .error _ => illegalWord s

/-- The sequencer's turn: it executes the command that was issued, or is idle (R22, R23). -/
def sequencerStep (s : State) : Host.Outcome State Fault Refusal :=
  match s.cmd with
  | some w => runWord w s
  | none => .next s

/-- The state with `es` as the events still to come. -/
def State.withPending (es : List Event) (s : State) : State :=
  { s with ext := { s.ext with pending := es } }

/-- One step. With no event pending a command that was issued runs on, and an idle block waits
(R22, R281). -/
def step (s : State) : Host.Outcome State Fault Refusal :=
  match s.ext.pending with
  | [] => sequencerStep s
  | .sequencer :: es => sequencerStep (s.withPending es)
  | .access a :: es => busAccess a (s.withPending es)
  | .hwReset :: es => .next (s.withPending es).resetBlock

/-- The state with a command word just issued, so that the sequencer executes it in the very next
step: the host's write of CMD has happened (R23), BUSY is 1, and no other event comes first. -/
def State.withFetchWord (s : State) (_nbits w : Nat) : State :=
  { s with
    cmd := some (BitVec.ofNat 32 w)
    ext := { s.ext with
      pending := match s.ext.pending with
        | [] => []
        | e :: es => .sequencer :: e :: es } }

end Sys2Proof.Machine
end

