-- ==== Sys2Proof/Safety.lean ====
section
/-! DEFINITION. What the claims are stated with: the legal states, in the terms of the spec's own
invariants (spec/10_state.md R27, R35, R36 to R45, spec/20_memory.md R69), how a data command ends (spec/60_exceptions.md R256, R257), the order of the checks, and the results of
the commands written block by block as the spec writes them. -/

namespace Sys2Proof.Machine

/-! ## Legal parameters (spec/40_field_engine.md R114, R115) -/

/-- `g` to the power `n` modulo `p`, by multiply-reduce. -/
def polyPow (g : Byte) (p : BitVec 9) : Nat → Byte
  | 0 => 1
  | n + 1 => pmulred (polyPow g p n) g p

/-- The multiplicative order of `g` modulo `p` is 255. -/
def hasOrder255 (g : Byte) (p : BitVec 9) : Prop :=
  polyPow g p 255 = 1 ∧ ∀ n, 0 < n → n < 255 → polyPow g p n ≠ 1

/-- What R114 and R115 ask of POLY_ALLOW and GEN: members of degree 8 for which GEN gives an element of
order 255, and 0x11B a member. No polynomial that is reducible has an element of order 255. -/
def Params.Legal (P : Params) : Prop :=
  (∀ e ∈ P.polys, 256 ≤ e.1 ∧ e.1 < 512 ∧ hasOrder255 e.2 (BitVec.ofNat 9 e.1)) ∧
    (P.genOf 0x11B).isSome = true

/-! ## Legal states -/

/-- The host-writable windows: canonical form, and nothing listed outside KEY, IV and IN (R44). -/
def State.MemOk (s : State) : Prop :=
  Memory.wf s.mem ∧
    ∀ c ∈ s.mem, placeAt s.conf c.1 = .key ∨ placeAt s.conf c.1 = .iv ∨ placeAt s.conf c.1 = .inWin

/-- OUT: canonical form, nothing listed outside the bytes a command determined, and
`0 ≤ OUTLEN ≤ OUTCAP` (R35, R69). -/
def State.OutOk (s : State) : Prop :=
  Memory.wf s.out.cells ∧
    (∀ c ∈ s.out.cells, outBase ≤ c.1 ∧ c.1 < outBase + s.out.start) ∧
    s.regs.outlen.toNat ≤ s.out.start ∧ s.out.start ≤ s.conf.outcap

/-- RES: "bits 31:8 always read 0" (R27). -/
def State.ResOk (s : State) : Prop := s.regs.res.toNat < 256

/-- Between commands no mode state and no dispatcher state is left (R45, R47). -/
def State.ModeOk (s : State) : Prop := s.mode = ModeState.cleared ∧ s.disp = none

/-- EXP holds the powers of `g` modulo `p`, twice over (R38). -/
def Tables.ExpOk (T : Tables) (g : Byte) (p : BitVec 9) : Prop :=
  expAt T 0 = 1 ∧
    (∀ i < 254, expAt T (i + 1) = pmulred (expAt T i) g p) ∧
    ∀ i < 257, expAt T (i + 255) = expAt T i

/-- LOG inverts EXP: "LOG[EXP[i]] = i for 0 ≤ i ≤ 254"; LOG[0] is 0 (R37, R38). -/
def Tables.LogOk (T : Tables) : Prop :=
  (∀ i < 255, logAt T (expAt T i) = i) ∧ logAt T 0 = 0

/-- "Whenever STATUS.FE_READY = 1: POLYA ∈ POLY_ALLOW" and the tables are those of POLYA (R38). -/
def State.FieldOk (s : State) : Prop :=
  s.status.feReady = true →
    match s.conf.genOf s.regs.polya with
    | none => False
    | some g => s.tab.ExpOk g (s.regs.polya.setWidth 9) ∧ s.tab.LogOk

/-- "Whenever STATUS.KEY_READY = 1: FE_READY = 1; N ∈ {2, 3, 4}", and S and K are what key setup
computes from N, ME and MO with the tables in place; N is 0 before any key setup (R39 to R43). -/
def State.KeyOk (s : State) : Prop :=
  (s.key.n = 0 ∨ s.key.n = 2 ∨ s.key.n = 3 ∨ s.key.n = 4) ∧
    (s.status.keyReady = true →
      s.status.feReady = true ∧ s.key.n ≠ 0 ∧
        s.key.sbox = vecOf 8 0 (s.conf.cipher.skey s.key.n (s.key.me.toList.take s.key.n)
          (s.key.mo.toList.take s.key.n)) ∧
        s.key.k = vecOf 40 0 (keySchedule s.conf.cipher s.tab (s.key.me.toList.take s.key.n)
          (s.key.mo.toList.take s.key.n)))

/-- A legal state: legal parameters and every invariant of spec/10_state.md. -/
def State.Inv (s : State) : Prop :=
  s.conf.Legal ∧ s.MemOk ∧ s.OutOk ∧ s.ResOk ∧ s.ModeOk ∧ s.FieldOk ∧ s.KeyOk

/-! ## Faults and results -/

/-- The bytes OUT[0..OUTLEN) that a host reads after a data command (R69). -/
def State.output (s : State) : List Byte :=
  (List.range s.regs.outlen.toNat).map fun i => s.readByte (outBase + i)

/-- A data command that started in `s` completed in `t` without fault, with the result `r` in
OUT[0..OUTLEN), having drawn `draws` random bytes; nothing but OUT, OUTLEN and STATUS changed
(R69, R182, R191, R257). -/
structure DataDone (s t : State) (draws : Nat) (r : List Byte) : Prop where
  output : t.output = r
  regs : t.regs = { s.regs with outlen := BitVec.ofNat 32 r.length }
  status : t.status = { s.status with err := .none }
  idle : t.cmd = none
  mem : t.mem = s.mem
  tab : t.tab = s.tab
  key : t.key = s.key
  conf : t.conf = s.conf
  drawn : t.ext.rngCursor = s.ext.rngCursor + draws

/-- A data command that started in `s` faulted with `e` in `t`: no result, OUTLEN 0, ERR and FLT
record it, the ready flags and everything the command reads are as before (R256). -/
structure DataFault (s t : State) (e : ErrCode) : Prop where
  regs : t.regs = { s.regs with outlen := 0 }
  status : t.status = { s.status with err := e, flt := true }
  idle : t.cmd = none
  mem : t.mem = s.mem
  tab : t.tab = s.tab
  key : t.key = s.key
  conf : t.conf = s.conf
  drawn : t.ext.rngCursor = s.ext.rngCursor

/-- The state in which a command that is not a data command ends, RES, OUT and everything else as in
`s`, with `e` in ERR: fault or, for `e = none`, completion (R256, R257). -/
def State.endsWith (s : State) (e : ErrCode) : State :=
  { s with
    cmd := none
    status := { s.status with err := e, flt := s.status.flt || decide (e ≠ .none) } }

/-- The state after a field operation that delivered `v`: RES is `v` with zeros above, ERR is 0, BUSY
is 0, and nothing else changed (R125). -/
def State.fieldResult (s : State) (v : Byte) : State :=
  { s with
    cmd := none
    regs := { s.regs with res := v.setWidth 32 }
    status := { s.status with err := .none } }

/-- Every piece of the block's state at its value of the table of R50. -/
def State.atReset (t : State) : Prop :=
  t.statusWord = 0 ∧ t.cmd = none ∧ t.regs.res = 0 ∧ t.regs.poly = 0x11B ∧ t.regs.polya = 0 ∧
    t.regs.threads = 4 ∧ t.regs.seg = 16 ∧ t.regs.keylen = 0 ∧ t.regs.ivlen = 0 ∧
    t.regs.inlen = 0 ∧ t.regs.outlen = 0 ∧
    (∀ a, t.readByte a = 0) ∧
    (∀ i : Fin 512, t.tab.exp[i] = 0) ∧ (∀ i : Fin 256, t.tab.log[i] = 0) ∧
    t.key.n = 0 ∧ (∀ i : Fin 4, t.key.me[i] = 0) ∧ (∀ i : Fin 4, t.key.mo[i] = 0) ∧
    (∀ i : Fin 8, t.key.sbox[i] = 0) ∧ (∀ i : Fin 40, t.key.k[i] = 0) ∧
    t.mode.fb = List.replicate 16 0 ∧ t.mode.nonce = List.replicate 8 0 ∧ t.mode.ctrv = 0 ∧
    t.mode.blk = 0 ∧ t.disp = none

/-! ## Which accesses are legal (R60, R66, section 4 of spec/10_state.md) -/

/-- The shapes R60 allows and R66 does not refuse, while BUSY is 0. -/
def Access.legalIdle (P : Params) (a : Access) : Prop :=
  match a with
  | .readWord off =>
    off ∈ [0x004, 0x008, 0x00C, 0x010, 0x014, 0x018, 0x01C, 0x020, 0x024, 0x028]
  | .writeWord off _ => off ∈ [0x000, 0x00C, 0x014, 0x018, 0x01C, 0x020, 0x024]
  | .readByte off =>
    (0x60 ≤ off ∧ off ≤ 0x6F) ∨ (0x10000 ≤ off ∧ off < 0x10000 + P.bufcap.val) ∨
      (0x20000 ≤ off ∧ off < 0x20000 + P.outcap)
  | .writeByte off _ =>
    (0x40 ≤ off ∧ off ≤ 0x5F) ∨ (0x60 ≤ off ∧ off ≤ 0x6F) ∨
      (0x10000 ≤ off ∧ off < 0x10000 + P.bufcap.val)
  | .readOther _ _ | .writeOther _ _ => False

/-- The accesses the spec gives a meaning: while BUSY is 1 only the read of STATUS (R66, R284). -/
def Access.legal (a : Access) (s : State) : Prop :=
  if s.busy then a = .readWord 0x004 else a.legalIdle s.conf

/-! ## The checks of a MODE command (R191, steps 2 to 8) -/

/-- The mode number (R91), whether the command decrypts, and `par`, of a MODE command. -/
def modeOf (i : Instr) : Option (Nat × Bool × Bool) :=
  match i with
  | .ecbEnc par _ => some (0, false, par)
  | .cbcEnc par _ => some (1, false, par)
  | .pcbcEnc par _ => some (2, false, par)
  | .cfbEnc par => some (3, false, par)
  | .ofbEnc par => some (4, false, par)
  | .ctrEnc par => some (5, false, par)
  | .rdEnc par _ => some (6, false, par)
  | .ecbDec par _ => some (0, true, par)
  | .cbcDec par _ => some (1, true, par)
  | .pcbcDec par _ => some (2, true, par)
  | .cfbDec par => some (3, true, par)
  | .ofbDec par => some (4, true, par)
  | .ctrDec par => some (5, true, par)
  | .rdDec par _ => some (6, true, par)
  | .sysReset | .feInit | .feAdd _ _ | .feSub _ _ | .feMul _ _ | .feDiv _ _ | .fePow _ _
  | .feInv _ | .keySetup | .blkEnc | .blkDec | .padZero | .padAnsi | .padPkcs7 | .padIso
  | .unpadZero | .unpadAnsi | .unpadPkcs7 | .unpadIso | .mode7Enc _ | .mode7Dec _ => none

/-- The fault of the first check that fails, as the list of R191 orders them; `none` when the
command goes on to process its data. -/
def modeFault (mode : Nat) (decrypt par : Bool) (s : State) : Option ErrCode :=
  if s.conf.bufcap.val < s.regs.inlen.toNat then some .illegalCommand
  else if s.status.keyReady = false then some .notReady
  else if par = true ∧ mode ≠ 0 ∧ mode ≠ 5 then some .config
  else if par = true ∧ ¬(1 ≤ s.regs.threads.toNat ∧ s.regs.threads.toNat ≤ s.conf.maxWorkers.val) then some .config
  else if mode = 3 ∧ ¬(1 ≤ s.regs.seg.toNat ∧ s.regs.seg.toNat ≤ 16) then some .config
  else if (mode = 1 ∨ mode = 2 ∨ mode = 3 ∨ mode = 4) ∧ s.regs.ivlen.toNat ≠ 16 then some .ivLength
  else if mode = 5 ∧ s.regs.ivlen.toNat ≠ 8 then some .ivLength
  else if decrypt = true ∧ (mode = 0 ∨ mode = 1 ∨ mode = 2) ∧ s.regs.inlen.toNat % 16 ≠ 0 then
    some .length
  else if decrypt = true ∧ mode = 6 ∧ s.regs.inlen.toNat % 32 ≠ 0 then some .length
  else none

/-- BLK, PAD and MODE commands: the data commands of R256. -/
def isDataCommand (i : Instr) : Bool :=
  match i with
  | .blkEnc | .blkDec => true
  | .padZero | .padAnsi | .padPkcs7 | .padIso => true
  | .unpadZero | .unpadAnsi | .unpadPkcs7 | .unpadIso => true
  | .ecbEnc _ _ | .cbcEnc _ _ | .pcbcEnc _ _ | .cfbEnc _ | .ofbEnc _ | .ctrEnc _ | .rdEnc _ _ => true
  | .ecbDec _ _ | .cbcDec _ _ | .pcbcDec _ _ | .cfbDec _ | .ofbDec _ | .ctrDec _ | .rdDec _ _ => true
  | .sysReset | .feInit | .feAdd _ _ | .feSub _ _ | .feMul _ _ | .feDiv _ _ | .fePow _ _
  | .feInv _ | .keySetup | .mode7Enc _ | .mode7Dec _ => false

/-- The six commands that write RES (R27). -/
def isFieldOp (i : Instr) : Bool :=
  match i with
  | .feAdd _ _ | .feSub _ _ | .feMul _ _ | .feDiv _ _ | .fePow _ _ | .feInv _ => true
  | .sysReset | .feInit | .keySetup | .blkEnc | .blkDec => false
  | .padZero | .padAnsi | .padPkcs7 | .padIso => false
  | .unpadZero | .unpadAnsi | .unpadPkcs7 | .unpadIso => false
  | .ecbEnc _ _ | .cbcEnc _ _ | .pcbcEnc _ _ | .cfbEnc _ | .ofbEnc _ | .ctrEnc _ | .rdEnc _ _ => false
  | .ecbDec _ _ | .cbcDec _ _ | .pcbcDec _ _ | .cfbDec _ | .ofbDec _ | .ctrDec _ | .rdDec _ _ => false
  | .mode7Enc _ | .mode7Dec _ => false

/-! ## Fields and polynomials (R110, R114) -/

/-- The product of two polynomials over GF(2), not reduced. -/
def polyMul (a b : Byte) : BitVec 16 :=
  (List.range 8).foldl
    (fun r i => if b.getLsbD i then r ^^^ (a.setWidth 16 <<< i) else r) 0

/-- A polynomial of degree 8 that is no product of two polynomials of lower degree. -/
def irreducible (p : BitVec 9) : Prop :=
  p.getLsbD 8 = true ∧ ∀ a b : Byte, polyMul a b ≠ p.setWidth 16

/-! ## Results of the MODE commands, block by block (spec/43_modes.md) -/

/-- `d{i} = d[16i .. 16i+16)` (R190); the last block of an unpadded mode may be shorter (R68). -/
def blockAt (d : List Byte) (i : Nat) : List Byte := (d.drop (16 * i)).take 16

/-- The strings number 0 to `n - 1`, one after the other. -/
def assemble (n : Nat) (f : Nat → List Byte) : List Byte := (List.range n).flatMap f

/-- The padded input `pd` of an encrypt command: the filler of scheme 3 is the next bytes the random
source delivers (R172, R193). -/
def State.pd (p : Scheme) (s : State) : List Byte :=
  padBytes p ((List.range (fillerCount p s.regs.inlen.toNat)).map fun i =>
    Config.rng (s.ext.rngCursor + i)) s.input

/-- CBC encrypt: FB before block `i`; OUT{i} is `cbcReg (i + 1)` (R198). -/
def cbcReg (E : List Byte → List Byte) (iv pd : List Byte) : Nat → List Byte
  | 0 => iv
  | i + 1 => E (xorBytes (blockAt pd i) (cbcReg E iv pd i))

/-- CBC decrypt: T{i} (R199). -/
def cbcPlain (D : List Byte → List Byte) (iv c : List Byte) (i : Nat) : List Byte :=
  xorBytes (D (blockAt c i)) (if i = 0 then iv else blockAt c (i - 1))

/-- PCBC encrypt: the pair of FB before block `i` and the ciphertext of block `i` (R201). -/
def pcbcChain (E : List Byte → List Byte) (iv pd : List Byte) : Nat → List Byte × List Byte
  | 0 => (iv, E (xorBytes (blockAt pd 0) iv))
  | i + 1 =>
    let fb := xorBytes (blockAt pd i) (pcbcChain E iv pd i).2
    (fb, E (xorBytes (blockAt pd (i + 1)) fb))

/-- PCBC decrypt: T{i} (R202). -/
def pcbcPlain (D : List Byte → List Byte) (iv c : List Byte) : Nat → List Byte
  | 0 => xorBytes (D (blockAt c 0)) iv
  | i + 1 => xorBytes (D (blockAt c (i + 1))) (xorBytes (pcbcPlain D iv c i) (blockAt c i))

/-- Segment `i` of `n` bytes; the last may be shorter (R203). -/
def segAt (n : Nat) (d : List Byte) (i : Nat) : List Byte := (d.drop (n * i)).take n

/-- CFB encrypt: the register before segment `i`: "the oldest s bytes leave at index 0 and the
ciphertext segment enters at the high indices" (R203, R205). -/
def cfbEncReg (E : List Byte → List Byte) (n : Nat) (iv d : List Byte) : Nat → List Byte
  | 0 => iv
  | i + 1 =>
    let reg := cfbEncReg E n iv d i
    reg.drop n ++ xorBytes (segAt n d i) ((E reg).take (segAt n d i).length)

/-- CFB decrypt: the register before segment `i`, which takes the input segments (R206). -/
def cfbDecReg (n : Nat) (iv d : List Byte) : Nat → List Byte
  | 0 => iv
  | i + 1 => (cfbDecReg n iv d i).drop n ++ segAt n d i

/-- Output segment `i` of CFB for the register `reg` before it (R203). -/
def cfbOut (E : List Byte → List Byte) (n : Nat) (d : List Byte) (reg : Nat → List Byte) (i : Nat) :
    List Byte :=
  xorBytes (segAt n d i) ((E (reg i)).take (segAt n d i).length)

/-- OFB: `FB(0) = IV, FB(i+1) = E(FB(i))` (R208). -/
def ofbReg (E : List Byte → List Byte) (iv : List Byte) : Nat → List Byte
  | 0 => iv
  | i + 1 => E (ofbReg E iv i)

/-- Output block `i` of OFB: the data XORed with FB(i+1), cut to its length (R194, R210). -/
def ofbOut (E : List Byte → List Byte) (iv d : List Byte) (i : Nat) : List Byte :=
  xorBytes (blockAt d i) ((ofbReg E iv (i + 1)).take (blockAt d i).length)

/-- Output block `i` of CTR: the data XORed with `E(NONCE ‖ BE64(i))`, cut to its length (R215). -/
def ctrOut (E : List Byte → List Byte) (nonce d : List Byte) (i : Nat) : List Byte :=
  xorBytes (blockAt d i) ((E (nonce ++ be64 (BitVec.ofNat 64 i))).take (blockAt d i).length)

/-- The mask of block `i` of RD.ENC: the 16 bytes the random source delivers after the filler and the
masks of the blocks before (R221). -/
def State.maskAt (p : Scheme) (s : State) (i : Nat) : List Byte :=
  (List.range 16).map fun j =>
    Config.rng (s.ext.rngCursor + fillerCount p s.regs.inlen.toNat + 16 * i + j)

/-- Output unit `i` of RD.ENC: `MASK ‖ E(pd{i} xor MASK)` (R221, R224). -/
def rdOut (E : List Byte → List Byte) (mask : Nat → List Byte) (pd : List Byte) (i : Nat) :
    List Byte :=
  mask i ++ E (xorBytes (blockAt pd i) (mask i))

/-- RD.DEC: T{i} (R222). -/
def rdPlain (D : List Byte → List Byte) (c : List Byte) (i : Nat) : List Byte :=
  xorBytes (D (blockAt c (2 * i + 1))) (blockAt c (2 * i))

/-- T of a padded decrypt command: the deciphered input before unpad, for the mode numbers 0, 1, 2 and 6
(R197, R199, R202, R222). -/
def State.deciphered (mode : Nat) (s : State) : List Byte :=
  let n := s.regs.inlen.toNat
  if mode = 0 then assemble (n / 16) fun i => s.decBlock (blockAt s.input i)
  else if mode = 1 then assemble (n / 16) (cbcPlain s.decBlock (s.ivBytes 16) s.input)
  else if mode = 2 then assemble (n / 16) (pcbcPlain s.decBlock (s.ivBytes 16) s.input)
  else assemble (n / 32) (rdPlain s.decBlock s.input)

/-! ## The host copies a result back (R227) -/

/-- The memory with the bytes `bs` written from `a` on, one after the other. -/
def Memory.writeBytes (m : Memory) (a : Nat) : List Byte → Memory
  | [] => m
  | b :: bs => Memory.writeBytes (Memory.write m a b) (a + 1) bs

/-- "Copying OUT[0..OUTLEN) into IN, setting INLEN to OUTLEN" (R227). -/
def State.copyBack (s : State) : State :=
  { s with
    mem := Memory.writeBytes s.mem inBase s.output
    regs := { s.regs with inlen := s.regs.outlen } }

/-! ## The test instantiation TI-A (section 3 of spec/93_implementation_defined.md) -/

/-- Identities for Q0, Q1 and MDS; SKEY and G1_ROT at their defaults. Not the machine's parameters:
`Params.cipher` leaves Q0, Q1 and MDS free. -/
def paramsTIA : CipherParams :=
  { q0 := id, q1 := id, mds := fun r c => if r = c then 1 else 0, skey := interleave, g1Rot := 8 }

end Sys2Proof.Machine
end

