-- ==== Sys2Proof/Certificates/Slice0/Obligations.lean ====
section
/-! DEFINITION. The statements for the provers. Each docstring names the rule of spec/ a statement
formalises; `DataDone`, `DataFault`, `Inv` and the block-by-block results are in Sys2Proof/Safety.lean. -/

section

open Sys2Proof Sys2Proof.Machine

/-! ## Encoding (spec/30_encoding.md) -/

/-- Decoding the word of a well-formed command gives it back, every operand at every value (R81, R86,
R89). -/
def Obligations.DecodeEncode : Prop :=
  ∀ i : Instr, i.wellFormed = true → decode (encode i) = .ok i

/-- A word that decodes is the word of the command it decodes to, so no two words name the same
command with the same operands and no bit of a word is lost. -/
def Obligations.EncodeDecode : Prop :=
  ∀ (w : Word) (i : Instr), decode w = .ok i → encode i = w ∧ i.wellFormed = true

/-- "A command word `cmd` names the command of a row of rule R89 exactly when
`(cmd AND mask) = match`" (R81). -/
def Obligations.RowsDecideDecoding : Prop :=
  (∀ (w : Word) (i : Instr), decode w = .ok i → w &&& rowMask i = rowMatch i) ∧
    ∀ (w : Word) (i : Instr), w &&& rowMask i = rowMatch i →
      ∃ j, decode w = .ok j ∧ rowMatch j = rowMatch i ∧ rowMask j = rowMask i

/-- The words of R97. -/
def Obligations.SampleWords : Prop :=
  decode 0x13008357 = .ok (.feMul 0x57 0x83) ∧
    decode 0x140083C1 = .ok (.feDiv 0xC1 0x83) ∧
    decode 0x1500FF02 = .ok (.fePow 0x02 255) ∧
    decode 0x16000053 = .ok (.feInv 0x53) ∧
    decode 0x41000002 = .ok (.cbcEnc false .pkcs7) ∧
    decode 0x40000102 = .ok (.ecbEnc true .pkcs7) ∧
    decode 0x4D000100 = .ok (.ctrDec true) ∧
    decode 0x3A000000 = .ok .unpadPkcs7 ∧
    encode (.feMul 0x57 0x83) = 0x13000000 ||| 0x83 <<< 8 ||| 0x57 ∧
    encode (.fePow 0x02 255) = 0x15000000 ||| 255 <<< 8 ||| 0x02

/-- IllegalCommandError (R93, R259). (a) A word that matches no row faults with it and does nothing
else; the four examples of R93 are such words; every word matches at most one row, so it names one
command, or is mode 7, or is illegal. (b) So does every BLK, PAD and MODE command with INLEN > BUFCAP,
before anything else is checked; OUTLEN is then 0. -/
def Obligations.IllegalCommands : Prop :=
  (∀ (w : Word) (s : State), (∀ i : Instr, w &&& rowMask i ≠ rowMatch i) →
      runWord w s = .next (s.endsWith .illegalCommand)) ∧
    (∀ w ∈ [0x00000000, 0x13010000, 0x43000002, (0x30000100 : Word)], ∀ i : Instr,
      w &&& rowMask i ≠ rowMatch i) ∧
    (∀ (w : Word) (i j : Instr), w &&& rowMask i = rowMatch i → w &&& rowMask j = rowMatch j →
      rowMatch i = rowMatch j) ∧
    ∀ (i : Instr) (s : State), isDataCommand i = true →
      s.conf.bufcap.val < s.regs.inlen.toNat →
      ∃ t, exec i s = .next t ∧ DataFault s t .illegalCommand

/-- Mode number 7: "whatever its other bits", ConfigError and nothing else (R92). -/
def Obligations.ModeSevenFaults : Prop :=
  (∀ (w : Word) (s : State), w.extractLsb' 28 4 = 4 → w.extractLsb' 24 3 = 7 →
      runWord w s = .next (s.endsWith .config)) ∧
    ∀ (low : BitVec 24) (s : State),
      exec (.mode7Enc low) s = .next (s.endsWith .config) ∧
        exec (.mode7Dec low) s = .next (s.endsWith .config)

/-! ## Steps and host accesses (spec/10_state.md, spec/20_memory.md) -/

/-- What one step is. The sequencer's turn, which comes when no event is pending or when it is the next
event, runs the word that is held, with nothing around it but the event consumed: `exec` of what the
word decodes to, IllegalCommandError when it names no command, and no change at all when no word is
held (R22, R23, R93, R275). A host access that is the next event is that access, its address counted
from CORE_BASE (R44). The model's choice (DESIGN CHOICE) and no rule of the spec are the list of events
(log entry 1) and the fault `belowBase` of an access below CORE_BASE (log entries 18 and 19). -/
def Obligations.StepRunsDecoded : Prop :=
  (∀ (w : Word) (s : State), s.cmd = some w →
    (s.ext.pending = [] → step s = runWord w s) ∧
      ∀ es, s.ext.pending = .sequencer :: es → step s = runWord w (s.withPending es)) ∧
  (∀ (w : Word) (s : State),
    (∀ i, decode w = .ok i → runWord w s = exec i s) ∧
      ∀ e, decode w = .error e → runWord w s = .next (s.endsWith .illegalCommand)) ∧
  (∀ s : State, s.cmd = none →
    (s.ext.pending = [] → step s = .next s) ∧
      ∀ es, s.ext.pending = .sequencer :: es → step s = .next (s.withPending es)) ∧
  ∀ (a : Access) (s : State) (es : List Event),
    (s.ext.pending = .access (a.mapOffset (s.conf.coreBase + ·)) :: es →
      step s = hostAccess a (s.withPending es)) ∧
      (s.ext.pending = .access a :: es → accessOffset a < s.conf.coreBase →
        step s = .fault (.belowBase (accessOffset a)))

/-- "A host write of the 32-bit value `cmd` while STATUS.BUSY = 0 issues the command": the word is
held, BUSY is 1, nothing else changes, and the sequencer's turn then runs that word; a host read of
CMD is refused; the word is gone when the command has ended (R23). -/
def Obligations.CmdWriteIssues : Prop :=
  ∀ (w : Word) (s : State), s.busy = false →
    hostAccess (.writeWord 0x000 w) s = .next { s with cmd := some w } ∧
      sequencerStep { s with cmd := some w } = runWord w { s with cmd := some w } ∧
      (∃ t, runWord w { s with cmd := some w } = .next t ∧ t.cmd = none) ∧
      hostAccess (.readWord 0x000) s = .refused (.readOfWriteOnly 0x000)

/-- Exactly the accesses R60 allows and R66 does not refuse have a step; while BUSY is 1 only the read
of STATUS does (R66). -/
def Obligations.LegalAccesses : Prop :=
  ∀ (a : Access) (s : State), (∃ t, hostAccess a s = .next t) ↔ a.legal s

/-- The fields of STATUS stand where R24 puts them, the error codes are the numbers of R250, and a host
reads that number at offset 0x004, while BUSY is 1 too (R24, R250). -/
def Obligations.StatusLayout : Prop :=
  ∀ s : State,
    s.statusWord.getLsbD 0 = s.busy ∧
      s.statusWord.getLsbD 1 = s.status.feReady ∧
      s.statusWord.getLsbD 2 = s.status.keyReady ∧
      s.statusWord.getLsbD 3 = s.status.flt ∧
      (∀ c ∈ [(ErrCode.none, 0), (.config, 1), (.keyLength, 2), (.blockSize, 3), (.ivLength, 4),
          (.length, 5), (.padding, 6), (.divideByZero, 7), (.notReady, 8), (.illegalCommand, 9)],
        s.status.err = c.1 → s.statusWord.extractLsb' 4 4 = BitVec.ofNat 4 c.2) ∧
      s.statusWord.extractLsb' 8 24 = 0 ∧
      hostAccess (.readWord 0x004) s = .next (s.withRead s.statusWord)

/-- "A read has no side effect anywhere in the block", and the same read again returns the same value
(R65). -/
def Obligations.ReadsHaveNoEffect : Prop :=
  ∀ (a : Access) (s t : State), hostAccess a s = .next t →
    (∀ off v, a ≠ .writeWord off v) → (∀ off b, a ≠ .writeByte off b) →
      { t with ext := s.ext } = s ∧ t.ext = { s.ext with rdata := t.ext.rdata } ∧
        hostAccess a t = .next t

/-- "Writes to POLY, THREADS, SEG, KEYLEN, IVLEN, INLEN, KEY, IV and IN only store": a register holds
all 32 bits as written and nothing else changes; a byte reads back and every other byte is as before
(R28, R30 to R34, R65). -/
def Obligations.WritesOnlyStore : Prop :=
  ∀ s : State, s.busy = false →
    (∀ v, hostAccess (.writeWord 0x00C v) s = .next { s with regs := { s.regs with poly := v } } ∧
      hostAccess (.writeWord 0x014 v) s = .next { s with regs := { s.regs with threads := v } } ∧
      hostAccess (.writeWord 0x018 v) s = .next { s with regs := { s.regs with seg := v } } ∧
      hostAccess (.writeWord 0x01C v) s = .next { s with regs := { s.regs with keylen := v } } ∧
      hostAccess (.writeWord 0x020 v) s = .next { s with regs := { s.regs with ivlen := v } } ∧
      hostAccess (.writeWord 0x024 v) s = .next { s with regs := { s.regs with inlen := v } }) ∧
    ∀ (off : Nat) (b : Byte), s.MemOk → (Access.writeByte off b).legalIdle s.conf →
      ∃ t, hostAccess (.writeByte off b) s = .next t ∧ { t with mem := s.mem } = s ∧
        ∀ a, t.readByte a = if a = off then b else s.readByte a

/-- The host reads each readable register at its offset, and each byte of IV, IN and OUT
(section 4 of spec/10_state.md, R44, R60). -/
def Obligations.ReadsReturn : Prop :=
  ∀ s : State, s.busy = false →
    (hostAccess (.readWord 0x008) s = .next (s.withRead s.regs.res) ∧
      hostAccess (.readWord 0x00C) s = .next (s.withRead s.regs.poly) ∧
      hostAccess (.readWord 0x010) s = .next (s.withRead s.regs.polya) ∧
      hostAccess (.readWord 0x014) s = .next (s.withRead s.regs.threads) ∧
      hostAccess (.readWord 0x018) s = .next (s.withRead s.regs.seg) ∧
      hostAccess (.readWord 0x01C) s = .next (s.withRead s.regs.keylen) ∧
      hostAccess (.readWord 0x020) s = .next (s.withRead s.regs.ivlen) ∧
      hostAccess (.readWord 0x024) s = .next (s.withRead s.regs.inlen) ∧
      hostAccess (.readWord 0x028) s = .next (s.withRead s.regs.outlen)) ∧
    ∀ off, (Access.readByte off).legalIdle s.conf →
      hostAccess (.readByte off) s = .next (s.withRead ((s.readByte off).setWidth 32))

/-! ## Reset (spec/10_state.md R50, spec/45_system.md, spec/70_reset_and_hazards.md) -/

/-- "After hardware reset and after a successful SYS.RESET every piece of state has the value below"
(R50), whatever the state before, also while a command executes (R280); `State.reset` is such a
state. -/
def Obligations.ResetValues : Prop :=
  State.reset.atReset ∧
    (∀ (s : State) (es : List Event), s.ext.pending = .hwReset :: es →
      ∃ t, step s = .next t ∧ t.atReset) ∧
    ∀ s : State, ∃ t, exec .sysReset s = .next t ∧ t.atReset

/-- SYS.RESET (R245): in every state, without readiness and without fault, all of the block's state takes
its reset value, FLT and the latched key among it; it is the only command that clears FLT and the only
one that writes POLY, THREADS, SEG, KEYLEN, IVLEN, INLEN or the KEY, IV and IN windows; the word with a
must-be-zero bit set is not SYS.RESET but an illegal command, and resets nothing. -/
def Obligations.SysReset : Prop :=
  decode 0x01000000 = .ok .sysReset ∧
    (∀ s : State, ∃ t, exec .sysReset s = .next t ∧ t.atReset) ∧
    (∀ (i : Instr) (s t : State), i ≠ .sysReset → exec i s = .next t →
      (s.status.flt = true → t.status.flt = true) ∧ t.mem = s.mem ∧ t.regs.poly = s.regs.poly ∧
        t.regs.threads = s.regs.threads ∧ t.regs.seg = s.regs.seg ∧
        t.regs.keylen = s.regs.keylen ∧ t.regs.ivlen = s.regs.ivlen ∧ t.regs.inlen = s.regs.inlen) ∧
    ∀ s : State, runWord 0x01000001 s = .next (s.endsWith .illegalCommand)

/-! ## Field Engine (spec/40_field_engine.md) -/

/-- POLY_ALLOW at its default is exactly the irreducible polynomials of degree 8, and GEN(p) at its
default is the least g ≥ 2 of order 255; and whatever legal values the two have, every member of the allow-list is irreducible of degree 8 (R114, R115; log entries 11
and 12). -/
def Obligations.AllowListAndGenerators : Prop :=
  (∀ p : Word, (Params.default.genOf p).isSome = true ↔
    p.toNat < 512 ∧ irreducible (p.setWidth 9)) ∧
  (∀ (p : Word) (g : Byte), Params.default.genOf p = some g →
    2 ≤ g.toNat ∧ hasOrder255 g (p.setWidth 9) ∧
      ∀ h : Byte, 2 ≤ h.toNat → h.toNat < g.toNat → ¬ hasOrder255 h (p.setWidth 9)) ∧
  ∀ (P : Params) (p : Word) (g : Byte), P.Legal → P.genOf p = some g →
    p.toNat < 512 ∧ irreducible (p.setWidth 9) ∧ hasOrder255 g (p.setWidth 9)

/-- FE.INIT, for all legal POLY_ALLOW and GEN. On a POLY in the allow-list: the tables of POLY, POLYA
and FE_READY set, KEY_READY cleared, and nothing else but ERR and BUSY changed. On any other POLY, such
as one with a bit above bit 8 set or with bit 8 clear: ConfigError, both ready flags and POLYA cleared,
the tables with their old contents (R113). -/
def Obligations.FeInit : Prop :=
  (∀ (s : State) (g : Byte), s.conf.Legal → s.conf.genOf s.regs.poly = some g →
    ∃ t, exec .feInit s = .next t ∧
      t.tab.ExpOk g (s.regs.poly.setWidth 9) ∧ t.tab.LogOk ∧
      (∀ i < 255, expAt t.tab i = polyPow g (s.regs.poly.setWidth 9) i) ∧
      polyPow g (s.regs.poly.setWidth 9) 255 = 1 ∧
      t.regs = { s.regs with polya := s.regs.poly } ∧
      t.status = { s.status with feReady := true, keyReady := false, err := .none } ∧
      t = { s with cmd := none, status := t.status, regs := t.regs, tab := t.tab }) ∧
  (∀ s : State, s.conf.genOf s.regs.poly = none →
    exec .feInit s = .next
      { s with
        cmd := none
        regs := { s.regs with polya := 0 }
        status := { feReady := false, keyReady := false, flt := true, err := .config } }) ∧
  ∀ (P : Params) (p : Word), P.Legal → (p.getLsbD 8 = false ∨ 512 ≤ p.toNat) → P.genOf p = none

/-- FE.ADD and FE.SUB: RES is `a xor b`; NotReadyError without tables (R116, R117). -/
def Obligations.FeAddSub : Prop :=
  ∀ (a b : Byte) (s : State),
    (decode (wordF2 0x11 a b) = .ok (.feAdd a b) ∧ decode (wordF2 0x12 a b) = .ok (.feSub a b)) ∧
      (s.status.feReady = true →
        exec (.feAdd a b) s = .next (s.fieldResult (a ^^^ b)) ∧
          exec (.feSub a b) s = .next (s.fieldResult (a ^^^ b))) ∧
      (s.status.feReady = false →
        exec (.feAdd a b) s = .next (s.endsWith .notReady) ∧
          exec (.feSub a b) s = .next (s.endsWith .notReady))

/-- FE.MUL: RES is 0 if an operand is 0, else `EXP[LOG[a] + LOG[b]]`, the sum not reduced (R118); with
the tables of a successful FE.INIT that is the product of the field of POLYA. -/
def Obligations.FeMul : Prop :=
  ∀ (a b : Byte) (s : State),
    decode (wordF2 0x13 a b) = .ok (.feMul a b) ∧
      (s.status.feReady = true → exec (.feMul a b) s = .next (s.fieldResult
        (if a = 0 ∨ b = 0 then 0 else expAt s.tab (logAt s.tab a + logAt s.tab b)))) ∧
      (s.conf.Legal → s.status.feReady = true → s.FieldOk →
        exec (.feMul a b) s = .next (s.fieldResult (pmulred a b (s.regs.polya.setWidth 9)))) ∧
      (s.status.feReady = false → exec (.feMul a b) s = .next (s.endsWith .notReady))

/-- FE.DIV: DivideByZero when b is 0, tested before a, with RES unchanged; else 0 when a is 0; else
`EXP[(LOG[a] - LOG[b]) mod 255]` with the non-negative residue (R119); with the tables of a successful
FE.INIT the quotient times the divisor, in the field of POLYA, is the dividend. -/
def Obligations.FeDiv : Prop :=
  ∀ (a b : Byte) (s : State),
    decode (wordF2 0x14 a b) = .ok (.feDiv a b) ∧
      (s.status.feReady = false → exec (.feDiv a b) s = .next (s.endsWith .notReady)) ∧
      (s.status.feReady = true →
        (b = 0 → exec (.feDiv a b) s = .next (s.endsWith .divideByZero)) ∧
          (b ≠ 0 → a = 0 → exec (.feDiv a b) s = .next (s.fieldResult 0)) ∧
          (b ≠ 0 → a ≠ 0 → exec (.feDiv a b) s = .next (s.fieldResult
            (expAt s.tab ((logAt s.tab a + 255 - logAt s.tab b) % 255)))) ∧
          (b ≠ 0 → s.conf.Legal → s.FieldOk → ∃ q, exec (.feDiv a b) s = .next (s.fieldResult q) ∧
            pmulred q b (s.regs.polya.setWidth 9) = a))

/-- FE.POW: "0 if a = 0 and n > 0; 1 if n = 0; else EXP[(LOG[a] * n) mod 255]" (R120), and with the
tables of a successful FE.INIT that is the n-fold product in the field of POLYA. -/
def Obligations.FePow : Prop :=
  ∀ (a : Byte) (n : Nat) (s : State),
    (n < 65536 → decode (wordFP 0x15 a n) = .ok (.fePow a n)) ∧
      (s.status.feReady = false → exec (.fePow a n) s = .next (s.endsWith .notReady)) ∧
      (s.status.feReady = true → exec (.fePow a n) s = .next (s.fieldResult
        (if a = 0 ∧ 0 < n then 0 else if n = 0 then 1
          else expAt s.tab ((logAt s.tab a * n) % 255)))) ∧
      (s.conf.Legal → s.status.feReady = true → s.FieldOk →
        exec (.fePow a n) s = .next (s.fieldResult (polyPow a (s.regs.polya.setWidth 9) n)))

/-- FE.INV: DivideByZero when a is 0, with RES unchanged; else `EXP[255 - LOG[a]]` (R121), and with the
tables of a successful FE.INIT that is the inverse in the field of POLYA. -/
def Obligations.FeInv : Prop :=
  ∀ (a : Byte) (s : State),
    decode (wordF1 0x16 a) = .ok (.feInv a) ∧
      (s.status.feReady = false → exec (.feInv a) s = .next (s.endsWith .notReady)) ∧
      (s.status.feReady = true →
        (a = 0 → exec (.feInv a) s = .next (s.endsWith .divideByZero)) ∧
          (a ≠ 0 →
            exec (.feInv a) s = .next (s.fieldResult (expAt s.tab (255 - logAt s.tab a)))) ∧
          (a ≠ 0 → s.conf.Legal → s.FieldOk →
            pmulred a (expAt s.tab (255 - logAt s.tab a)) (s.regs.polya.setWidth 9) = 1))

/-- NotReadyError (R258): the commands that record it are exactly the six field operations and KEY.SETUP
while FE_READY is 0, and BLK.ENC, BLK.DEC and the 14 MODE commands while KEY_READY is 0 (an INLEN above
BUFCAP is reported first); SYS.RESET, FE.INIT and the eight PAD commands never do. -/
def Obligations.NotReadyFaults : Prop :=
  ∀ (i : Instr) (s : State), ∃ t, exec i s = .next t ∧
    (t.status.err = .notReady ↔
      ((isFieldOp i = true ∨ i = .keySetup) ∧ s.status.feReady = false) ∨
        ((i = .blkEnc ∨ i = .blkDec ∨ (modeOf i).isSome = true) ∧ s.status.keyReady = false ∧
          s.regs.inlen.toNat ≤ s.conf.bufcap.val))

/-- "Whenever FE_READY = 1, for all bytes a and b: gf_mul(a, b) = pmulred(a, b, POLYA)" (R123). -/
def Obligations.TablesAgreeWithMultiplyReduce : Prop :=
  ∀ s : State, s.Inv → s.status.feReady = true → ∀ a b : Byte,
    gfMul s.tab a b = pmulred a b (s.regs.polya.setWidth 9)

/-- The field axioms of R126, for the functions of R122 whenever FE_READY = 1. -/
def Obligations.FieldAxioms : Prop :=
  ∀ s : State, s.Inv → s.status.feReady = true →
    (∀ a : Byte, a ≠ 0 → ∃ v, gfInv s.tab a = .ok v ∧ gfMul s.tab a v = 1) ∧
      (∀ a b : Byte, gfMul s.tab a b = gfMul s.tab b a) ∧
      ∀ a b : Byte, b ≠ 0 → gfDiv s.tab (gfMul s.tab a b) b = .ok a

/-- The table laws of R127. -/
def Obligations.TableLaws : Prop :=
  ∀ s : State, s.Inv → s.status.feReady = true →
    (∀ x : Byte, x ≠ 0 → expAt s.tab (logAt s.tab x) = x) ∧
      (∀ i, 255 ≤ i → i < 512 → expAt s.tab i = expAt s.tab (i - 255)) ∧
      (expAt s.tab 0 = 1 ∧ expAt s.tab 255 = 1 ∧ expAt s.tab 510 = 1) ∧
      (some (expAt s.tab 1) = s.conf.genOf s.regs.polya ∧
        some (expAt s.tab 256) = s.conf.genOf s.regs.polya ∧
        some (expAt s.tab 511) = s.conf.genOf s.regs.polya) ∧
      (∀ x : Byte, x ≠ 0 → ∃! i, i < 255 ∧ expAt s.tab i = x) ∧
      logAt s.tab 1 = 0 ∧ logAt s.tab (expAt s.tab 1) = 1 ∧
      (∀ x : Byte, x ≠ 0 → logAt s.tab x < 255) ∧
      (∀ i < 255, ∃! x : Byte, x ≠ 0 ∧ logAt s.tab x = i) ∧
      ∀ i < 512, expAt s.tab i ≠ 0

/-! ## Cipher Core (spec/41_cipher_core.md) -/

/-- KEY.SETUP. With tables in place and a legal KEYLEN: N, ME, MO, S and K are what R141 to R143 and
R148 say, S being SKEY(N, ME, MO) for any SKEY; entries at index ≥ N and
≥ 2N are 0, KEY_READY is 1, and nothing else but ERR and BUSY changed. Without tables, or with another
KEYLEN: the fault, KEY_READY cleared, the key material with its old contents (R141). -/
def Obligations.KeySetup : Prop :=
  (∀ s : State, s.status.feReady = true → s.regs.keylen.toNat ∈ [16, 24, 32] →
    ∃ t n, exec .keySetup s = .next t ∧ s.regs.keylen.toNat = 8 * n ∧ t.key.n = n ∧
      (∀ j : Fin 4, t.key.me[j] = if j.val < n then wordAt s.keyBytes (2 * j.val) else 0) ∧
      (∀ j : Fin 4, t.key.mo[j] = if j.val < n then wordAt s.keyBytes (2 * j.val + 1) else 0) ∧
      (∀ j < 8, t.key.sbox.toList.getD j 0 = if j < 2 * n then
        (s.conf.cipher.skey n (t.key.me.toList.take n) (t.key.mo.toList.take n)).getD j 0 else 0) ∧
      (∀ i < 20,
        let A := hFun s.conf.cipher s.tab (BitVec.ofNat 32 (2 * i) * 0x01010101)
          (t.key.me.toList.take n)
        let B := (hFun s.conf.cipher s.tab (BitVec.ofNat 32 (2 * i + 1) * 0x01010101)
          (t.key.mo.toList.take n)).rotateLeft 8
        t.key.k.toList.getD (2 * i) 0 = A + B ∧
          t.key.k.toList.getD (2 * i + 1) 0 = (A + B + B).rotateLeft 9) ∧
      t = { s with
        cmd := none, key := t.key, status := { s.status with keyReady := true, err := .none } }) ∧
  ∀ s : State,
    (s.status.feReady = false → exec .keySetup s = .next
      (State.endsWith { s with status := { s.status with keyReady := false } } .notReady)) ∧
    (s.status.feReady = true → s.regs.keylen.toNat ∉ [16, 24, 32] → exec .keySetup s = .next
      (State.endsWith { s with status := { s.status with keyReady := false } } .keyLength))

/-- The S-box key material (R144). SKEY is a parameter, a function from N, ME and MO to 2N words; at its
default, which `State.reset` names (log entry 13), the bytes of ME[j] and MO[j] alternate, ME first, low
byte first, in two words per j. -/
def Obligations.SboxKeyMaterial : Prop :=
  State.reset.conf.skey = .interleaved ∧
    (∀ (P : Params) (n : Nat) (me mo : List Word), (P.cipher.skey n me mo).length = 2 * n) ∧
    ∀ (P : Params) (n : Nat) (me mo : List Word), P.skey = .interleaved → ∀ j < n,
      let e := me.getD j 0
      let o := mo.getD j 0
      (P.cipher.skey n me mo).getD (2 * j) 0 =
          le32 (byteOf e 0) (byteOf o 0) (byteOf e 1) (byteOf o 1) ∧
        (P.cipher.skey n me mo).getD (2 * j + 1) 0 =
          le32 (byteOf e 2) (byteOf o 2) (byteOf e 3) (byteOf o 3)

/-- The h-function for all cipher parameters, tables, words X and key lists L (R145, R146): the bytes
Y(0) are the first application of the permutation, Q0 at positions 0 and 2 and Q1 at 1 and 3; Y(t+1) is
Y(t) XORed with word t of L, in ascending order, and permuted again; byte r of the result is row r of
MDS times the column Y(n). What the spec marks here as its own decision is in log entry 15. "With TI-A
h(X, L) = X xor L[0] xor .. xor L[n-1]", with the tables of any successful FE.INIT. -/
def Obligations.HFunction : Prop :=
  (∀ (P : CipherParams) (T : Tables) (X : Word) (L : List Word), ∃ Y : Nat → Fin 4 → Byte,
    (∀ j : Fin 4, Y 0 j = if j = 0 ∨ j = 2 then P.q0 (byteOf X j) else P.q1 (byteOf X j)) ∧
    (∀ (t : Nat) (l : Word), L[t]? = some l → ∀ j : Fin 4, Y (t + 1) j =
      if j = 0 ∨ j = 2 then P.q0 (Y t j ^^^ byteOf l j) else P.q1 (Y t j ^^^ byteOf l j)) ∧
    ∀ r : Fin 4, byteOf (hFun P T X L) r =
      gfMul T (P.mds r 0) (Y L.length 0) ^^^ gfMul T (P.mds r 1) (Y L.length 1)
        ^^^ gfMul T (P.mds r 2) (Y L.length 2) ^^^ gfMul T (P.mds r 3) (Y L.length 3)) ∧
  ∀ s : State, s.conf.Legal → s.FieldOk → s.status.feReady = true → ∀ (X : Word) (L : List Word),
    hFun paramsTIA s.tab X L = L.foldl (fun x l => x ^^^ l) X

/-- E, written out as in the pseudocode of R152 with the round function of R149 and the subkeys of R150:
the four words after each of the 16 rounds. Which subkey goes with which sum, the rotation of the second
word and the side of the XOR on which each one-bit rotation stands are what the spec marks as general
knowledge and its own decision (log entries 14 and 15). -/
def Obligations.EncryptRounds : Prop :=
  ∀ (P : CipherParams) (T : Tables) (S K : List Word) (b : List Byte), ∃ R : Nat → Quad,
    ((R 0).r0 = wordAt b 0 ^^^ K.getD 0 0 ∧ (R 0).r1 = wordAt b 1 ^^^ K.getD 1 0 ∧
      (R 0).r2 = wordAt b 2 ^^^ K.getD 2 0 ∧ (R 0).r3 = wordAt b 3 ^^^ K.getD 3 0) ∧
    (∀ r < 16,
      let T0 := hFun P T (R r).r0 S
      let T1 := hFun P T ((R r).r1.rotateLeft P.g1Rot) S
      (R (r + 1)).r0 = ((R r).r2 ^^^ (T0 + T1 + K.getD (2 * r + 8) 0)).rotateRight 1 ∧
        (R (r + 1)).r1 = (R r).r3.rotateLeft 1 ^^^ (T0 + T1 + T1 + K.getD (2 * r + 9) 0) ∧
        (R (r + 1)).r2 = (R r).r0 ∧ (R (r + 1)).r3 = (R r).r1) ∧
    encryptBlock P T S K b =
      le32Inv ((R 16).r2 ^^^ K.getD 4 0) ++ le32Inv ((R 16).r3 ^^^ K.getD 5 0)
        ++ le32Inv ((R 16).r0 ^^^ K.getD 6 0) ++ le32Inv ((R 16).r1 ^^^ K.getD 7 0)

/-- Block round trip: "for every value of the parameters Q0, Q1, MDS, SKEY, G1_ROT", all tables and all
key material, D(E(B)) = B and E(D(B)) = B for every 16-byte B (R155). -/
def Obligations.BlockRoundTrip : Prop :=
  ∀ (P : CipherParams) (T : Tables) (S K : List Word) (b : List Byte), b.length = 16 →
    decryptBlock P T S K (encryptBlock P T S K b) = b ∧
      encryptBlock P T S K (decryptBlock P T S K b) = b

/-- BLK.ENC and BLK.DEC (R151, R153). With a ready key and INLEN = 16: OUT[0..16) is E, or D, of
IN[0..16), and OUTLEN is 16. Else the first of these checks that fails decides: INLEN > BUFCAP, the key,
INLEN ≠ 16. E and D, here and in the MODE commands (R190), are the block functions over the cipher
parameters, the tables in place, the S-box key material S[0..2N) (R147) and K. -/
def Obligations.BlockCommands : Prop :=
  (∀ s : State, s.status.keyReady = true → s.regs.inlen.toNat = 16 →
    let S := s.key.sbox.toList.take (2 * s.key.n)
    let K := s.key.k.toList
    (∃ t, exec .blkEnc s = .next t ∧
      DataDone s t 0 (encryptBlock s.conf.cipher s.tab S K s.input) ∧ t.regs.outlen = 16) ∧
    ∃ t, exec .blkDec s = .next t ∧
      DataDone s t 0 (decryptBlock s.conf.cipher s.tab S K s.input) ∧ t.regs.outlen = 16) ∧
  (∀ (i : Instr) (s : State), i = .blkEnc ∨ i = .blkDec →
    (s.conf.bufcap.val < s.regs.inlen.toNat →
      ∃ t, exec i s = .next t ∧ DataFault s t .illegalCommand) ∧
    (s.regs.inlen.toNat ≤ s.conf.bufcap.val → s.status.keyReady = false →
      ∃ t, exec i s = .next t ∧ DataFault s t .notReady) ∧
    (s.regs.inlen.toNat ≤ s.conf.bufcap.val → s.status.keyReady = true →
      s.regs.inlen.toNat ≠ 16 → ∃ t, exec i s = .next t ∧ DataFault s t .blockSize)) ∧
  ∀ (s : State) (b : List Byte),
    s.encBlock b = encryptBlock s.conf.cipher s.tab (s.key.sbox.toList.take (2 * s.key.n))
      s.key.k.toList b ∧
    s.decBlock b = decryptBlock s.conf.cipher s.tab (s.key.sbox.toList.take (2 * s.key.n))
      s.key.k.toList b

/-! ## Padding (spec/42_padding.md) -/

/-- Pad length (R171). -/
def Obligations.PadLength : Prop :=
  (∀ n, padLen n = 16 - n % 16 ∧ 1 ≤ padLen n ∧ padLen n ≤ 16 ∧ (n + padLen n) % 16 = 0 ∧
      n < n + padLen n ∧ ∀ m, n < m → m % 16 = 0 → n + padLen n ≤ m) ∧
    padLen 0 = 16 ∧ padLen 1 = 15 ∧ padLen 15 = 1 ∧ padLen 16 = 16 ∧ padLen 17 = 15 ∧
    padLen 1000 = 8

/-- The four pad commands, without readiness: the data, then the bytes of the scheme; PAD.ISO draws
padLen - 1 bytes, the byte at the lower index first (R172 to R176, R182). -/
def Obligations.PadCommands : Prop :=
  ∀ s : State, s.regs.inlen.toNat ≤ s.conf.bufcap.val →
    let p := padLen s.regs.inlen.toNat
    (∃ t, exec .padZero s = .next t ∧ DataDone s t 0 (s.input ++ List.replicate p 0)) ∧
      (∃ t, exec .padAnsi s = .next t ∧
        DataDone s t 0 (s.input ++ List.replicate (p - 1) 0 ++ [BitVec.ofNat 8 p])) ∧
      (∃ t, exec .padPkcs7 s = .next t ∧
        DataDone s t 0 (s.input ++ List.replicate p (BitVec.ofNat 8 p))) ∧
      ∃ t, exec .padIso s = .next t ∧
        DataDone s t (p - 1) (s.input
          ++ (List.range (p - 1)).map (fun i => Config.rng (s.ext.rngCursor + i))
          ++ [BitVec.ofNat 8 p])

/-- The unpad commands, without readiness (R178 to R181). Where they complete: UNPAD.ZERO takes every
trailing zero byte away and nothing else; UNPAD.ANSI, UNPAD.PKCS7 and UNPAD.ISO, on data that ends in a
trailer byte 1 to 16 with the bytes before it as the scheme wrote them, give the data before those;
UNPAD.ISO does not examine them. Where they fault: LengthError for a length that is no multiple of 16;
PaddingError, for the three trailer schemes, for empty data, for a trailer 0 or above 16, and, but for
UNPAD.ISO, for a byte before the trailer that the scheme did not write. -/
def Obligations.UnpadCommands : Prop :=
  (∀ s : State, s.regs.inlen.toNat ≤ s.conf.bufcap.val → s.regs.inlen.toNat % 16 = 0 →
    (∃ t r k, exec .unpadZero s = .next t ∧ DataDone s t 0 r ∧
      s.input = r ++ List.replicate k 0 ∧ r.getLast? ≠ some 0) ∧
    ∀ (d f : List Byte) (k : Byte), s.input = d ++ f ++ [k] → f.length + 1 = k.toNat →
      k.toNat ≤ 16 →
        (f = List.replicate f.length 0 →
          ∃ t, exec .unpadAnsi s = .next t ∧ DataDone s t 0 d) ∧
        (f = List.replicate f.length k →
          ∃ t, exec .unpadPkcs7 s = .next t ∧ DataDone s t 0 d) ∧
        ∃ t, exec .unpadIso s = .next t ∧ DataDone s t 0 d) ∧
  ∀ s : State, s.regs.inlen.toNat ≤ s.conf.bufcap.val →
    (s.regs.inlen.toNat % 16 ≠ 0 →
      ∀ i ∈ [Instr.unpadZero, .unpadAnsi, .unpadPkcs7, .unpadIso],
        ∃ t, exec i s = .next t ∧ DataFault s t .length) ∧
    (s.regs.inlen.toNat = 0 → ∀ i ∈ [Instr.unpadAnsi, .unpadPkcs7, .unpadIso],
      ∃ t, exec i s = .next t ∧ DataFault s t .padding) ∧
    ∀ k : Byte, s.regs.inlen.toNat % 16 = 0 → s.input.getLast? = some k →
      (k.toNat = 0 ∨ 16 < k.toNat → ∀ i ∈ [Instr.unpadAnsi, .unpadPkcs7, .unpadIso],
        ∃ t, exec i s = .next t ∧ DataFault s t .padding) ∧
      (1 ≤ k.toNat → k.toNat ≤ 16 →
        (∃ j b, s.regs.inlen.toNat - k.toNat ≤ j ∧ j + 1 < s.regs.inlen.toNat ∧
          s.input[j]? = some b ∧ b ≠ 0) →
        ∃ t, exec .unpadAnsi s = .next t ∧ DataFault s t .padding) ∧
      (1 ≤ k.toNat → k.toNat ≤ 16 →
        (∃ j b, s.regs.inlen.toNat - k.toNat ≤ j ∧ j + 1 < s.regs.inlen.toNat ∧
          s.input[j]? = some b ∧ b ≠ k) →
        ∃ t, exec .unpadPkcs7 s = .next t ∧ DataFault s t .padding)

/-- Round trip of padding: "for every byte string d and s in {1, 2, 3}: unpad(pad(d, s), s) = d without
fault, whatever the RNG delivers"; for scheme 0 the data without its trailing zero bytes (R183). -/
def Obligations.PadRoundTrip : Prop :=
  ∀ d filler : List Byte, filler.length = padLen d.length - 1 →
    (∀ p : Scheme, p ≠ .zero → unpadBytes p (padBytes p filler d) = .ok d) ∧
      (∃ r k, unpadBytes .zero (padBytes .zero filler d) = .ok r ∧
        d = r ++ List.replicate k 0 ∧ r.getLast? ≠ some 0) ∧
      (unpadBytes .zero (padBytes .zero filler d) = .ok d ↔ d = [] ∨ d.getLast? ≠ some 0)

/-! ## Modes (spec/43_modes.md) -/

/-- ECB: `OUT{i} = E(pd{i})`; decrypt is unpad of `T{i} = D(IN{i})`; sequential or dispatched (R196,
R197, R232, R233). -/
def Obligations.EcbBlocks : Prop :=
  (∀ (par : Bool) (p : Scheme) (s : State), modeFault 0 false par s = none →
    ∃ t, exec (.ecbEnc par p) s = .next t ∧
      DataDone s t (fillerCount p s.regs.inlen.toNat)
        (assemble ((s.pd p).length / 16) fun i => s.encBlock (blockAt (s.pd p) i))) ∧
  ∀ (par : Bool) (p : Scheme) (s : State), modeFault 0 true par s = none →
    let T := assemble (s.regs.inlen.toNat / 16) fun i => s.decBlock (blockAt s.input i)
    (∀ r, unpadBytes p T = .ok r →
      ∃ t, exec (.ecbDec par p) s = .next t ∧ DataDone s t 0 r) ∧
    ∀ e, unpadBytes p T = .error e →
      ∃ t, exec (.ecbDec par p) s = .next t ∧ DataFault s t e

/-- CBC: `OUT{i} = E(pd{i} xor FB)` with the IV and then the ciphertext block before; decrypt is unpad
of `D(IN{i}) xor FB` (R198, R199). -/
def Obligations.CbcChains : Prop :=
  (∀ (p : Scheme) (s : State), modeFault 1 false false s = none →
    ∃ t, exec (.cbcEnc false p) s = .next t ∧
      DataDone s t (fillerCount p s.regs.inlen.toNat)
        (assemble ((s.pd p).length / 16) fun i =>
          cbcReg s.encBlock (s.ivBytes 16) (s.pd p) (i + 1))) ∧
  ∀ (p : Scheme) (s : State), modeFault 1 true false s = none →
    let T := assemble (s.regs.inlen.toNat / 16) (cbcPlain s.decBlock (s.ivBytes 16) s.input)
    (∀ r, unpadBytes p T = .ok r →
      ∃ t, exec (.cbcDec false p) s = .next t ∧ DataDone s t 0 r) ∧
    ∀ e, unpadBytes p T = .error e →
      ∃ t, exec (.cbcDec false p) s = .next t ∧ DataFault s t e

/-- PCBC: the value fed into block i is `P{i-1} xor C{i-1}`, the IV into block 0 (R200 to R202). -/
def Obligations.PcbcChains : Prop :=
  (∀ (p : Scheme) (s : State), modeFault 2 false false s = none →
    ∃ t, exec (.pcbcEnc false p) s = .next t ∧
      DataDone s t (fillerCount p s.regs.inlen.toNat)
        (assemble ((s.pd p).length / 16) fun i =>
          (pcbcChain s.encBlock (s.ivBytes 16) (s.pd p) i).2)) ∧
  ∀ (p : Scheme) (s : State), modeFault 2 true false s = none →
    let T := assemble (s.regs.inlen.toNat / 16) (pcbcPlain s.decBlock (s.ivBytes 16) s.input)
    (∀ r, unpadBytes p T = .ok r →
      ∃ t, exec (.pcbcDec false p) s = .next t ∧ DataDone s t 0 r) ∧
    ∀ e, unpadBytes p T = .error e →
      ∃ t, exec (.pcbcDec false p) s = .next t ∧ DataFault s t e

/-- CFB with segments of SEG bytes, `ceil(INLEN / SEG)` of them, E in both directions (R203, R205,
R206). -/
def Obligations.CfbSegments : Prop :=
  ∀ s : State, modeFault 3 false false s = none →
    let n := s.regs.seg.toNat
    let segs := (s.regs.inlen.toNat + (n - 1)) / n
    (∃ t, exec (.cfbEnc false) s = .next t ∧
      DataDone s t 0 (assemble segs
        (cfbOut s.encBlock n s.input (cfbEncReg s.encBlock n (s.ivBytes 16) s.input)))) ∧
    ∃ t, exec (.cfbDec false) s = .next t ∧
      DataDone s t 0 (assemble segs
        (cfbOut s.encBlock n s.input (cfbDecReg n (s.ivBytes 16) s.input)))

/-- OFB: block i of the data XORed with FB(i+1), where FB(0) is the IV and FB(i+1) = E(FB(i)); both
commands (R208, R210, R211). -/
def Obligations.OfbKeystream : Prop :=
  ∀ s : State, modeFault 4 false false s = none →
    ∀ i ∈ [Instr.ofbEnc false, .ofbDec false],
      ∃ t, exec i s = .next t ∧
        DataDone s t 0 (assemble ((s.regs.inlen.toNat + 15) / 16)
          (ofbOut s.encBlock (s.ivBytes 16) s.input))

/-- CTR: block i of the data XORed with `E(NONCE ‖ BE64(i))`; both commands, sequential or dispatched
(R213, R215, R216, R218, R233). -/
def Obligations.CtrKeystream : Prop :=
  ∀ (par : Bool) (s : State), modeFault 5 false par s = none →
    ∀ i ∈ [Instr.ctrEnc par, .ctrDec par],
      ∃ t, exec i s = .next t ∧
        DataDone s t 0 (assemble ((s.regs.inlen.toNat + 15) / 16)
          (ctrOut s.encBlock (s.ivBytes 8) s.input))

/-- RandomDelta: encrypt draws the filler, then 16 mask bytes for each block in order, and emits
`MASK ‖ E(pd{i} xor MASK)`; decrypt is unpad of `D(block) xor mask` (R221, R222, R224). -/
def Obligations.RandomDeltaUnits : Prop :=
  (∀ (p : Scheme) (s : State), modeFault 6 false false s = none →
    let n := (s.pd p).length / 16
    ∃ t, exec (.rdEnc false p) s = .next t ∧
      DataDone s t (fillerCount p s.regs.inlen.toNat + 16 * n)
        (assemble n (rdOut s.encBlock (s.maskAt p) (s.pd p)))) ∧
  ∀ (p : Scheme) (s : State), modeFault 6 true false s = none →
    let T := assemble (s.regs.inlen.toNat / 32) (rdPlain s.decBlock s.input)
    (∀ r, unpadBytes p T = .ok r →
      ∃ t, exec (.rdDec false p) s = .next t ∧ DataDone s t 0 r) ∧
    ∀ e, unpadBytes p T = .error e →
      ∃ t, exec (.rdDec false p) s = .next t ∧ DataFault s t e

/-- The checks of the 14 MODE commands: the first that fails, in the order of R191, decides the
fault. -/
def Obligations.ModeChecksInOrder : Prop :=
  ∀ (i : Instr) (m : Nat) (decrypt par : Bool) (s : State) (e : ErrCode),
    modeOf i = some (m, decrypt, par) → modeFault m decrypt par s = some e →
      ∃ t, exec i s = .next t ∧ DataFault s t e

/-- Output lengths of the commands that complete without fault (R226). For a padded decrypt, T being the
deciphered input of n bytes: n - t for schemes 1 to 3, t the trailer, the last byte of T; n minus the
count k of the zero bytes that end T for scheme 0. -/
def Obligations.OutputLengths : Prop :=
  (∀ (i : Instr) (m : Nat) (decrypt par : Bool) (s t : State),
    modeOf i = some (m, decrypt, par) → exec i s = .next t → t.status.err = .none →
      let n := s.regs.inlen.toNat
      let out := t.regs.outlen.toNat
      ((m = 0 ∨ m = 1 ∨ m = 2) → decrypt = false → out = n + padLen n) ∧
        (m = 6 → decrypt = false → out = 2 * (n + padLen n)) ∧
        ((m = 3 ∨ m = 4 ∨ m = 5) → out = n) ∧
        out ≤ s.conf.outcap) ∧
  ∀ (par : Bool) (p : Scheme) (s t : State),
    ∀ c ∈ [(0, Instr.ecbDec par p), (1, .cbcDec par p), (2, .pcbcDec par p), (6, .rdDec par p)],
      exec c.2 s = .next t → t.status.err = .none →
        let T := s.deciphered c.1
        let n := if c.1 = 6 then s.regs.inlen.toNat / 2 else s.regs.inlen.toNat
        T.length = n ∧
          (p ≠ .zero → ∃ k : Byte, T.getLast? = some k ∧ 1 ≤ k.toNat ∧ k.toNat ≤ 16 ∧
            t.regs.outlen.toNat = n - k.toNat) ∧
          (p = .zero → ∃ (r : List Byte) (k : Nat), T = r ++ List.replicate k 0 ∧
            r.getLast? ≠ some 0 ∧ t.regs.outlen.toNat = n - k)

/-- OFB.DEC has exactly the effect of OFB.ENC on the same state, and CTR.DEC that of CTR.ENC, with
`par` 0 or 1; and OFB and CTR are involutions for a fixed IV: the command applied to its own output,
with the same key and IV, returns the input (R211, R212, R216). -/
def Obligations.KeystreamInvolution : Prop :=
  (∀ (par : Bool) (s : State),
    exec (.ofbDec par) s = exec (.ofbEnc par) s ∧ exec (.ctrDec par) s = exec (.ctrEnc par) s) ∧
  (∀ s : State, s.MemOk → modeFault 4 false false s = none →
    ∃ t u, exec (.ofbEnc false) s = .next t ∧ exec (.ofbEnc false) t.copyBack = .next u ∧
      u.output = s.input) ∧
  ∀ (par : Bool) (s : State), s.MemOk → modeFault 5 false par s = none →
    ∃ t u, exec (.ctrEnc par) s = .next t ∧ exec (.ctrEnc par) t.copyBack = .next u ∧
      u.output = s.input

/-- Mode round trip: with the key, IV, IVLEN and SEG unchanged, copying OUT[0..OUTLEN) of the encrypt
command into IN and issuing the decrypt command gives the original data and no fault, for the lengths
whose ciphertext fits the IN window as R227 bounds them: INLEN + 16 within BUFCAP for ECB, CBC and PCBC,
2 INLEN + 32 for RD, INLEN for CFB, OFB and CTR; for scheme 0 the data without its trailing zero bytes
(R227; BUFCAP is a parameter: log entry 16). -/
def Obligations.ModeRoundTrip : Prop :=
  ∀ (par : Bool) (p : Scheme) (s : State), s.MemOk →
    (∀ c ∈ [(0, Instr.ecbEnc par p, Instr.ecbDec par p), (1, .cbcEnc par p, .cbcDec par p),
        (2, .pcbcEnc par p, .pcbcDec par p), (6, .rdEnc par p, .rdDec par p)],
      modeFault c.1 false par s = none →
      (if c.1 = 6 then 2 * s.regs.inlen.toNat + 32 ≤ s.conf.bufcap.val
        else s.regs.inlen.toNat + 16 ≤ s.conf.bufcap.val) →
        ∃ t u, exec c.2.1 s = .next t ∧ exec c.2.2 t.copyBack = .next u ∧
          u.status.err = .none ∧
          if p = .zero then u.output = stripZeros s.input else u.output = s.input) ∧
    ∀ c ∈ [(3, Instr.cfbEnc par, Instr.cfbDec par), (4, .ofbEnc par, .ofbDec par),
        (5, .ctrEnc par, .ctrDec par)],
      modeFault c.1 false par s = none →
        ∃ t u, exec c.2.1 s = .next t ∧ exec c.2.2 t.copyBack = .next u ∧
          u.status.err = .none ∧ u.output = s.input

/-- "Mode state is created at the start of an encrypt/decrypt call and discarded at its end": with or
without fault nothing is left of it, nor of the dispatcher (R45, R47, R195). -/
def Obligations.ModeStateDiscarded : Prop :=
  ∀ (i : Instr) (c : Nat × Bool × Bool) (s t : State), modeOf i = some c → exec i s = .next t →
    t.mode.fb = List.replicate 16 0 ∧ t.mode.nonce = List.replicate 8 0 ∧ t.mode.ctrv = 0 ∧
      t.mode.blk = 0 ∧ t.disp = none

/-! ## Parallel Dispatcher (spec/44_dispatcher.md) -/

/-- `par = 1` with CBC, PCBC, CFB, OFB or RandomDelta, either direction: ConfigError, whatever
THREADS, SEG, IVLEN and the data are (R230). -/
def Obligations.ChainedModesRefusePar : Prop :=
  ∀ (p : Scheme) (s : State), s.regs.inlen.toNat ≤ s.conf.bufcap.val → s.status.keyReady = true →
    ∀ i ∈ [Instr.cbcEnc true p, .cbcDec true p, .pcbcEnc true p, .pcbcDec true p, .cfbEnc true,
        .cfbDec true, .ofbEnc true, .ofbDec true, .rdEnc true p, .rdDec true p],
      ∃ t, exec i s = .next t ∧ DataFault s t .config

/-- The dispatcher in every interleaving: whatever choices are made among the possible moves, after
two moves a chunk every chunk is taken and finished, every worker is idle, and slot k holds
`X(k, chunk k)` (R234, R235, R236). -/
def Obligations.DispatcherEveryInterleaving : Prop :=
  ∀ (X : ChunkTransform) (src : List (List Byte)) (choice : Nat → Nat) (c threads : Nat),
    1 ≤ threads →
    let d := Dispatcher.run X src choice (2 * src.length) c (Dispatcher.start threads src.length)
    d.qnext = src.length ∧ d.qdone = src.length ∧ d.workers = List.replicate threads none ∧
      d.slots = src.mapIdx X

/-- "For the same state at issue, a legal `par = 1` command ends in the same state as the same command
with `par = 0`" (R238); the model's own position in the free choices of the workers (log entry 9)
apart. -/
def Obligations.ParallelEqualsSequential : Prop :=
  ∀ (p : Scheme) (s : State), 1 ≤ s.regs.threads.toNat → s.regs.threads.toNat ≤ s.conf.maxWorkers.val →
    ∀ c ∈ [(Instr.ecbEnc true p, Instr.ecbEnc false p), (.ecbDec true p, .ecbDec false p),
        (.ctrEnc true, .ctrEnc false), (.ctrDec true, .ctrDec false)],
      ∃ t u, exec c.1 s = .next t ∧ exec c.2 s = .next u ∧
        { t with ext := { t.ext with poolCursor := u.ext.poolCursor } } = u

/-! ## Frames and whole-machine rules -/

/-- What a data command leaves alone: every byte of KEY, IV and IN, the tables, the key state, RES,
POLY, POLYA, THREADS, SEG, KEYLEN, IVLEN, INLEN and the ready flags; only OUT, OUTLEN, ERR, FLT and
BUSY may change (R69, R182, R191). -/
def Obligations.DataCommandFrame : Prop :=
  ∀ (i : Instr) (s t : State), isDataCommand i = true → exec i s = .next t →
    (∀ a, ¬(0x20000 ≤ a ∧ a < 0x20000 + s.conf.outcap) → t.readByte a = s.readByte a) ∧
      t.tab = s.tab ∧ t.key = s.key ∧
      t.regs = { s.regs with outlen := t.regs.outlen } ∧
      t.status.feReady = s.status.feReady ∧ t.status.keyReady = s.status.keyReady ∧
      t.ext.pending = s.ext.pending ∧ t.ext.rdata = s.ext.rdata ∧ t.conf = s.conf

/-- The bytes of OUT that a data command leaves unspecified: those from OUTLEN on, all of them after a
fault, are the model's next free bytes (log entry 8), "not as the old content and not as zero"; a
command of the SYS, FE groups and KEY.SETUP never touches OUT, but for SYS.RESET (R69). -/
def Obligations.OutBeyondLength : Prop :=
  ∀ (i : Instr) (s t : State), exec i s = .next t →
    (isDataCommand i = true → ∀ k, t.regs.outlen.toNat ≤ k → k < s.conf.outcap →
      t.readByte (0x20000 + k) = Config.freeByte (s.ext.freeCursor + k)) ∧
    (isDataCommand i = false → i ≠ .sysReset → ∀ k < s.conf.outcap,
      t.readByte (0x20000 + k) = s.readByte (0x20000 + k))

/-- Which commands write what, over all commands: EXP, LOG and POLYA only FE.INIT, the key material
only KEY.SETUP, RES only the six field operations, OUT and OUTLEN only the data commands, and the
windows and configuration registers of the host none; the mode registers and the dispatcher state only
the MODE commands, which leave them discarded; SYS.RESET writes all (R27, R28, R35 to R42, R44, R45, R47,
R245). The parameters "are configuration, not state: no command changes them" (R20). -/
def Obligations.OnlyWriters : Prop :=
  ∀ (i : Instr) (s t : State), exec i s = .next t → t.conf = s.conf ∧ (i ≠ .sysReset →
    (i ≠ .feInit → t.tab = s.tab ∧ t.regs.polya = s.regs.polya ∧
        t.status.feReady = s.status.feReady) ∧
      (i ≠ .keySetup → t.key = s.key) ∧
      (i ≠ .feInit → i ≠ .keySetup → t.status.keyReady = s.status.keyReady) ∧
      (isFieldOp i = false → t.regs.res = s.regs.res) ∧
      (isDataCommand i = false → t.out = s.out ∧ t.regs.outlen = s.regs.outlen) ∧
      t.mem = s.mem ∧ t.regs.poly = s.regs.poly ∧ t.regs.threads = s.regs.threads ∧
      t.regs.seg = s.regs.seg ∧ t.regs.keylen = s.regs.keylen ∧ t.regs.ivlen = s.regs.ivlen ∧
      t.regs.inlen = s.regs.inlen ∧
      t.mode = (if (modeOf i).isSome then ModeState.cleared else s.mode) ∧
      t.disp = (if (modeOf i).isSome then none else s.disp))

/-- "Every command, faulting or not, ends with the sequencer idle (STATUS.BUSY = 0) and ready for the
next command": every word, in every state (R22, R284). -/
def Obligations.EveryCommandEndsIdle : Prop :=
  ∀ (w : Word) (s : State), ∃ t, runWord w s = .next t ∧ t.busy = false

/-- How a command ends, faulting or not (R256, R257). ERR is the last command's: it, and everything else
but FLT, does not depend on what ERR and FLT held before. Without fault FLT is unchanged, but for
SYS.RESET. With a fault FLT is 1, BUSY is 0, a data command's OUTLEN is 0 and every byte of its OUT is
free (log entry 8), FE.INIT clears both ready flags and POLYA, KEY.SETUP clears KEY_READY, and nothing
else is written. -/
def Obligations.FaultAndCompletion : Prop :=
  ∀ (w : Word) (s t : State), runWord w s = .next t →
    t.cmd = none ∧
    (∀ (e : ErrCode) (f : Bool), ∃ u,
      runWord w { s with status := { s.status with err := e, flt := f } } = .next u ∧
        t = { u with status := { u.status with flt := t.status.flt } }) ∧
    (t.status.err = .none → w ≠ 0x01000000 → t.status.flt = s.status.flt) ∧
    (t.status.err ≠ .none → w ≠ 0x01000000 ∧
      t.status.flt = true ∧
      t.status.feReady = (if w = 0x10000000 then false else s.status.feReady) ∧
      t.status.keyReady =
        (if w = 0x10000000 ∨ w = 0x20000000 then false else s.status.keyReady) ∧
      t.mem = s.mem ∧ t.tab = s.tab ∧ t.key = s.key ∧
      (∀ i, decode w = .ok i → isDataCommand i = true →
        t.regs = { s.regs with outlen := 0 } ∧
          ∀ k < s.conf.outcap,
            t.readByte (0x20000 + k) = Config.freeByte (s.ext.freeCursor + k)) ∧
      ((∀ i, decode w = .ok i → isDataCommand i = false) →
        t.regs = { s.regs with polya := if w = 0x10000000 then 0 else s.regs.polya } ∧
          t.out = s.out))

/-- "Re-issuing the same command on the same state faults again with the same code": also on the state
the fault left, and whatever ERR and FLT hold (R260). -/
def Obligations.ReissueFaultsAgain : Prop :=
  ∀ (w : Word) (s t : State) (e : ErrCode) (f : Bool), runWord w s = .next t →
    t.status.err ≠ .none →
      ∃ u, runWord w { t with status := { t.status with err := e, flt := f } } = .next u ∧
        u.status.err = t.status.err

/-- The key is latched: no command but KEY.SETUP depends on the KEY window. Two states that differ in
KEY only give the same result, and differ in KEY only afterwards (R74, R286). -/
def Obligations.KeyWindowNotRead : Prop :=
  ∀ (i : Instr) (s : State) (m : Memory), i ≠ .keySetup → i ≠ .sysReset →
    (∀ a, ¬(0x40 ≤ a ∧ a ≤ 0x5F) → Memory.read m a = Memory.read s.mem a) →
      ∃ t, exec i s = .next t ∧ exec i { s with mem := m } = .next { t with mem := m }

/-- Every step of the machine, command, host access or reset, keeps a legal state legal
(R35 to R45, R69), and the parameters as they are (R20). -/
def Obligations.StepKeepsInvariant : Prop :=
  ∀ s t : State, s.Inv → step s = .next t → t.Inv ∧ t.conf = s.conf

/-- The state after reset is legal. -/
def Obligations.ResetIsLegal : Prop := State.reset.Inv

end
end

