-- ==== Sys2Proof/Laws/Blocks.lean ====
section
/-! SUPPORT. The laws of byte strings cut into pieces, of the sequential path over the pieces, and of the
block functions' lengths and rounds. -/

namespace Sys2Proof.Machine

/-! ## Byte strings -/

@[simp] theorem length_xorBytes (x y : List Byte) :
    (xorBytes x y).length = min x.length y.length := by
  simp [xorBytes]

/-- XOR with the same string twice gives the string back. -/
theorem xorBytes_cancel (x k : List Byte) (h : x.length ≤ k.length) :
    xorBytes (xorBytes x k) k = x := by
  induction x generalizing k with
  | nil => cases k <;> rfl
  | cons a x ih =>
    cases k with
    | nil => simp at h
    | cons b k =>
      simp only [xorBytes, List.zipWith_cons_cons, List.cons.injEq]
      refine ⟨?_, ih k (by simpa using h)⟩
      rw [BitVec.xor_assoc, BitVec.xor_self, BitVec.xor_zero]

/-! ## Pieces -/

theorem splitEvery_eq (m n : Nat) (d : List Byte) :
    splitEvery m n d = (List.range n).map fun i => (d.drop (m * i)).take m := by
  induction n generalizing d with
  | zero => rfl
  | succ n ih =>
    rw [List.range_succ_eq_map, List.map_cons, List.map_map]
    simp only [splitEvery, ih, Nat.mul_zero, List.drop_zero]
    congr 1
    refine List.map_congr_left fun i _ => ?_
    simp [List.drop_drop, Nat.mul_add, Nat.add_comm]

/-- The pieces of a buffer, by index. -/
theorem pieces_eq (m : Nat) (d : List Byte) :
    pieces m d = (List.range ((d.length + (m - 1)) / m)).map (segAt m d) :=
  splitEvery_eq ..

/-- The blocks of a buffer, by index. -/
theorem pieces_blocks (d : List Byte) :
    pieces 16 d = (List.range ((d.length + 15) / 16)).map (blockAt d) :=
  splitEvery_eq ..

@[simp] theorem length_pieces (m : Nat) (d : List Byte) :
    (pieces m d).length = (d.length + (m - 1)) / m := by
  simp [pieces_eq]

/-- The number of blocks of a buffer of whole blocks. -/
theorem blocks_of_whole {n : Nat} (h : n % 16 = 0) : (n + 15) / 16 = n / 16 := by omega

theorem length_segAt (m : Nat) (d : List Byte) (i : Nat) :
    (segAt m d i).length = min m (d.length - m * i) := by
  simp [segAt]

theorem length_blockAt (d : List Byte) (i : Nat) :
    (blockAt d i).length = min 16 (d.length - 16 * i) := by
  simp [blockAt]

theorem blockAt_eq_segAt (d : List Byte) (i : Nat) : blockAt d i = segAt 16 d i := rfl

/-- The pieces one after the other are the buffer. -/
theorem assemble_segAt (m : Nat) (d : List Byte) (n : Nat) :
    assemble n (segAt m d) = d.take (m * n) := by
  induction n with
  | zero => simp [assemble]
  | succ n ih =>
    have : assemble (n + 1) (segAt m d) = assemble n (segAt m d) ++ segAt m d n := by
      simp [assemble, List.range_succ, List.flatMap_append]
    rw [this, ih, Nat.mul_succ, List.take_add]
    rfl

theorem assemble_succ (n : Nat) (f : Nat → List Byte) :
    assemble (n + 1) f = assemble n f ++ f n := by
  simp [assemble, List.range_succ, List.flatMap_append]

theorem assemble_congr {n : Nat} {f g : Nat → List Byte} (h : ∀ i < n, f i = g i) :
    assemble n f = assemble n g := by
  induction n with
  | zero => rfl
  | succ n ih =>
    rw [assemble_succ, assemble_succ, ih fun i hi => h i (by omega), h n (by omega)]

/-- The length of strings of `m` bytes each, one after the other. -/
theorem length_assemble {n m : Nat} {f : Nat → List Byte} (h : ∀ i < n, (f i).length = m) :
    (assemble n f).length = m * n := by
  induction n with
  | zero => simp [assemble]
  | succ n ih =>
    rw [assemble_succ, List.length_append, ih fun i hi => h i (by omega), h n (by omega),
      Nat.mul_succ]

/-- Piece `i` of strings of `m` bytes each, one after the other. -/
theorem segAt_assemble {n m : Nat} {f : Nat → List Byte} (h : ∀ i < n, (f i).length = m) (i : Nat)
    (hi : i < n) : segAt m (assemble n f) i = f i := by
  induction n with
  | zero => omega
  | succ n ih =>
    have hl : (assemble n f).length = m * n := length_assemble fun j hj => h j (by omega)
    rw [assemble_succ, segAt]
    by_cases hin : i < n
    · have hle : m * i + m ≤ m * n := by rw [← Nat.mul_succ]; exact Nat.mul_le_mul_left m hin
      rw [List.drop_append_of_le_length (by omega), List.take_append_of_le_length
        (by rw [List.length_drop]; omega)]
      exact ih (fun j hj => h j (by omega)) hin
    · obtain rfl : i = n := by omega
      rw [← hl, List.drop_left, List.take_of_length_le (by rw [h i (by omega)])]

/-! ## The sequential path -/

/-- The sequential path gives the outputs of the pieces in order, when the mode state before each piece
is known. -/
theorem runBlocks_eq (f : BlockStep) (n : Nat) (p : Nat → List Byte) (M : Nat → ModeState)
    (O : Nat → List Byte)
    (h : ∀ i < n, f (M i) (p i) = (O i, { M (i + 1) with blk := (M i).blk }) ∧
      (M (i + 1)).blk = (M i).blk + 1) :
    runBlocks f (M 0) ((List.range n).map p) = (assemble n O, M n) := by
  induction n generalizing p M O with
  | zero => rfl
  | succ n ih =>
    rw [List.range_succ_eq_map, List.map_cons, List.map_map]
    obtain ⟨h0, hb⟩ := h 0 (by omega)
    have hM : ({ (f (M 0) (p 0)).2 with blk := (f (M 0) (p 0)).2.blk + 1 } : ModeState) = M 1 := by
      rw [h0]; simp [← hb]
    have := ih (p ∘ Nat.succ) (M ∘ Nat.succ) (O ∘ Nat.succ)
      fun i hi => h (i + 1) (by omega)
    simp only [runBlocks, hM]
    simp only [Function.comp_apply, Nat.succ_eq_add_one, Nat.zero_add] at this
    rw [this, h0]
    simp [assemble, List.range_succ_eq_map, List.flatMap_map, Function.comp_def]

/-- The outputs of the sequential path are no longer than `m` bytes a piece. -/
theorem length_runBlocks_le {f : BlockStep} {m : Nat} (hf : ∀ M b, (f M b).1.length ≤ m)
    (M : ModeState) (ps : List (List Byte)) : (runBlocks f M ps).1.length ≤ m * ps.length := by
  induction ps generalizing M with
  | nil => simp [runBlocks]
  | cons b bs ih =>
    simp only [runBlocks, List.length_append, List.length_cons, Nat.mul_succ]
    exact (Nat.add_le_add (hf M b) (ih _)).trans (Nat.le_of_eq (Nat.add_comm ..))

/-! ## The block functions -/

@[simp] theorem length_store (q : Quad) : q.store.length = 16 := rfl

@[simp] theorem length_encryptBlock (P : CipherParams) (T : Tables) (S K : List Word) (b : List Byte) :
    (encryptBlock P T S K b).length = 16 := rfl

@[simp] theorem length_decryptBlock (P : CipherParams) (T : Tables) (S K : List Word) (b : List Byte) :
    (decryptBlock P T S K b).length = 16 := rfl

@[simp] theorem length_encBlock (s : State) (b : List Byte) : (s.encBlock b).length = 16 := rfl

@[simp] theorem length_decBlock (s : State) (b : List Byte) : (s.decBlock b).length = 16 := rfl

end Sys2Proof.Machine
end

