-- ==== Sys2Proof/Laws/Memory.lean ====
section
/-! SUPPORT. The laws of memory: a read after a write, and that every operation keeps the canonical
form. -/

namespace Sys2Proof.Machine

@[simp] theorem Memory.read_nil (a : Nat) : Memory.read [] a = 0 := rfl

theorem Memory.read_cons (c : Host.Cell) (m : Memory) (a : Nat) :
    Memory.read (c :: m) a = if c.1 = a then c.2 else Memory.read m a := rfl

/-- An address that no cell has reads as 0. -/
theorem Memory.read_eq_zero {m : Memory} {a : Nat} (h : ∀ c ∈ m, c.1 ≠ a) : Memory.read m a = 0 := by
  induction m with
  | nil => rfl
  | cons c m ih =>
    have hc : c.1 ≠ a := h c (by simp)
    rw [Memory.read_cons, if_neg hc]
    exact ih fun d hd => h d (by simp [hd])

/-- The cells of a written memory: the new one or an old one. -/
theorem Memory.mem_write {m : Memory} {a : Nat} {b : Byte} {c : Host.Cell}
    (h : c ∈ Memory.write m a b) : (c = (a, b) ∧ b ≠ 0) ∨ c ∈ m := by
  induction m with
  | nil =>
    by_cases hb : b = 0 <;> simp_all [Memory.write]
  | cons d m ih =>
    simp only [Memory.write] at h
    split at h
    · rcases List.mem_cons.1 h with rfl | h
      · exact .inr (by simp)
      · rcases ih h with h | h
        · exact .inl h
        · exact .inr (by simp [h])
    · split at h <;> split at h <;> simp_all <;> tauto

/-- Reading an address in a canonical memory whose cells all lie above it gives 0. -/
theorem Memory.read_of_lt {m : Memory} {a : Nat} (h : ∀ c ∈ m, a < c.1) : Memory.read m a = 0 :=
  Memory.read_eq_zero fun c hc => Nat.ne_of_gt (h c hc)

/-- A read after a write gives the byte written at that address and the old byte elsewhere. -/
theorem Memory.read_write {m : Memory} (hm : Memory.wf m) (a x : Nat) (b : Byte) :
    Memory.read (Memory.write m a b) x = if x = a then b else Memory.read m x := by
  induction m with
  | nil =>
    simp only [Memory.write]
    split
    · next hb => rw [Memory.read_nil, hb, ite_self]
    · by_cases hx : x = a
      · simp [Memory.read_cons, hx]
      · simp [Memory.read_cons, hx, Ne.symm hx]
  | cons c m ih =>
    obtain ⟨hs, hz⟩ := hm
    obtain ⟨hc, hs'⟩ := List.pairwise_cons.1 hs
    have hm' : Memory.wf m := ⟨hs', fun d hd => hz d (by simp [hd])⟩
    have above : ∀ y, y ≤ c.1 → Memory.read m y = 0 := fun y hy =>
      Memory.read_of_lt fun d hd => Nat.lt_of_le_of_lt hy (hc d hd)
    simp only [Memory.write]
    split
    · next hlt =>
      rw [Memory.read_cons, ih hm', Memory.read_cons]
      by_cases hx : x = a
      · simp [hx]
        intro h; omega
      · simp [hx]
    · next hge =>
      split
      · next heq =>
        by_cases hb : b = 0
        · simp only [hb, if_true, Memory.read_cons]
          by_cases hx : x = a
          · simp [hx, above a (by omega)]
          · rw [if_neg hx, if_neg (by omega)]
        · simp only [hb, if_false, Memory.read_cons]
          by_cases hx : x = a
          · simp [hx]
          · rw [if_neg (by omega), if_neg hx, if_neg (by omega)]
      · next hne =>
        by_cases hb : b = 0
        · simp only [hb, if_true, Memory.read_cons]
          by_cases hx : x = a
          · rw [if_neg (by omega), if_pos hx, above x (by omega)]
          · rw [if_neg hx]
        · simp only [hb, if_false, Memory.read_cons]
          by_cases hx : x = a
          · simp [hx]
          · rw [if_neg (by omega), if_neg hx]

/-- Writing keeps the canonical form. -/
theorem Memory.wf_write {m : Memory} (hm : Memory.wf m) (a : Nat) (b : Byte) :
    Memory.wf (Memory.write m a b) := by
  refine ⟨?_, fun c hc => ?_⟩
  · induction m with
    | nil => simp only [Memory.write]; split <;> simp
    | cons c m ih =>
      obtain ⟨hs, hz⟩ := hm
      obtain ⟨hc, hs'⟩ := List.pairwise_cons.1 hs
      simp only [Memory.write]
      split
      · refine List.pairwise_cons.2 ⟨fun d hd => ?_, ih ⟨hs', fun d hd => hz d (by simp [hd])⟩⟩
        rcases Memory.mem_write hd with ⟨rfl, -⟩ | hd
        · assumption
        · exact hc d hd
      · split
        · split
          · exact hs'
          · exact List.pairwise_cons.2 ⟨fun d hd => by have := hc d hd; simp; omega, hs'⟩
        · split
          · exact hs
          · refine List.pairwise_cons.2 ⟨fun d hd => ?_, hs⟩
            rcases List.mem_cons.1 hd with rfl | hd
            · simp; omega
            · have := hc d hd; simp; omega
  · rcases Memory.mem_write hc with ⟨rfl, hb⟩ | hc
    · exact hb
    · exact hm.2 c hc

/-- The cells of `ofBytes` lie inside the bytes it was made of. -/
theorem Memory.mem_ofBytes {a : Nat} {bs : List Byte} {c : Host.Cell}
    (h : c ∈ Memory.ofBytes a bs) : a ≤ c.1 ∧ c.1 < a + bs.length ∧ c.2 ≠ 0 := by
  induction bs generalizing a with
  | nil => simp [Memory.ofBytes] at h
  | cons b bs ih =>
    simp only [Memory.ofBytes] at h
    split at h
    · obtain ⟨h1, h2, h3⟩ := ih h
      exact ⟨by omega, by simp; omega, h3⟩
    · next hb =>
      rcases List.mem_cons.1 h with rfl | h
      · exact ⟨Nat.le_refl _, by simp, hb⟩
      · obtain ⟨h1, h2, h3⟩ := ih h
        exact ⟨by omega, by simp; omega, h3⟩

/-- `ofBytes` is canonical. -/
theorem Memory.wf_ofBytes (a : Nat) (bs : List Byte) : Memory.wf (Memory.ofBytes a bs) := by
  refine ⟨?_, fun c hc => (Memory.mem_ofBytes hc).2.2⟩
  induction bs generalizing a with
  | nil => simp [Memory.ofBytes]
  | cons b bs ih =>
    simp only [Memory.ofBytes]
    split
    · exact ih _
    · exact List.pairwise_cons.2 ⟨fun d hd => (Memory.mem_ofBytes hd).1, ih _⟩

/-- Reading back the bytes a memory was made of. -/
theorem Memory.read_ofBytes (a i : Nat) (bs : List Byte) :
    Memory.read (Memory.ofBytes a bs) (a + i) = bs.getD i 0 := by
  induction bs generalizing a i with
  | nil => simp [Memory.ofBytes]
  | cons b bs ih =>
    simp only [Memory.ofBytes]
    cases i with
    | zero =>
      split
      · next hb =>
        rw [Memory.read_of_lt (a := a + 0) fun c hc => (Memory.mem_ofBytes hc).1, hb]
        simp
      · simp [Memory.read_cons]
    | succ i =>
      have hi := ih (a + 1) i
      rw [show a + 1 + i = a + (i + 1) by omega] at hi
      split
      · rw [hi]; simp
      · rw [Memory.read_cons, if_neg (by simp), hi]; simp

@[simp] theorem Memory.length_readBytes (m : Memory) (a n : Nat) :
    (Memory.readBytes m a n).length = n := by
  induction n generalizing a with
  | zero => rfl
  | succ n ih => simp [Memory.readBytes, ih]

/-- Byte `i` of a byte string read from memory. -/
theorem Memory.getElem?_readBytes (m : Memory) (a n i : Nat) (h : i < n) :
    (Memory.readBytes m a n)[i]? = some (Memory.read m (a + i)) := by
  induction n generalizing a i with
  | zero => omega
  | succ n ih =>
    cases i with
    | zero => simp [Memory.readBytes]
    | succ i =>
      have := ih (a + 1) i (by omega)
      rw [show a + 1 + i = a + (i + 1) by omega] at this
      simpa [Memory.readBytes] using this

/-! ## OUT -/

/-- A determined byte of OUT after a result was put there. -/
theorem State.setOut_read (r : List Byte) (s : State) (i : Nat) (h : i < r.length) :
    OutWindow.read (s.setOut r).out i = r.getD i 0 := by
  simp [OutWindow.read, State.setOut, h, Memory.read_ofBytes]

end Sys2Proof.Machine
end

