-- ==== Sys2Proof/Laws/State.lean ====
section
/-! SUPPORT. One lemma per field of State per named update: what the update leaves in that field.
They let a proof read a field without unfolding a record update. -/

namespace Sys2Proof.Machine

/-! ## setOut -/

@[simp] theorem State.setOut_cmd (r : List Byte) (s : State) : (s.setOut r).cmd = s.cmd := rfl
@[simp] theorem State.setOut_status (r : List Byte) (s : State) : (s.setOut r).status = s.status :=
  rfl
@[simp] theorem State.setOut_regs (r : List Byte) (s : State) :
    (s.setOut r).regs = { s.regs with outlen := BitVec.ofNat 32 r.length } :=
  rfl
@[simp] theorem State.setOut_tab (r : List Byte) (s : State) : (s.setOut r).tab = s.tab := rfl
@[simp] theorem State.setOut_key (r : List Byte) (s : State) : (s.setOut r).key = s.key := rfl
@[simp] theorem State.setOut_mem (r : List Byte) (s : State) : (s.setOut r).mem = s.mem := rfl
@[simp] theorem State.setOut_out (r : List Byte) (s : State) :
    (s.setOut r).out = { cells := Memory.ofBytes outBase r, start := r.length, draw := s.ext.freeCursor } :=
  rfl
@[simp] theorem State.setOut_mode (r : List Byte) (s : State) : (s.setOut r).mode = s.mode := rfl
@[simp] theorem State.setOut_disp (r : List Byte) (s : State) : (s.setOut r).disp = s.disp := rfl
@[simp] theorem State.setOut_conf (r : List Byte) (s : State) : (s.setOut r).conf = s.conf := rfl
@[simp] theorem State.setOut_ext (r : List Byte) (s : State) :
    (s.setOut r).ext = { s.ext with freeCursor := s.ext.freeCursor + s.conf.outcap } :=
  rfl

/-! ## skipDraws -/

@[simp] theorem State.skipDraws_cmd (n : Nat) (s : State) : (s.skipDraws n).cmd = s.cmd := rfl
@[simp] theorem State.skipDraws_status (n : Nat) (s : State) : (s.skipDraws n).status = s.status :=
  rfl
@[simp] theorem State.skipDraws_regs (n : Nat) (s : State) : (s.skipDraws n).regs = s.regs := rfl
@[simp] theorem State.skipDraws_tab (n : Nat) (s : State) : (s.skipDraws n).tab = s.tab := rfl
@[simp] theorem State.skipDraws_key (n : Nat) (s : State) : (s.skipDraws n).key = s.key := rfl
@[simp] theorem State.skipDraws_mem (n : Nat) (s : State) : (s.skipDraws n).mem = s.mem := rfl
@[simp] theorem State.skipDraws_out (n : Nat) (s : State) : (s.skipDraws n).out = s.out := rfl
@[simp] theorem State.skipDraws_mode (n : Nat) (s : State) : (s.skipDraws n).mode = s.mode := rfl
@[simp] theorem State.skipDraws_disp (n : Nat) (s : State) : (s.skipDraws n).disp = s.disp := rfl
@[simp] theorem State.skipDraws_conf (n : Nat) (s : State) : (s.skipDraws n).conf = s.conf := rfl
@[simp] theorem State.skipDraws_ext (n : Nat) (s : State) :
    (s.skipDraws n).ext = { s.ext with rngCursor := s.ext.rngCursor + n } :=
  rfl

/-! ## withMode -/

@[simp] theorem State.withMode_cmd (m : ModeState) (s : State) : (s.withMode m).cmd = s.cmd := rfl
@[simp] theorem State.withMode_status (m : ModeState) (s : State) :
    (s.withMode m).status = s.status :=
  rfl
@[simp] theorem State.withMode_regs (m : ModeState) (s : State) : (s.withMode m).regs = s.regs :=
  rfl
@[simp] theorem State.withMode_tab (m : ModeState) (s : State) : (s.withMode m).tab = s.tab := rfl
@[simp] theorem State.withMode_key (m : ModeState) (s : State) : (s.withMode m).key = s.key := rfl
@[simp] theorem State.withMode_mem (m : ModeState) (s : State) : (s.withMode m).mem = s.mem := rfl
@[simp] theorem State.withMode_out (m : ModeState) (s : State) : (s.withMode m).out = s.out := rfl
@[simp] theorem State.withMode_mode (m : ModeState) (s : State) : (s.withMode m).mode = m := rfl
@[simp] theorem State.withMode_disp (m : ModeState) (s : State) : (s.withMode m).disp = s.disp :=
  rfl
@[simp] theorem State.withMode_conf (m : ModeState) (s : State) : (s.withMode m).conf = s.conf :=
  rfl
@[simp] theorem State.withMode_ext (m : ModeState) (s : State) : (s.withMode m).ext = s.ext := rfl

/-! ## endMode -/

@[simp] theorem State.endMode_cmd (s : State) : (s.endMode).cmd = s.cmd := rfl
@[simp] theorem State.endMode_status (s : State) : (s.endMode).status = s.status := rfl
@[simp] theorem State.endMode_regs (s : State) : (s.endMode).regs = s.regs := rfl
@[simp] theorem State.endMode_tab (s : State) : (s.endMode).tab = s.tab := rfl
@[simp] theorem State.endMode_key (s : State) : (s.endMode).key = s.key := rfl
@[simp] theorem State.endMode_mem (s : State) : (s.endMode).mem = s.mem := rfl
@[simp] theorem State.endMode_out (s : State) : (s.endMode).out = s.out := rfl
@[simp] theorem State.endMode_mode (s : State) : (s.endMode).mode = ModeState.cleared := rfl
@[simp] theorem State.endMode_disp (s : State) : (s.endMode).disp = none := rfl
@[simp] theorem State.endMode_conf (s : State) : (s.endMode).conf = s.conf := rfl
@[simp] theorem State.endMode_ext (s : State) : (s.endMode).ext = s.ext := rfl

/-! ## complete -/

@[simp] theorem State.complete_cmd (s : State) : (s.complete).cmd = none := rfl
@[simp] theorem State.complete_status (s : State) :
    (s.complete).status = { s.status with err := .none } :=
  rfl
@[simp] theorem State.complete_regs (s : State) : (s.complete).regs = s.regs := rfl
@[simp] theorem State.complete_tab (s : State) : (s.complete).tab = s.tab := rfl
@[simp] theorem State.complete_key (s : State) : (s.complete).key = s.key := rfl
@[simp] theorem State.complete_mem (s : State) : (s.complete).mem = s.mem := rfl
@[simp] theorem State.complete_out (s : State) : (s.complete).out = s.out := rfl
@[simp] theorem State.complete_mode (s : State) : (s.complete).mode = s.mode := rfl
@[simp] theorem State.complete_disp (s : State) : (s.complete).disp = s.disp := rfl
@[simp] theorem State.complete_conf (s : State) : (s.complete).conf = s.conf := rfl
@[simp] theorem State.complete_ext (s : State) : (s.complete).ext = s.ext := rfl

/-! ## deliver -/

@[simp] theorem State.deliver_cmd (r : List Byte) (s : State) : (s.deliver r).cmd = none := rfl
@[simp] theorem State.deliver_status (r : List Byte) (s : State) :
    (s.deliver r).status = { s.status with err := .none } :=
  rfl
@[simp] theorem State.deliver_regs (r : List Byte) (s : State) :
    (s.deliver r).regs = { s.regs with outlen := BitVec.ofNat 32 r.length } :=
  rfl
@[simp] theorem State.deliver_tab (r : List Byte) (s : State) : (s.deliver r).tab = s.tab := rfl
@[simp] theorem State.deliver_key (r : List Byte) (s : State) : (s.deliver r).key = s.key := rfl
@[simp] theorem State.deliver_mem (r : List Byte) (s : State) : (s.deliver r).mem = s.mem := rfl
@[simp] theorem State.deliver_out (r : List Byte) (s : State) :
    (s.deliver r).out = { cells := Memory.ofBytes outBase r, start := r.length, draw := s.ext.freeCursor } :=
  rfl
@[simp] theorem State.deliver_mode (r : List Byte) (s : State) : (s.deliver r).mode = s.mode := rfl
@[simp] theorem State.deliver_disp (r : List Byte) (s : State) : (s.deliver r).disp = s.disp := rfl
@[simp] theorem State.deliver_conf (r : List Byte) (s : State) : (s.deliver r).conf = s.conf := rfl
@[simp] theorem State.deliver_ext (r : List Byte) (s : State) :
    (s.deliver r).ext = { s.ext with freeCursor := s.ext.freeCursor + s.conf.outcap } :=
  rfl

/-! ## raise -/

@[simp] theorem State.raise_cmd (data : Bool) (e : ErrCode) (s : State) :
    (s.raise data e).cmd = none :=
  by cases data <;> rfl
@[simp] theorem State.raise_status (data : Bool) (e : ErrCode) (s : State) :
    (s.raise data e).status = { s.status with err := e, flt := true } :=
  by cases data <;> rfl
@[simp] theorem State.raise_tab (data : Bool) (e : ErrCode) (s : State) :
    (s.raise data e).tab = s.tab :=
  by cases data <;> rfl
@[simp] theorem State.raise_key (data : Bool) (e : ErrCode) (s : State) :
    (s.raise data e).key = s.key :=
  by cases data <;> rfl
@[simp] theorem State.raise_mem (data : Bool) (e : ErrCode) (s : State) :
    (s.raise data e).mem = s.mem :=
  by cases data <;> rfl
@[simp] theorem State.raise_mode (data : Bool) (e : ErrCode) (s : State) :
    (s.raise data e).mode = s.mode :=
  by cases data <;> rfl
@[simp] theorem State.raise_disp (data : Bool) (e : ErrCode) (s : State) :
    (s.raise data e).disp = s.disp :=
  by cases data <;> rfl
@[simp] theorem State.raise_conf (data : Bool) (e : ErrCode) (s : State) :
    (s.raise data e).conf = s.conf :=
  by cases data <;> rfl

/-! ## raise false -/

@[simp] theorem State.raise_false_regs (e : ErrCode) (s : State) :
    (s.raise false e).regs = s.regs :=
  rfl
@[simp] theorem State.raise_false_out (e : ErrCode) (s : State) :
    (s.raise false e).out = s.out :=
  rfl
@[simp] theorem State.raise_false_ext (e : ErrCode) (s : State) :
    (s.raise false e).ext = s.ext :=
  rfl

/-! ## raise true -/

@[simp] theorem State.raise_true_regs (e : ErrCode) (s : State) :
    (s.raise true e).regs = { s.regs with outlen := 0 } :=
  rfl
@[simp] theorem State.raise_true_out (e : ErrCode) (s : State) :
    (s.raise true e).out = { cells := [], start := 0, draw := s.ext.freeCursor } :=
  rfl
@[simp] theorem State.raise_true_ext (e : ErrCode) (s : State) :
    (s.raise true e).ext = { s.ext with freeCursor := s.ext.freeCursor + s.conf.outcap } :=
  rfl

/-! ## resetBlock -/

@[simp] theorem State.resetBlock_cmd (s : State) : (s.resetBlock).cmd = State.reset.cmd := rfl
@[simp] theorem State.resetBlock_status (s : State) : (s.resetBlock).status = State.reset.status :=
  rfl
@[simp] theorem State.resetBlock_regs (s : State) : (s.resetBlock).regs = State.reset.regs := rfl
@[simp] theorem State.resetBlock_tab (s : State) : (s.resetBlock).tab = State.reset.tab := rfl
@[simp] theorem State.resetBlock_key (s : State) : (s.resetBlock).key = State.reset.key := rfl
@[simp] theorem State.resetBlock_mem (s : State) : (s.resetBlock).mem = State.reset.mem := rfl
@[simp] theorem State.resetBlock_out (s : State) : (s.resetBlock).out = OutWindow.reset s.conf := rfl
@[simp] theorem State.resetBlock_mode (s : State) : (s.resetBlock).mode = State.reset.mode := rfl
@[simp] theorem State.resetBlock_disp (s : State) : (s.resetBlock).disp = State.reset.disp := rfl
@[simp] theorem State.resetBlock_conf (s : State) : (s.resetBlock).conf = s.conf := rfl
@[simp] theorem State.resetBlock_ext (s : State) : (s.resetBlock).ext = s.ext := rfl

/-! ## withPending -/

@[simp] theorem State.withPending_cmd (es : List Event) (s : State) :
    (s.withPending es).cmd = s.cmd :=
  rfl
@[simp] theorem State.withPending_status (es : List Event) (s : State) :
    (s.withPending es).status = s.status :=
  rfl
@[simp] theorem State.withPending_regs (es : List Event) (s : State) :
    (s.withPending es).regs = s.regs :=
  rfl
@[simp] theorem State.withPending_tab (es : List Event) (s : State) :
    (s.withPending es).tab = s.tab :=
  rfl
@[simp] theorem State.withPending_key (es : List Event) (s : State) :
    (s.withPending es).key = s.key :=
  rfl
@[simp] theorem State.withPending_mem (es : List Event) (s : State) :
    (s.withPending es).mem = s.mem :=
  rfl
@[simp] theorem State.withPending_out (es : List Event) (s : State) :
    (s.withPending es).out = s.out :=
  rfl
@[simp] theorem State.withPending_mode (es : List Event) (s : State) :
    (s.withPending es).mode = s.mode :=
  rfl
@[simp] theorem State.withPending_disp (es : List Event) (s : State) :
    (s.withPending es).disp = s.disp :=
  rfl
@[simp] theorem State.withPending_conf (es : List Event) (s : State) :
    (s.withPending es).conf = s.conf :=
  rfl
@[simp] theorem State.withPending_ext (es : List Event) (s : State) :
    (s.withPending es).ext = { s.ext with pending := es } :=
  rfl

/-! ## withRead -/

@[simp] theorem State.withRead_cmd (v : Word) (s : State) : (s.withRead v).cmd = s.cmd := rfl
@[simp] theorem State.withRead_status (v : Word) (s : State) : (s.withRead v).status = s.status :=
  rfl
@[simp] theorem State.withRead_regs (v : Word) (s : State) : (s.withRead v).regs = s.regs := rfl
@[simp] theorem State.withRead_tab (v : Word) (s : State) : (s.withRead v).tab = s.tab := rfl
@[simp] theorem State.withRead_key (v : Word) (s : State) : (s.withRead v).key = s.key := rfl
@[simp] theorem State.withRead_mem (v : Word) (s : State) : (s.withRead v).mem = s.mem := rfl
@[simp] theorem State.withRead_out (v : Word) (s : State) : (s.withRead v).out = s.out := rfl
@[simp] theorem State.withRead_mode (v : Word) (s : State) : (s.withRead v).mode = s.mode := rfl
@[simp] theorem State.withRead_disp (v : Word) (s : State) : (s.withRead v).disp = s.disp := rfl
@[simp] theorem State.withRead_conf (v : Word) (s : State) : (s.withRead v).conf = s.conf := rfl
@[simp] theorem State.withRead_ext (v : Word) (s : State) :
    (s.withRead v).ext = { s.ext with rdata := v } :=
  rfl

/-! ## failKeySetup -/

@[simp] theorem State.failKeySetup_cmd (e : ErrCode) (s : State) : (s.failKeySetup e).cmd = none :=
  rfl
@[simp] theorem State.failKeySetup_status (e : ErrCode) (s : State) :
    (s.failKeySetup e).status = { s.status with keyReady := false, err := e, flt := true } :=
  rfl
@[simp] theorem State.failKeySetup_regs (e : ErrCode) (s : State) :
    (s.failKeySetup e).regs = s.regs :=
  rfl
@[simp] theorem State.failKeySetup_tab (e : ErrCode) (s : State) : (s.failKeySetup e).tab = s.tab :=
  rfl
@[simp] theorem State.failKeySetup_key (e : ErrCode) (s : State) : (s.failKeySetup e).key = s.key :=
  rfl
@[simp] theorem State.failKeySetup_mem (e : ErrCode) (s : State) : (s.failKeySetup e).mem = s.mem :=
  rfl
@[simp] theorem State.failKeySetup_out (e : ErrCode) (s : State) : (s.failKeySetup e).out = s.out :=
  rfl
@[simp] theorem State.failKeySetup_mode (e : ErrCode) (s : State) :
    (s.failKeySetup e).mode = s.mode :=
  rfl
@[simp] theorem State.failKeySetup_disp (e : ErrCode) (s : State) :
    (s.failKeySetup e).disp = s.disp :=
  rfl
@[simp] theorem State.failKeySetup_conf (e : ErrCode) (s : State) :
    (s.failKeySetup e).conf = s.conf :=
  rfl
@[simp] theorem State.failKeySetup_ext (e : ErrCode) (s : State) : (s.failKeySetup e).ext = s.ext :=
  rfl

/-! ## skipFiller -/

@[simp] theorem State.skipFiller_cmd (p : Scheme) (s : State) : (s.skipFiller p).cmd = s.cmd := rfl
@[simp] theorem State.skipFiller_status (p : Scheme) (s : State) :
    (s.skipFiller p).status = s.status :=
  rfl
@[simp] theorem State.skipFiller_regs (p : Scheme) (s : State) : (s.skipFiller p).regs = s.regs :=
  rfl
@[simp] theorem State.skipFiller_tab (p : Scheme) (s : State) : (s.skipFiller p).tab = s.tab := rfl
@[simp] theorem State.skipFiller_key (p : Scheme) (s : State) : (s.skipFiller p).key = s.key := rfl
@[simp] theorem State.skipFiller_mem (p : Scheme) (s : State) : (s.skipFiller p).mem = s.mem := rfl
@[simp] theorem State.skipFiller_out (p : Scheme) (s : State) : (s.skipFiller p).out = s.out := rfl
@[simp] theorem State.skipFiller_mode (p : Scheme) (s : State) : (s.skipFiller p).mode = s.mode :=
  rfl
@[simp] theorem State.skipFiller_disp (p : Scheme) (s : State) : (s.skipFiller p).disp = s.disp :=
  rfl
@[simp] theorem State.skipFiller_conf (p : Scheme) (s : State) : (s.skipFiller p).conf = s.conf :=
  rfl
@[simp] theorem State.skipFiller_ext (p : Scheme) (s : State) :
    (s.skipFiller p).ext = { s.ext with rngCursor := s.ext.rngCursor + fillerCount p s.regs.inlen.toNat } :=
  rfl

/-! ## The two ways a MODE command runs its pieces -/

@[simp] theorem State.runSequential_cmd (f : BlockStep) (m : ModeState) (ps : List (List Byte))
    (s : State) : (s.runSequential f m ps).2.cmd = s.cmd :=
  rfl
@[simp] theorem State.runSequential_status (f : BlockStep) (m : ModeState) (ps : List (List Byte))
    (s : State) : (s.runSequential f m ps).2.status = s.status :=
  rfl
@[simp] theorem State.runSequential_regs (f : BlockStep) (m : ModeState) (ps : List (List Byte))
    (s : State) : (s.runSequential f m ps).2.regs = s.regs :=
  rfl
@[simp] theorem State.runSequential_tab (f : BlockStep) (m : ModeState) (ps : List (List Byte))
    (s : State) : (s.runSequential f m ps).2.tab = s.tab :=
  rfl
@[simp] theorem State.runSequential_key (f : BlockStep) (m : ModeState) (ps : List (List Byte))
    (s : State) : (s.runSequential f m ps).2.key = s.key :=
  rfl
@[simp] theorem State.runSequential_mem (f : BlockStep) (m : ModeState) (ps : List (List Byte))
    (s : State) : (s.runSequential f m ps).2.mem = s.mem :=
  rfl
@[simp] theorem State.runSequential_out (f : BlockStep) (m : ModeState) (ps : List (List Byte))
    (s : State) : (s.runSequential f m ps).2.out = s.out :=
  rfl
@[simp] theorem State.runSequential_disp (f : BlockStep) (m : ModeState) (ps : List (List Byte))
    (s : State) : (s.runSequential f m ps).2.disp = s.disp :=
  rfl
@[simp] theorem State.runSequential_conf (f : BlockStep) (m : ModeState) (ps : List (List Byte))
    (s : State) : (s.runSequential f m ps).2.conf = s.conf :=
  rfl
@[simp] theorem State.runSequential_ext (f : BlockStep) (m : ModeState) (ps : List (List Byte))
    (s : State) : (s.runSequential f m ps).2.ext = s.ext :=
  rfl

/-- The output of the sequential path is that of the loop. -/
theorem State.runSequential_fst (f : BlockStep) (m : ModeState) (ps : List (List Byte)) (s : State) :
    (s.runSequential f m ps).1 = (runBlocks f m ps).1 :=
  rfl

@[simp] theorem State.runDispatched_cmd (X : ChunkTransform) (src : List (List Byte)) (s : State) :
    (s.runDispatched X src).2.cmd = s.cmd :=
  rfl
@[simp] theorem State.runDispatched_status (X : ChunkTransform) (src : List (List Byte)) (s : State) :
    (s.runDispatched X src).2.status = s.status :=
  rfl
@[simp] theorem State.runDispatched_regs (X : ChunkTransform) (src : List (List Byte)) (s : State) :
    (s.runDispatched X src).2.regs = s.regs :=
  rfl
@[simp] theorem State.runDispatched_tab (X : ChunkTransform) (src : List (List Byte)) (s : State) :
    (s.runDispatched X src).2.tab = s.tab :=
  rfl
@[simp] theorem State.runDispatched_key (X : ChunkTransform) (src : List (List Byte)) (s : State) :
    (s.runDispatched X src).2.key = s.key :=
  rfl
@[simp] theorem State.runDispatched_mem (X : ChunkTransform) (src : List (List Byte)) (s : State) :
    (s.runDispatched X src).2.mem = s.mem :=
  rfl
@[simp] theorem State.runDispatched_out (X : ChunkTransform) (src : List (List Byte)) (s : State) :
    (s.runDispatched X src).2.out = s.out :=
  rfl
@[simp] theorem State.runDispatched_mode (X : ChunkTransform) (src : List (List Byte)) (s : State) :
    (s.runDispatched X src).2.mode = s.mode :=
  rfl
@[simp] theorem State.runDispatched_ext (X : ChunkTransform) (src : List (List Byte)) (s : State) :
    (s.runDispatched X src).2.ext = { s.ext with poolCursor := s.ext.poolCursor + 2 * src.length } :=
  rfl

@[simp] theorem State.runIndependent_cmd (par : Bool) (X : ChunkTransform) (f : BlockStep)
    (m : ModeState) (ps : List (List Byte)) (s : State) :
    (s.runIndependent par X f m ps).2.cmd = s.cmd := by
  cases par <;> rfl
@[simp] theorem State.runIndependent_status (par : Bool) (X : ChunkTransform) (f : BlockStep)
    (m : ModeState) (ps : List (List Byte)) (s : State) :
    (s.runIndependent par X f m ps).2.status = s.status := by
  cases par <;> rfl
@[simp] theorem State.runIndependent_regs (par : Bool) (X : ChunkTransform) (f : BlockStep)
    (m : ModeState) (ps : List (List Byte)) (s : State) :
    (s.runIndependent par X f m ps).2.regs = s.regs := by
  cases par <;> rfl
@[simp] theorem State.runIndependent_tab (par : Bool) (X : ChunkTransform) (f : BlockStep)
    (m : ModeState) (ps : List (List Byte)) (s : State) :
    (s.runIndependent par X f m ps).2.tab = s.tab := by
  cases par <;> rfl
@[simp] theorem State.runIndependent_key (par : Bool) (X : ChunkTransform) (f : BlockStep)
    (m : ModeState) (ps : List (List Byte)) (s : State) :
    (s.runIndependent par X f m ps).2.key = s.key := by
  cases par <;> rfl
@[simp] theorem State.runIndependent_mem (par : Bool) (X : ChunkTransform) (f : BlockStep)
    (m : ModeState) (ps : List (List Byte)) (s : State) :
    (s.runIndependent par X f m ps).2.mem = s.mem := by
  cases par <;> rfl
@[simp] theorem State.runIndependent_out (par : Bool) (X : ChunkTransform) (f : BlockStep)
    (m : ModeState) (ps : List (List Byte)) (s : State) :
    (s.runIndependent par X f m ps).2.out = s.out := by
  cases par <;> rfl

/-! ## The end of a MODE command -/

theorem State.finishMode_ok (out : List Byte) (s : State) :
    s.finishMode (.ok out) = s.endMode.deliver out :=
  rfl

theorem State.finishMode_error (e : ErrCode) (s : State) :
    s.finishMode (.error e) = s.endMode.raise true e :=
  rfl

@[simp] theorem State.finishMode_cmd (r : Except ErrCode (List Byte)) (s : State) :
    (s.finishMode r).cmd = none := by
  cases r <;> rfl
@[simp] theorem State.finishMode_tab (r : Except ErrCode (List Byte)) (s : State) :
    (s.finishMode r).tab = s.tab := by
  cases r <;> rfl
@[simp] theorem State.finishMode_key (r : Except ErrCode (List Byte)) (s : State) :
    (s.finishMode r).key = s.key := by
  cases r <;> rfl
@[simp] theorem State.finishMode_mem (r : Except ErrCode (List Byte)) (s : State) :
    (s.finishMode r).mem = s.mem := by
  cases r <;> rfl
@[simp] theorem State.finishMode_mode (r : Except ErrCode (List Byte)) (s : State) :
    (s.finishMode r).mode = ModeState.cleared := by
  cases r <;> rfl
@[simp] theorem State.finishMode_disp (r : Except ErrCode (List Byte)) (s : State) :
    (s.finishMode r).disp = none := by
  cases r <;> rfl
@[simp] theorem State.finishMode_conf (r : Except ErrCode (List Byte)) (s : State) :
    (s.finishMode r).conf = s.conf := by
  cases r <;> rfl

/-! ## Reset -/

@[simp] theorem State.reset_cmd : State.reset.cmd = none := rfl
@[simp] theorem State.reset_status : State.reset.status = Status.reset := rfl
@[simp] theorem State.reset_regs : State.reset.regs = Regs.reset := rfl
@[simp] theorem State.reset_mem : State.reset.mem = [] := rfl
@[simp] theorem State.reset_out : State.reset.out = OutWindow.reset Params.default := rfl
@[simp] theorem State.reset_mode : State.reset.mode = ModeState.cleared := rfl
@[simp] theorem State.reset_disp : State.reset.disp = none := rfl
@[simp] theorem State.reset_conf : State.reset.conf = Params.default := rfl
@[simp] theorem State.reset_key_n : State.reset.key.n = 0 := rfl

end Sys2Proof.Machine
end

