-- ==== Sys2Proof/Laws/Ops.lean ====
section
/-! SUPPORT. What each shared operation of the commands can do, said once. -/

namespace Sys2Proof.Machine

/-! ## What a command reads -/

theorem Memory.readBytes_eq (m : Memory) (a n : Nat) :
    Memory.readBytes m a n = (List.range n).map fun i => Memory.read m (a + i) := by
  induction n generalizing a with
  | zero => rfl
  | succ n ih =>
    rw [List.range_succ_eq_map, List.map_cons, List.map_map, Memory.readBytes, ih]
    congr 1
    exact List.map_congr_left fun i _ => by simp [Nat.add_comm, Nat.add_left_comm]

@[simp] theorem State.length_input (s : State) : s.input.length = s.regs.inlen.toNat := by
  simp [State.input]

@[simp] theorem State.length_ivBytes (s : State) (n : Nat) : (s.ivBytes n).length = n := by
  simp [State.ivBytes]

@[simp] theorem State.length_keyBytes (s : State) : s.keyBytes.length = s.regs.keylen.toNat := by
  simp [State.keyBytes]

theorem stream_eq (f : Nat → Byte) (i n : Nat) :
    stream f i n = (List.range n).map fun j => f (i + j) := by
  induction n generalizing i with
  | zero => rfl
  | succ n ih =>
    rw [List.range_succ_eq_map, List.map_cons, List.map_map, stream, ih]
    congr 1
    exact List.map_congr_left fun j _ => by simp [Nat.add_comm, Nat.add_left_comm]

@[simp] theorem length_stream (f : Nat → Byte) (i n : Nat) : (stream f i n).length = n := by
  simp [stream_eq]

@[simp] theorem State.length_drawn (n : Nat) (s : State) : (s.drawn n).length = n :=
  length_stream ..

/-! ## Padding -/

theorem padLen_le (n : Nat) : 1 ≤ padLen n ∧ padLen n ≤ 16 := by simp only [padLen]; omega

theorem add_padLen_mod (n : Nat) : (n + padLen n) % 16 = 0 := by simp only [padLen]; omega

/-- The length of a padded string. -/
theorem length_padBytes (p : Scheme) (filler d : List Byte)
    (h : filler.length = fillerCount p d.length) :
    (padBytes p filler d).length = d.length + padLen d.length := by
  have := padLen_le d.length
  cases p <;> simp [padBytes, fillerCount] at h ⊢ <;> omega

theorem stripZeros_length_le (d : List Byte) : (stripZeros d).length ≤ d.length := by
  induction d with
  | nil => simp [stripZeros]
  | cons b d ih =>
    simp only [stripZeros]
    split
    · split <;> simp
    · next h => rw [h] at ih; simpa using ih

/-- Unpadding never lengthens. -/
theorem length_unpadBytes_le {p : Scheme} {d r : List Byte} (h : unpadBytes p d = .ok r) :
    r.length ≤ d.length := by
  have trailer : ∀ p, unpadTrailer p d = .ok r → r.length ≤ d.length := by
    intro p h
    simp only [unpadTrailer] at h
    split at h
    · cases h
    · split at h
      · cases h
      · split at h
        · cases h
        · cases h; simp
  simp only [unpadBytes] at h
  split at h
  · cases h
  · cases p
    · cases h; exact stripZeros_length_le d
    all_goals exact trailer _ h

/-- What unpad can raise. -/
theorem unpadBytes_error {p : Scheme} {d : List Byte} {e : ErrCode} (h : unpadBytes p d = .error e) :
    e = .length ∨ e = .padding := by
  have trailer : ∀ p, unpadTrailer p d = .error e → e = .padding := by
    intro p h
    simp only [unpadTrailer] at h
    repeat (first | split at h | (cases h; rfl))
    cases h
  simp only [unpadBytes] at h
  split at h
  · cases h; exact .inl rfl
  · cases p
    · cases h
    all_goals exact .inr (trailer _ h)

/-- The padded input, as the claims write it. -/
theorem State.paddedInput_eq (p : Scheme) (s : State) : s.paddedInput p = s.pd p := by
  rw [State.paddedInput, State.pd, State.drawn, stream_eq]

theorem State.length_pd (p : Scheme) (s : State) :
    (s.pd p).length = s.regs.inlen.toNat + padLen s.regs.inlen.toNat := by
  rw [State.pd, length_padBytes] <;> simp

/-! ## How a data command ends -/

/-- The bounds of the capacities (R9). -/
theorem Params.capacities (P : Params) :
    16 ≤ P.bufcap.val ∧ P.bufcap.val ≤ 32752 ∧ P.outcap = 2 * P.bufcap.val + 32 :=
  ⟨P.bufcap.2.1, P.bufcap.2.2, rfl⟩

/-- A delivered result reads back, byte for byte. -/
theorem State.output_deliver (r : List Byte) (s : State) (h : r.length ≤ s.conf.outcap) :
    (s.deliver r).output = r := by
  have hcap := s.conf.capacities
  have hlen : (s.deliver r).regs.outlen.toNat = r.length := by
    simp [State.deliver, State.complete]; omega
  rw [State.output, hlen]
  apply List.ext_getElem (by simp)
  intro i hi _
  have hi' : i < r.length := by simpa using hi
  rw [List.getElem_map, List.getElem_range, State.readByte, State.deliver_conf,
    if_pos (by constructor <;> omega)]
  have := State.setOut_read r s i hi'
  rw [Nat.add_sub_cancel_left]
  show OutWindow.read (s.setOut r).out i = r[i]
  rw [this, List.getD_eq_getElem?_getD, List.getElem?_eq_getElem hi']
  rfl

/-- A data command that delivers `r`, from a state that differs from the start in transient state
only. -/
theorem dataDone_deliver {s u : State} {r : List Byte} {k : Nat} (h : r.length ≤ s.conf.outcap)
    (hregs : u.regs = s.regs) (hstatus : u.status = s.status) (hmem : u.mem = s.mem)
    (htab : u.tab = s.tab) (hkey : u.key = s.key) (hconf : u.conf = s.conf)
    (hrng : u.ext.rngCursor = s.ext.rngCursor + k) : DataDone s (u.deliver r) k r where
  output := State.output_deliver r u (hconf ▸ h)
  regs := by simp [State.deliver, State.complete, hregs]
  status := by simp [State.deliver, State.complete, hstatus]
  idle := rfl
  mem := hmem
  tab := htab
  key := hkey
  conf := by simpa using hconf
  drawn := hrng

/-- A data command that faults, from a state that differs from the start in transient state only. -/
theorem dataFault_raise {s u : State} {e : ErrCode} (hregs : u.regs = s.regs)
    (hstatus : u.status = s.status) (hmem : u.mem = s.mem) (htab : u.tab = s.tab)
    (hkey : u.key = s.key) (hconf : u.conf = s.conf) (hrng : u.ext.rngCursor = s.ext.rngCursor) :
    DataFault s (u.raise true e) e where
  regs := by simp [State.raise, hregs]
  status := by simp [State.raise, hstatus]
  idle := rfl
  mem := hmem
  tab := htab
  key := hkey
  conf := by simpa using hconf
  drawn := hrng

/-! ## The checks of a MODE command, as the claims write them -/

/-- The checks with the parameters written out. -/
theorem modeChecks_eq (r : ModeNeeds) (par : Bool) (s : State) : modeChecks r par s =
    [ (decide (s.conf.bufcap.val < s.regs.inlen.toNat), .illegalCommand),
      (!s.status.keyReady, .notReady),
      (par && !r.independent, .config),
      (par && !decide (1 ≤ s.regs.threads.toNat ∧ s.regs.threads.toNat ≤ s.conf.maxWorkers.val), .config),
      (r.usesSeg && !decide (1 ≤ s.regs.seg.toNat ∧ s.regs.seg.toNat ≤ 16), .config),
      (match r.ivLength with
        | none => false
        | some n => decide (s.regs.ivlen.toNat ≠ n), .ivLength),
      (match r.lengthUnit with
        | none => false
        | some m => decide (s.regs.inlen.toNat % m ≠ 0), .length) ] := rfl

theorem outside_range_iff (n m : Nat) : (1 ≤ n → m < n) ↔ (n = 0 ∨ m < n) := by omega

theorem firstFault_ecbEnc (par : Bool) (s : State) :
    firstFault (modeChecks ecbEncNeeds par s) = modeFault 0 false par s := by
  simp [modeChecks_eq, firstFault, ecbEncNeeds, modeFault, outside_range_iff]

theorem firstFault_ecbDec (par : Bool) (s : State) :
    firstFault (modeChecks ecbDecNeeds par s) = modeFault 0 true par s := by
  simp [modeChecks_eq, firstFault, ecbDecNeeds, modeFault, outside_range_iff]

theorem firstFault_cbcEnc (par : Bool) (s : State) :
    firstFault (modeChecks cbcEncNeeds par s) = modeFault 1 false par s := by
  simp [modeChecks_eq, firstFault, cbcEncNeeds, modeFault, outside_range_iff]

theorem firstFault_cbcDec (par : Bool) (s : State) :
    firstFault (modeChecks cbcDecNeeds par s) = modeFault 1 true par s := by
  simp [modeChecks_eq, firstFault, cbcDecNeeds, modeFault, outside_range_iff]

theorem firstFault_pcbcEnc (par : Bool) (s : State) :
    firstFault (modeChecks pcbcEncNeeds par s) = modeFault 2 false par s := by
  simp [modeChecks_eq, firstFault, pcbcEncNeeds, modeFault, outside_range_iff]

theorem firstFault_pcbcDec (par : Bool) (s : State) :
    firstFault (modeChecks pcbcDecNeeds par s) = modeFault 2 true par s := by
  simp [modeChecks_eq, firstFault, pcbcDecNeeds, modeFault, outside_range_iff]

theorem firstFault_cfbEnc (par : Bool) (s : State) :
    firstFault (modeChecks cfbNeeds par s) = modeFault 3 false par s := by
  simp [modeChecks_eq, firstFault, cfbNeeds, modeFault, outside_range_iff]

theorem firstFault_cfbDec (par : Bool) (s : State) :
    firstFault (modeChecks cfbNeeds par s) = modeFault 3 true par s := by
  simp [modeChecks_eq, firstFault, cfbNeeds, modeFault, outside_range_iff]

theorem firstFault_ofbEnc (par : Bool) (s : State) :
    firstFault (modeChecks ofbNeeds par s) = modeFault 4 false par s := by
  simp [modeChecks_eq, firstFault, ofbNeeds, modeFault, outside_range_iff]

theorem firstFault_ofbDec (par : Bool) (s : State) :
    firstFault (modeChecks ofbNeeds par s) = modeFault 4 true par s := by
  simp [modeChecks_eq, firstFault, ofbNeeds, modeFault, outside_range_iff]

theorem firstFault_ctrEnc (par : Bool) (s : State) :
    firstFault (modeChecks ctrNeeds par s) = modeFault 5 false par s := by
  simp [modeChecks_eq, firstFault, ctrNeeds, modeFault, outside_range_iff]

theorem firstFault_ctrDec (par : Bool) (s : State) :
    firstFault (modeChecks ctrNeeds par s) = modeFault 5 true par s := by
  simp [modeChecks_eq, firstFault, ctrNeeds, modeFault, outside_range_iff]

theorem firstFault_rdEnc (par : Bool) (s : State) :
    firstFault (modeChecks rdEncNeeds par s) = modeFault 6 false par s := by
  simp [modeChecks_eq, firstFault, rdEncNeeds, modeFault, outside_range_iff]

theorem firstFault_rdDec (par : Bool) (s : State) :
    firstFault (modeChecks rdDecNeeds par s) = modeFault 6 true par s := by
  simp [modeChecks_eq, firstFault, rdDecNeeds, modeFault, outside_range_iff]

/-- The checks of BLK.ENC and BLK.DEC with the parameter written out. -/
theorem blockChecks_eq (s : State) : blockChecks s =
    [ (decide (s.conf.bufcap.val < s.regs.inlen.toNat), .illegalCommand),
      (!s.status.keyReady, .notReady),
      (decide (s.regs.inlen.toNat ≠ 16), .blockSize) ] := rfl

theorem inputTooLong_eq (s : State) : s.inputTooLong = decide (s.conf.bufcap.val < s.regs.inlen.toNat) := rfl

end Sys2Proof.Machine
end

