-- ==== Sys2Proof/Laws/Pool.lean ====
section
/-! SUPPORT. What a move of the dispatcher can do, and the invariant every interleaving keeps
(spec/44_dispatcher.md R234 to R236). -/

namespace Sys2Proof.Machine

/-- The chunks that workers hold. -/
def Dispatcher.held (d : Dispatcher) : List Nat := d.workers.filterMap id

/-- A move that is possible: an idle worker takes the next chunk, or a worker finishes the chunk it
holds. -/
theorem mem_enabledFrom {qnext nchunk t0 : Nat} {ws : List (Option Nat)} {mv : PoolMove}
    (h : mv ∈ enabledFrom qnext nchunk t0 ws) :
    (∃ i, mv = .take (t0 + i) ∧ ws[i]? = some none ∧ qnext < nchunk) ∨
      ∃ i k, mv = .finish (t0 + i) k ∧ ws[i]? = some (some k) := by
  induction ws generalizing t0 with
  | nil => simp [enabledFrom] at h
  | cons w ws ih =>
    have shift : mv ∈ enabledFrom qnext nchunk (t0 + 1) ws →
        (∃ i, mv = .take (t0 + i) ∧ (w :: ws)[i]? = some none ∧ qnext < nchunk) ∨
          ∃ i k, mv = .finish (t0 + i) k ∧ (w :: ws)[i]? = some (some k) := by
      intro h
      rcases ih h with ⟨i, h1, h2, h3⟩ | ⟨i, k, h1, h2⟩
      · exact .inl ⟨i + 1, by rw [h1, Nat.add_assoc, Nat.add_comm 1], by simpa using h2, h3⟩
      · exact .inr ⟨i + 1, k, by rw [h1, Nat.add_assoc, Nat.add_comm 1], by simpa using h2⟩
    simp only [enabledFrom] at h
    split at h
    · rcases List.mem_cons.1 h with h | h
      · exact .inr ⟨0, _, by simpa using h, by simp⟩
      · exact shift h
    · split at h
      · next hlt =>
        rcases List.mem_cons.1 h with h | h
        · exact .inl ⟨0, by simpa using h, by simp, hlt⟩
        · exact shift h
      · exact shift h

/-- A worker that holds a chunk, or an idle worker while a chunk is left, can move. -/
theorem enabledFrom_ne_nil {qnext nchunk t0 : Nat} {ws : List (Option Nat)}
    (h : (∃ k, some k ∈ ws) ∨ (none ∈ ws ∧ qnext < nchunk)) :
    enabledFrom qnext nchunk t0 ws ≠ [] := by
  induction ws generalizing t0 with
  | nil => simp at h
  | cons w ws ih =>
    simp only [enabledFrom]
    split
    · simp
    · split
      · simp
      · refine ih ?_
        rcases h with ⟨k, hk⟩ | ⟨hn, hlt⟩
        · exact .inl ⟨k, by simpa using hk⟩
        · contradiction

/-- Taking a chunk adds it to the chunks held. -/
theorem held_set_some {ws : List (Option Nat)} {t q : Nat} (h : ws[t]? = some none) :
    ((ws.set t (some q)).filterMap id).Perm (q :: ws.filterMap id) := by
  induction ws generalizing t with
  | nil => simp at h
  | cons w ws ih =>
    cases t with
    | zero =>
      obtain rfl : w = none := by simpa using h
      simp
    | succ t =>
      have := ih (t := t) (by simpa using h)
      cases w with
      | none => simpa using this
      | some k => simpa using (this.cons k).trans (List.Perm.swap q k _)

/-- Finishing a chunk takes it away from the chunks held. -/
theorem held_set_none {ws : List (Option Nat)} {t k : Nat} (h : ws[t]? = some (some k)) :
    (ws.filterMap id).Perm (k :: (ws.set t none).filterMap id) := by
  induction ws generalizing t with
  | nil => simp at h
  | cons w ws ih =>
    cases t with
    | zero =>
      obtain rfl : w = some k := by simpa using h
      simp
    | succ t =>
      have := ih (t := t) (by simpa using h)
      cases w with
      | none => simpa using this
      | some j => simpa using (this.cons j).trans (List.Perm.swap k j _)

/-- What holds of the dispatcher in every interleaving: the chunks handed out are the first `qnext`;
those not finished are held, each by one worker; the slot of a finished chunk holds its transform and
the other slots are as they were (R234, R235). -/
structure Dispatcher.Ok (X : ChunkTransform) (src : List (List Byte)) (threads : Nat)
    (d : Dispatcher) : Prop where
  nchunk : d.nchunk = src.length
  workers : d.workers.length = threads
  nslots : d.slots.length = src.length
  qnext : d.qnext ≤ src.length
  nodup : d.held.Nodup
  held_lt : ∀ k ∈ d.held, k < d.qnext
  count : d.held.length + d.qdone = d.qnext
  slots : ∀ k < src.length, d.slots[k]? =
    some (if k < d.qnext ∧ k ∉ d.held then X k (src.getD k []) else [])

theorem Dispatcher.ok_start (X : ChunkTransform) (src : List (List Byte)) (threads : Nat) :
    (Dispatcher.start threads src.length).Ok X src threads := by
  have hh : (Dispatcher.start threads src.length).held = [] := by
    simp [Dispatcher.start, Dispatcher.held]
  refine ⟨rfl, by simp [Dispatcher.start], by simp [Dispatcher.start], Nat.zero_le _, ?_, ?_, ?_, ?_⟩
  · rw [hh]; exact List.nodup_nil
  · rw [hh]; simp
  · rw [hh]; rfl
  · intro k hk
    simp [Dispatcher.start, hk]

/-- Every possible move keeps the invariant and is one of the two moves a chunk gets. -/
theorem Dispatcher.ok_move {X : ChunkTransform} {src : List (List Byte)} {threads : Nat}
    {d : Dispatcher} (h : d.Ok X src threads) {mv : PoolMove} (hm : mv ∈ d.enabled) :
    (d.move X src mv).Ok X src threads ∧
      (d.move X src mv).qnext + (d.move X src mv).qdone = d.qnext + d.qdone + 1 := by
  rcases mem_enabledFrom hm with ⟨t, rfl, hw, hlt⟩ | ⟨t, k, rfl, hw⟩
  · rw [Nat.zero_add] at *
    have hp : ((d.move X src (.take t)).held).Perm (d.qnext :: d.held) := held_set_some hw
    have hlt' : d.qnext < src.length := h.nchunk ▸ hlt
    have hnot : d.qnext ∉ d.held := fun hq => Nat.lt_irrefl _ (h.held_lt _ hq)
    refine ⟨⟨h.nchunk, by simp [Dispatcher.move, h.workers], h.nslots, hlt', ?_, ?_, ?_, ?_⟩, ?_⟩
    · exact hp.nodup_iff.2 (List.nodup_cons.2 ⟨hnot, h.nodup⟩)
    · intro k hk
      rcases List.mem_cons.1 (hp.mem_iff.1 hk) with rfl | hk
      · exact Nat.lt_succ_self _
      · exact Nat.lt_succ_of_lt (h.held_lt k hk)
    · rw [hp.length_eq, List.length_cons]
      show d.held.length + 1 + d.qdone = d.qnext + 1
      rw [← h.count]; omega
    · intro k hk
      show d.slots[k]? = _
      rw [h.slots k hk]
      show _ = some (if k < d.qnext + 1 ∧ k ∉ (d.move X src (.take t)).held then _ else _)
      simp only [hp.mem_iff, List.mem_cons, not_or]
      congr 2
      by_cases hkq : k = d.qnext
      · simp [hkq]
      · simp [hkq]; intro _; omega
    · show d.qnext + 1 + d.qdone = _; omega
  · rw [Nat.zero_add] at *
    have hp : d.held.Perm (k :: (d.move X src (.finish t k)).held) := held_set_none hw
    have hkh : k ∈ d.held := hp.mem_iff.2 (by simp)
    have hkq := h.held_lt k hkh
    have hnd := List.nodup_cons.1 (hp.nodup_iff.1 h.nodup)
    have hks : k < d.slots.length := by rw [h.nslots]; exact Nat.lt_of_lt_of_le hkq h.qnext
    refine ⟨⟨h.nchunk, by simp [Dispatcher.move, h.workers], by simp [Dispatcher.move, h.nslots],
      h.qnext, hnd.2, ?_, ?_, ?_⟩, ?_⟩
    · intro j hj
      exact h.held_lt j (hp.mem_iff.2 (List.mem_cons_of_mem _ hj))
    · have := hp.length_eq
      rw [List.length_cons] at this
      show (d.move X src (.finish t k)).held.length + (d.qdone + 1) = d.qnext
      rw [← h.count]; omega
    · intro j hj
      show (d.slots.set k (X k (src.getD k [])))[j]? = _
      show _ = some (if j < d.qnext ∧ j ∉ (d.move X src (.finish t k)).held then _ else _)
      rw [List.getElem?_set]
      by_cases hkj : k = j
      · subst hkj
        simp [hks, hkq, hnd.1]
      · rw [if_neg hkj, h.slots j hj]
        simp only [hp.mem_iff, List.mem_cons, not_or]
        simp [Ne.symm hkj]
    · show d.qnext + (d.qdone + 1) = _; omega

/-- While a chunk is not finished some worker can move. -/
theorem Dispatcher.enabled_ne_nil {X : ChunkTransform} {src : List (List Byte)} {threads : Nat}
    {d : Dispatcher} (h : d.Ok X src threads) (ht : 1 ≤ threads)
    (hq : d.qnext + d.qdone < 2 * src.length) : d.enabled ≠ [] := by
  refine enabledFrom_ne_nil ?_
  have hc := h.count
  by_cases he : d.held = []
  · right
    rw [he, List.length_nil] at hc
    refine ⟨?_, by rw [h.nchunk]; omega⟩
    have hall : ∀ w ∈ d.workers, w = none := by
      intro w hw
      cases w with
      | none => rfl
      | some k =>
        have : k ∈ d.held := List.mem_filterMap.2 ⟨some k, hw, rfl⟩
        rw [he] at this; cases this
    obtain ⟨w, hw⟩ := List.exists_mem_of_length_pos (l := d.workers) (by rw [h.workers]; omega)
    exact hall w hw ▸ hw
  · left
    obtain ⟨k, hk⟩ := List.exists_mem_of_ne_nil _ he
    obtain ⟨w, hw, rfl⟩ := List.mem_filterMap.1 hk
    exact ⟨k, hw⟩

/-- Every interleaving keeps the invariant, and makes its moves while a chunk is not finished. -/
theorem Dispatcher.ok_run {X : ChunkTransform} {src : List (List Byte)} {threads : Nat}
    (choice : Nat → Nat) (n c : Nat) {d : Dispatcher} (h : d.Ok X src threads) (ht : 1 ≤ threads)
    (hn : d.qnext + d.qdone + n ≤ 2 * src.length) :
    (Dispatcher.run X src choice n c d).Ok X src threads ∧
      (Dispatcher.run X src choice n c d).qnext + (Dispatcher.run X src choice n c d).qdone
        = d.qnext + d.qdone + n := by
  induction n generalizing c d with
  | zero => exact ⟨h, rfl⟩
  | succ n ih =>
    have hne := Dispatcher.enabled_ne_nil h ht (by omega)
    have hlt : choice c % d.enabled.length < d.enabled.length :=
      Nat.mod_lt _ (List.length_pos_of_ne_nil hne)
    simp only [Dispatcher.run, List.getElem?_eq_getElem hlt]
    obtain ⟨hok, hq⟩ := Dispatcher.ok_move h (List.getElem_mem hlt)
    have := ih (c + 1) hok (by omega)
    exact ⟨this.1, by omega⟩

/-- The slots are no longer than the transform's results, whatever moves are made. -/
theorem Dispatcher.length_slots_le {X : ChunkTransform} {src : List (List Byte)} {m : Nat}
    (hX : ∀ k c, (X k c).length ≤ m) (choice : Nat → Nat) (n c : Nat) {d : Dispatcher}
    (h : ∀ s ∈ d.slots, s.length ≤ m) :
    (Dispatcher.run X src choice n c d).slots.length = d.slots.length ∧
      ∀ s ∈ (Dispatcher.run X src choice n c d).slots, s.length ≤ m := by
  induction n generalizing c d with
  | zero => exact ⟨rfl, h⟩
  | succ n ih =>
    simp only [Dispatcher.run]
    split
    · exact ⟨rfl, h⟩
    · next mv _ =>
      have hs : (d.move X src mv).slots.length = d.slots.length ∧
          ∀ s ∈ (d.move X src mv).slots, s.length ≤ m := by
        cases mv with
        | take t => exact ⟨rfl, h⟩
        | finish t k =>
          refine ⟨by simp [Dispatcher.move], fun s hs => ?_⟩
          rcases List.mem_or_eq_of_mem_set hs with hs | rfl
          · exact h s hs
          · exact hX _ _
      obtain ⟨h1, h2⟩ := ih (c + 1) hs.2
      exact ⟨h1.trans hs.1, h2⟩

/-- The dispatched path delivers no more than `m` bytes a chunk. -/
theorem State.length_runDispatched_le {X : ChunkTransform} {m : Nat}
    (hX : ∀ k c, (X k c).length ≤ m) (src : List (List Byte)) (s : State) :
    (s.runDispatched X src).1.length ≤ m * src.length := by
  have hs := Dispatcher.length_slots_le (src := src) hX Config.poolChoice (2 * src.length)
    s.ext.poolCursor (d := Dispatcher.start s.regs.threads.toNat src.length)
    (by simp [Dispatcher.start])
  have : ∀ l : List (List Byte), (∀ x ∈ l, x.length ≤ m) → l.flatten.length ≤ m * l.length := by
    intro l hl
    induction l with
    | nil => simp
    | cons x l ih =>
      rw [List.flatten_cons, List.length_append, List.length_cons, Nat.mul_succ]
      have := hl x (by simp)
      have := ih fun y hy => hl y (by simp [hy])
      omega
  have h := this _ hs.2
  rw [hs.1] at h
  simpa [State.runDispatched, Dispatcher.start] using h

end Sys2Proof.Machine
end

