-- ==== Sys2Proof/Laws/Commands.lean ====
section
/-! SUPPORT. Everything a data command can do, said once: it ends in `raise` or in `deliver`, from a
state that differs from the start in the transient state and the positions of the free sources only. -/

namespace Sys2Proof.Machine

/-- `u` differs from `s` at most in the transient state of a MODE command, the position in the random
source and the position in the free choices. -/
structure Transient (s u : State) : Prop where
  cmd : u.cmd = s.cmd
  status : u.status = s.status
  regs : u.regs = s.regs
  tab : u.tab = s.tab
  key : u.key = s.key
  mem : u.mem = s.mem
  out : u.out = s.out
  conf : u.conf = s.conf
  pending : u.ext.pending = s.ext.pending
  rdata : u.ext.rdata = s.ext.rdata

theorem Transient.refl (s : State) : Transient s s := ⟨rfl, rfl, rfl, rfl, rfl, rfl, rfl, rfl, rfl, rfl⟩

theorem Transient.trans {s u v : State} (h : Transient s u) (k : Transient u v) : Transient s v :=
  ⟨k.cmd.trans h.cmd, k.status.trans h.status, k.regs.trans h.regs, k.tab.trans h.tab,
    k.key.trans h.key, k.mem.trans h.mem, k.out.trans h.out, k.conf.trans h.conf, k.pending.trans h.pending,
    k.rdata.trans h.rdata⟩

theorem transient_skipDraws (n : Nat) (s : State) : Transient s (s.skipDraws n) :=
  ⟨rfl, rfl, rfl, rfl, rfl, rfl, rfl, rfl, rfl, rfl⟩

theorem transient_skipFiller (p : Scheme) (s : State) : Transient s (s.skipFiller p) :=
  transient_skipDraws ..

theorem transient_endMode (s : State) : Transient s s.endMode :=
  ⟨rfl, rfl, rfl, rfl, rfl, rfl, rfl, rfl, rfl, rfl⟩

theorem transient_runSequential (f : BlockStep) (m : ModeState) (ps : List (List Byte)) (s : State) :
    Transient s (s.runSequential f m ps).2 :=
  ⟨rfl, rfl, rfl, rfl, rfl, rfl, rfl, rfl, rfl, rfl⟩

theorem transient_runDispatched (X : ChunkTransform) (ps : List (List Byte)) (s : State) :
    Transient s (s.runDispatched X ps).2 :=
  ⟨rfl, rfl, rfl, rfl, rfl, rfl, rfl, rfl, rfl, rfl⟩

theorem transient_runIndependent (par : Bool) (X : ChunkTransform) (f : BlockStep) (m : ModeState)
    (ps : List (List Byte)) (s : State) : Transient s (s.runIndependent par X f m ps).2 := by
  cases par
  · exact transient_runSequential ..
  · exact transient_runDispatched ..

/-- How a data command that started in `s` ends in `t`: a fault, or a result that fits OUT; `m` and `d`
are the mode and dispatcher state it leaves. -/
def DataEnds (m : ModeState) (d : Option Dispatcher) (s t : State) : Prop :=
  ∃ u, Transient s u ∧ u.mode = m ∧ u.disp = d ∧
    ((∃ e, e ≠ .none ∧ t = u.raise true e) ∨
      ∃ r : List Byte, r.length ≤ s.conf.outcap ∧ t = u.deliver r)

/-- A MODE command whose work ends in `finishMode`. -/
theorem dataEnds_finishMode {s u : State} {r : Except ErrCode (List Byte)} (h : Transient s u)
    (hok : ∀ out, r = .ok out → out.length ≤ s.conf.outcap) (herr : ∀ e, r = .error e → e ≠ .none) :
    DataEnds ModeState.cleared none s (u.finishMode r) := by
  refine ⟨u.endMode, h.trans (transient_endMode u), rfl, rfl, ?_⟩
  cases r with
  | ok out => exact .inr ⟨out, hok out rfl, rfl⟩
  | error e => exact .inl ⟨e, herr e rfl, rfl⟩

/-- The checks never report "no fault". -/
theorem modeFault_ne_none {m : Nat} {dec par : Bool} {s : State} {e : ErrCode}
    (h : modeFault m dec par s = some e) : e ≠ .none := by
  unfold modeFault at h
  repeat (first | split at h | (cases h; decide))
  cases h

/-- The error reported is that of a check that failed. -/
theorem firstFault_some {cs : List (Bool × ErrCode)} {e : ErrCode} (h : firstFault cs = some e) :
    (true, e) ∈ cs := by
  induction cs with
  | nil => cases h
  | cons c cs ih =>
    obtain ⟨b, e'⟩ := c
    simp only [firstFault] at h
    split at h
    · next hb => cases h; simp [hb]
    · exact List.mem_cons_of_mem _ (ih h)

/-- No error is reported when no check failed. -/
theorem firstFault_none {cs : List (Bool × ErrCode)} (h : firstFault cs = none) :
    ∀ c ∈ cs, c.1 = false := by
  induction cs with
  | nil => simp
  | cons c cs ih =>
    obtain ⟨b, e'⟩ := c
    simp only [firstFault] at h
    split at h
    · cases h
    · next hb =>
      intro c hc
      rcases List.mem_cons.1 hc with rfl | hc
      · simpa using hb
      · exact ih h c hc

theorem firstFault_modeChecks_ne_none {r : ModeNeeds} {par : Bool} {s : State} {e : ErrCode}
    (h : firstFault (modeChecks r par s) = some e) : e ≠ .none := by
  have := firstFault_some h
  rintro rfl
  simp [modeChecks] at this

theorem firstFault_blockChecks_ne_none {s : State} {e : ErrCode}
    (h : firstFault (blockChecks s) = some e) : e ≠ .none := by
  have := firstFault_some h
  rintro rfl
  simp [blockChecks] at this

/-- The bounds the checks establish. -/
theorem checks_inlen {r : ModeNeeds} {par : Bool} {s : State}
    (h : firstFault (modeChecks r par s) = none) : s.regs.inlen.toNat ≤ s.conf.bufcap.val := by
  rw [modeChecks_eq] at h
  have := firstFault_none h (decide (s.conf.bufcap.val < s.regs.inlen.toNat), .illegalCommand) (by simp)
  simpa using this

/-- A MODE command: a fault of the checks, or its own work. -/
theorem dataEnds_modeCommand {needs : ModeNeeds} {par : Bool} {work : State → State} {s : State}
    (h : firstFault (modeChecks needs par s) = none → DataEnds ModeState.cleared none s (work s)) :
    ∃ t, modeCommand needs par work s = .next t ∧ DataEnds ModeState.cleared none s t := by
  unfold modeCommand
  split
  · next e he =>
    exact ⟨_, rfl, s.endMode, transient_endMode s, rfl, rfl,
      .inl ⟨e, firstFault_modeChecks_ne_none he, rfl⟩⟩
  · next hn => exact ⟨_, rfl, h hn⟩

theorem ok_of_eq {out r : List Byte} {n : Nat} (h : r.length ≤ n)
    (e : (Except.ok r : Except ErrCode (List Byte)) = .ok out) : out.length ≤ n := by
  cases e; exact h

/-- The blocks of a padded input fit. -/
theorem length_pieces_pd (p : Scheme) (s : State) (h : s.regs.inlen.toNat ≤ s.conf.bufcap.val) :
    16 * (pieces 16 (s.paddedInput p)).length ≤ s.conf.bufcap.val + 16 := by
  rw [length_pieces, State.paddedInput_eq, State.length_pd]
  have := padLen_le s.regs.inlen.toNat
  have := add_padLen_mod s.regs.inlen.toNat
  omega

theorem length_pieces_input (s : State) (h : s.regs.inlen.toNat ≤ s.conf.bufcap.val) :
    16 * (pieces 16 s.input).length ≤ s.conf.bufcap.val + 15 := by
  rw [length_pieces, State.length_input]; omega

/-- A MODE command whose checks pass does its work. -/
theorem modeCommand_pass {needs : ModeNeeds} {par : Bool} {work : State → State} {s : State}
    (h : firstFault (modeChecks needs par s) = none) :
    modeCommand needs par work s = .next (work s) := by
  unfold modeCommand; rw [h]

/-- A MODE command with a check that fails reports it. -/
theorem modeCommand_fail {needs : ModeNeeds} {par : Bool} {work : State → State} {s : State}
    {e : ErrCode} (h : firstFault (modeChecks needs par s) = some e) :
    modeCommand needs par work s = .next (s.endMode.raise true e) := by
  unfold modeCommand; rw [h]

/-- What holds when no check of a MODE command fails. -/
theorem modeFault_none {m : Nat} {dec par : Bool} {s : State} (h : modeFault m dec par s = none) :
    s.regs.inlen.toNat ≤ s.conf.bufcap.val ∧ s.status.keyReady = true ∧
      (par = true → (m = 0 ∨ m = 5) ∧ 1 ≤ s.regs.threads.toNat ∧ s.regs.threads.toNat ≤ s.conf.maxWorkers.val) ∧
      (m = 3 → 1 ≤ s.regs.seg.toNat ∧ s.regs.seg.toNat ≤ 16) ∧
      (m = 1 ∨ m = 2 ∨ m = 3 ∨ m = 4 → s.regs.ivlen.toNat = 16) ∧
      (m = 5 → s.regs.ivlen.toNat = 8) ∧
      (dec = true → m = 0 ∨ m = 1 ∨ m = 2 → s.regs.inlen.toNat % 16 = 0) ∧
      (dec = true → m = 6 → s.regs.inlen.toNat % 32 = 0) := by
  unfold modeFault at h
  split at h; · cases h
  next h1 =>
  split at h; · cases h
  next h2 =>
  split at h; · cases h
  next h3 =>
  split at h; · cases h
  next h4 =>
  split at h; · cases h
  next h5 =>
  split at h; · cases h
  next h6 =>
  split at h; · cases h
  next h7 =>
  split at h; · cases h
  next h8 =>
  split at h; · cases h
  next h9 =>
  refine ⟨by omega, by simpa using h2, fun hp => ⟨?_, ?_⟩, fun hm => ?_, fun hm => ?_, fun hm => ?_,
    fun hd hm => ?_, fun hd hm => ?_⟩
  · by_contra hc; exact h3 ⟨hp, by omega, by omega⟩
  · by_contra hc; exact h4 ⟨hp, hc⟩
  · by_contra hc; exact h5 ⟨hm, hc⟩
  · by_contra hc; exact h6 ⟨hm, hc⟩
  · by_contra hc; exact h7 ⟨hm, hc⟩
  · by_contra hc; exact h8 ⟨hd, hm, hc⟩
  · by_contra hc; exact h9 ⟨hd, hm, hc⟩

/-- The pieces of the padded input, by index. -/
theorem pieces_paddedInput (p : Scheme) (s : State) :
    pieces 16 (s.paddedInput p)
      = (List.range ((s.pd p).length / 16)).map (blockAt (s.pd p)) := by
  rw [State.paddedInput_eq, pieces_blocks, State.length_pd, blocks_of_whole (add_padLen_mod _)]

/-- The pieces of an input of whole blocks, by index. -/
theorem pieces_input {s : State} (h : s.regs.inlen.toNat % 16 = 0) :
    pieces 16 s.input = (List.range (s.regs.inlen.toNat / 16)).map (blockAt s.input) := by
  rw [pieces_blocks, State.length_input, blocks_of_whole h]

/-- The end of a MODE command, as the claims write it. -/
theorem dataDone_finishMode {s u : State} {r : List Byte} {k : Nat} (h : Transient s u)
    (hrng : u.ext.rngCursor = s.ext.rngCursor + k) (hr : r.length ≤ s.conf.outcap) :
    DataDone s (u.finishMode (.ok r)) k r :=
  dataDone_deliver hr h.regs h.status h.mem h.tab h.key h.conf hrng

theorem dataFault_finishMode {s u : State} {e : ErrCode} (h : Transient s u)
    (hrng : u.ext.rngCursor = s.ext.rngCursor) : DataFault s (u.finishMode (.error e)) e :=
  dataFault_raise h.regs h.status h.mem h.tab h.key h.conf hrng

section Works

variable {s : State}

theorem dataEnds_padThenRun (p : Scheme) (f : BlockStep) (m : ModeState)
    (hf : ∀ M b, (f M b).1.length ≤ 16) (h : s.regs.inlen.toNat ≤ s.conf.bufcap.val) :
    DataEnds ModeState.cleared none s (s.padThenRun p f m) := by
  refine dataEnds_finishMode ((transient_skipFiller p s).trans (transient_runSequential ..))
    (fun out ho => ok_of_eq ?_ ho) (fun e he => by cases he)
  refine (length_runBlocks_le hf _ _).trans ?_
  have := length_pieces_pd p s h
  have := s.conf.capacities
  omega

theorem dataEnds_runThenUnpad (p : Scheme) (u : Nat) (f : BlockStep) (m : ModeState)
    (hf : ∀ M b, (f M b).1.length ≤ 16) (hu' : 16 ≤ u)
    (h : s.regs.inlen.toNat ≤ s.conf.bufcap.val) : DataEnds ModeState.cleared none s (s.runThenUnpad p u f m) := by
  refine dataEnds_finishMode (transient_runSequential ..) (fun out ho => ?_) (fun e he => ?_)
  · refine (length_unpadBytes_le ho).trans ((length_runBlocks_le hf _ _).trans ?_)
    rw [length_pieces, State.length_input]
    have h1 : (s.regs.inlen.toNat + (u - 1)) / u ≤ (s.regs.inlen.toNat + 15) / 16 := by
      rw [Nat.div_le_iff_le_mul_add_pred (by omega)]
      have : s.regs.inlen.toNat ≤ 16 * ((s.regs.inlen.toNat + 15) / 16) := by omega
      have h2 := Nat.mul_le_mul_right ((s.regs.inlen.toNat + 15) / 16) hu'
      omega
    have := s.conf.capacities
    omega
  · rcases unpadBytes_error he with rfl | rfl <;> decide

theorem dataEnds_runUnpadded (u : Nat) (f : BlockStep) (m : ModeState)
    (hf : ∀ M b, (f M b).1.length ≤ b.length) (h : s.regs.inlen.toNat ≤ s.conf.bufcap.val) :
    DataEnds ModeState.cleared none s (s.runUnpadded u f m) := by
  refine dataEnds_finishMode (transient_runSequential ..) (fun out ho => ok_of_eq ?_ ho)
    (fun e he => by cases he)
  have hlen : ∀ (M : ModeState) (ps : List (List Byte)),
      (runBlocks f M ps).1.length ≤ ps.flatten.length := by
    intro M ps
    induction ps generalizing M with
    | nil => simp [runBlocks]
    | cons b bs ih =>
      simp only [runBlocks, List.length_append, List.flatten_cons]
      exact Nat.add_le_add (hf M b) (ih _)
  have hp : (pieces u s.input).flatten.length ≤ s.input.length := by
    rw [pieces_eq]
    have := assemble_segAt u s.input ((s.input.length + (u - 1)) / u)
    rw [assemble, List.flatMap_def] at this
    rw [this]
    simp
  refine (hlen _ _).trans (hp.trans ?_)
  rw [State.length_input]
  have := s.conf.capacities
  omega

end Works

theorem dataEnds_blockCommand {f : List Byte → List Byte} (hf : ∀ b, (f b).length = 16)
    (s : State) : ∃ t, blockCommand f s = .next t ∧ DataEnds s.mode s.disp s t := by
  unfold blockCommand
  split
  · next e he =>
    exact ⟨_, rfl, s, Transient.refl s, rfl, rfl,
      .inl ⟨e, firstFault_blockChecks_ne_none he, rfl⟩⟩
  · exact ⟨_, rfl, s, Transient.refl s, rfl, rfl, .inr ⟨_, by have := s.conf.capacities; rw [hf]; omega, rfl⟩⟩

theorem dataEnds_padCommand (p : Scheme) (s : State) :
    ∃ t, padCommand p s = .next t ∧ DataEnds s.mode s.disp s t := by
  unfold padCommand
  split
  · exact ⟨_, rfl, s, Transient.refl s, rfl, rfl, .inl ⟨_, by decide, rfl⟩⟩
  · next hn =>
    refine ⟨_, rfl, s.skipFiller p, transient_skipFiller p s, rfl, rfl, .inr ⟨_, ?_, rfl⟩⟩
    rw [State.paddedInput_eq, State.length_pd]
    have := padLen_le s.regs.inlen.toNat
    rw [inputTooLong_eq] at hn
    simp at hn
    have := s.conf.capacities
    omega

theorem dataEnds_unpadCommand (p : Scheme) (s : State) :
    ∃ t, unpadCommand p s = .next t ∧ DataEnds s.mode s.disp s t := by
  unfold unpadCommand
  split
  · exact ⟨_, rfl, s, Transient.refl s, rfl, rfl, .inl ⟨_, by decide, rfl⟩⟩
  · next hn =>
    rw [inputTooLong_eq] at hn
    simp at hn
    split
    · next e he =>
      refine ⟨_, rfl, s, Transient.refl s, rfl, rfl, .inl ⟨e, ?_, rfl⟩⟩
      rcases unpadBytes_error he with rfl | rfl <;> decide
    · next r hr =>
      refine ⟨_, rfl, s, Transient.refl s, rfl, rfl, .inr ⟨r, ?_, rfl⟩⟩
      refine (length_unpadBytes_le hr).trans ?_
      rw [State.length_input]
      have := s.conf.capacities
      omega

theorem length_runIndependent_le {par : Bool} {X : ChunkTransform} {f : BlockStep}
    (hX : ∀ k c, (X k c).length ≤ 16) (hf : ∀ M b, (f M b).1.length ≤ 16) (m : ModeState)
    (ps : List (List Byte)) (s : State) :
    (s.runIndependent par X f m ps).1.length ≤ 16 * ps.length := by
  cases par
  · exact length_runBlocks_le hf _ _
  · exact State.length_runDispatched_le hX _ _

theorem dataEnds_execEcbEnc (par : Bool) (p : Scheme) (s : State) :
    ∃ t, execEcbEnc par p s = .next t ∧ DataEnds ModeState.cleared none s t := by
  refine dataEnds_modeCommand fun hn => ?_
  refine dataEnds_finishMode ((transient_skipFiller p s).trans (transient_runIndependent ..))
    (fun out ho => ok_of_eq ?_ ho) (fun e he => by cases he)
  refine (length_runIndependent_le (fun k c => ?_) (fun M b => ?_) _ _ _).trans ?_
  · simp
  · simp [ecbStep]
  · have := length_pieces_pd p s (checks_inlen hn)
    have := s.conf.capacities
    omega

theorem dataEnds_execEcbDec (par : Bool) (p : Scheme) (s : State) :
    ∃ t, execEcbDec par p s = .next t ∧ DataEnds ModeState.cleared none s t := by
  refine dataEnds_modeCommand fun hn => ?_
  refine dataEnds_finishMode (transient_runIndependent ..) (fun out ho => ?_) (fun e he => ?_)
  · refine (length_unpadBytes_le ho).trans
      ((length_runIndependent_le (fun k c => ?_) (fun M b => ?_) _ _ _).trans ?_)
    · simp
    · simp [ecbStep]
    · have := length_pieces_input s (checks_inlen hn)
      have := s.conf.capacities
      omega
  · rcases unpadBytes_error he with rfl | rfl <;> decide

theorem dataEnds_runCtr (par : Bool) (s : State) :
    ∃ t, modeCommand ctrNeeds par (State.runCtr par) s = .next t ∧
      DataEnds ModeState.cleared none s t := by
  refine dataEnds_modeCommand fun hn => ?_
  refine dataEnds_finishMode (transient_runIndependent ..) (fun out ho => ok_of_eq ?_ ho)
    (fun e he => by cases he)
  refine (length_runIndependent_le (fun k c => ?_) (fun M b => ?_) _ _ _).trans ?_
  · simp [ctrChunk, firstBytes]
  · simp [ctrStep, firstBytes]
  · have := length_pieces_input s (checks_inlen hn)
    have := s.conf.capacities
    omega

theorem dataEnds_execRdEnc (par : Bool) (p : Scheme) (s : State) :
    ∃ t, execRdEnc par p s = .next t ∧ DataEnds ModeState.cleared none s t := by
  refine dataEnds_modeCommand fun hn => ?_
  refine dataEnds_finishMode (((transient_skipFiller p s).trans (transient_skipDraws ..)).trans
    (transient_runSequential ..)) (fun out ho => ok_of_eq ?_ ho) (fun e he => by cases he)
  have h32 : ∀ (E : List Byte → List Byte) (M : ModeState) (b : List Byte),
      (∀ b, (E b).length = 16) → (rdEncStep E M b).1.length ≤ 32 := by
    intro E M b hE; simp [rdEncStep, hE]
  refine (length_runBlocks_le (fun M b => h32 _ M b fun _ => rfl) _ _).trans ?_
  have h1 := length_pieces_pd p s (checks_inlen hn)
  have h2 : ∀ a b : List (List Byte), (rdUnits a b).length ≤ b.length := by
    intro a b; simp [rdUnits]
  have h3 := h2 (pieces 16 ((s.skipFiller p).drawn (16 * (pieces 16 (s.paddedInput p)).length)))
    (pieces 16 (s.paddedInput p))
  have := s.conf.capacities
  omega

/-- Every data command ends in a fault or in a result that fits OUT; a MODE command leaves no transient
state, the other data commands do not touch it. -/
theorem exec_data {i : Instr} (s : State) (hi : isDataCommand i = true) :
    ∃ t, exec i s = .next t ∧
      if (modeOf i).isSome then DataEnds ModeState.cleared none s t
      else DataEnds s.mode s.disp s t := by
  cases i <;> simp only [isDataCommand, Bool.false_eq_true] at hi <;>
    simp only [modeOf, Option.isSome_none, Option.isSome_some, if_true, Bool.false_eq_true, if_false,
      exec]
  case blkEnc => exact dataEnds_blockCommand (fun _ => length_encBlock ..) s
  case blkDec => exact dataEnds_blockCommand (fun _ => length_decBlock ..) s
  case padZero => exact dataEnds_padCommand _ s
  case padAnsi => exact dataEnds_padCommand _ s
  case padPkcs7 => exact dataEnds_padCommand _ s
  case padIso => exact dataEnds_padCommand _ s
  case unpadZero => exact dataEnds_unpadCommand _ s
  case unpadAnsi => exact dataEnds_unpadCommand _ s
  case unpadPkcs7 => exact dataEnds_unpadCommand _ s
  case unpadIso => exact dataEnds_unpadCommand _ s
  case ecbEnc par p => exact dataEnds_execEcbEnc par p s
  case ecbDec par p => exact dataEnds_execEcbDec par p s
  case cbcEnc par p =>
    exact dataEnds_modeCommand fun hn =>
      dataEnds_padThenRun p _ _ (fun M b => by simp [cbcEncStep]) (checks_inlen hn)
  case pcbcEnc par p =>
    exact dataEnds_modeCommand fun hn =>
      dataEnds_padThenRun p _ _ (fun M b => by simp [pcbcEncStep]) (checks_inlen hn)
  case cbcDec par p =>
    exact dataEnds_modeCommand fun hn => dataEnds_runThenUnpad p 16 _ _
      (fun M b => by simp [cbcDecStep]) (by omega) (checks_inlen hn)
  case pcbcDec par p =>
    exact dataEnds_modeCommand fun hn => dataEnds_runThenUnpad p 16 _ _
      (fun M b => by simp [pcbcDecStep]) (by omega) (checks_inlen hn)
  case rdDec par p =>
    exact dataEnds_modeCommand fun hn => dataEnds_runThenUnpad p 32 _ _
      (fun M b => by simp [rdDecStep]) (by omega) (checks_inlen hn)
  case cfbEnc par =>
    exact dataEnds_modeCommand fun hn => dataEnds_runUnpadded _ _ _
      (fun M b => by simp [cfbEncStep]) (checks_inlen hn)
  case cfbDec par =>
    exact dataEnds_modeCommand fun hn => dataEnds_runUnpadded _ _ _
      (fun M b => by simp [cfbDecStep]) (checks_inlen hn)
  case ofbEnc par =>
    exact dataEnds_modeCommand fun hn => dataEnds_runUnpadded _ _ _
      (fun M b => by simp [ofbStep]) (checks_inlen hn)
  case ofbDec par =>
    exact dataEnds_modeCommand fun hn => dataEnds_runUnpadded _ _ _
      (fun M b => by simp [ofbStep]) (checks_inlen hn)
  case ctrEnc par => exact dataEnds_runCtr par s
  case ctrDec par => exact dataEnds_runCtr par s
  case rdEnc par p => exact dataEnds_execRdEnc par p s

end Sys2Proof.Machine
end

