-- ==== Sys2Proof/Laws/Encoding.lean ====
section
/-! SUPPORT. The bits of a command word of each format, and the fields read back from it. -/

namespace Sys2Proof

/-! ## Bits -/

theorem getLsbD_wordZ (op : Byte) (i : Nat) :
    (wordZ op).getLsbD i =
      if i < 24 then false else op.getLsbD (i - 24) := by
  unfold wordZ
  erw [BitVec.getLsbD_append]
  simp only [BitVec.getLsbD_zero]

theorem getLsbD_wordF2 (op a b : Byte) (i : Nat) :
    (wordF2 op a b).getLsbD i =
      if i < 8 then a.getLsbD i else if i < 16 then b.getLsbD (i - 8) else
      if i < 24 then false else op.getLsbD (i - 24) := by
  unfold wordF2
  erw [BitVec.getLsbD_append, BitVec.getLsbD_append, BitVec.getLsbD_append]
  simp only [BitVec.getLsbD_zero]
  split_ifs <;> first | rfl | omega

theorem getLsbD_wordF1 (op a : Byte) (i : Nat) :
    (wordF1 op a).getLsbD i =
      if i < 8 then a.getLsbD i else if i < 24 then false else op.getLsbD (i - 24) := by
  unfold wordF1
  erw [BitVec.getLsbD_append, BitVec.getLsbD_append]
  simp only [BitVec.getLsbD_zero]
  split_ifs <;> first | rfl | omega

theorem getLsbD_wordFP (op a : Byte) (n : Nat) (i : Nat) :
    (wordFP op a n).getLsbD i =
      if i < 8 then a.getLsbD i else if i < 24 then (BitVec.ofNat 16 n).getLsbD (i - 8) else
      op.getLsbD (i - 24) := by
  unfold wordFP
  erw [BitVec.getLsbD_append, BitVec.getLsbD_append]
  split_ifs <;> first | rfl | omega

theorem getLsbD_wordMP (op : Byte) (par : Bool) (pad : Scheme) (i : Nat) :
    (wordMP op par pad).getLsbD i =
      if i < 2 then (schemeCode pad).getLsbD i else if i < 8 then false else if i < 9 then par else
      if i < 24 then false else op.getLsbD (i - 24) := by
  unfold wordMP
  erw [BitVec.getLsbD_append, BitVec.getLsbD_append, BitVec.getLsbD_append, BitVec.getLsbD_append]
  simp only [BitVec.getLsbD_zero, BitVec.getLsbD_ofBool]
  split_ifs <;> first | rfl | omega | (simp; omega)

theorem getLsbD_wordMU (op : Byte) (par : Bool) (i : Nat) :
    (wordMU op par).getLsbD i =
      if i < 8 then false else if i < 9 then par else if i < 24 then false else
      op.getLsbD (i - 24) := by
  unfold wordMU
  erw [BitVec.getLsbD_append, BitVec.getLsbD_append, BitVec.getLsbD_append]
  simp only [BitVec.getLsbD_zero, BitVec.getLsbD_ofBool]
  split_ifs <;> first | rfl | omega | (simp; omega)

theorem getLsbD_wordM7 (op : Byte) (low : BitVec 24) (i : Nat) :
    (wordM7 op low).getLsbD i =
      if i < 24 then low.getLsbD i else op.getLsbD (i - 24) := by
  unfold wordM7
  erw [BitVec.getLsbD_append]

/-! ## Fields -/

@[simp] theorem fieldOp_wordZ (op : Byte) :
    fieldOp (wordZ op) = op := by
  ext i hi
  rw [fieldOp, BitVec.getElem_extractLsb', getLsbD_wordZ, ← BitVec.getLsbD_eq_getElem]
  split_ifs <;> first | omega | (congr 1; omega)

@[simp] theorem fieldOp_wordF2 (op a b : Byte) :
    fieldOp (wordF2 op a b) = op := by
  ext i hi
  rw [fieldOp, BitVec.getElem_extractLsb', getLsbD_wordF2, ← BitVec.getLsbD_eq_getElem]
  split_ifs <;> first | omega | (congr 1; omega)

@[simp] theorem fieldA_wordF2 (op a b : Byte) :
    fieldA (wordF2 op a b) = a := by
  ext i hi
  rw [fieldA, BitVec.getElem_extractLsb', getLsbD_wordF2, ← BitVec.getLsbD_eq_getElem]
  split_ifs <;> first | omega | (congr 1; omega)

@[simp] theorem fieldB_wordF2 (op a b : Byte) :
    fieldB (wordF2 op a b) = b := by
  ext i hi
  rw [fieldB, BitVec.getElem_extractLsb', getLsbD_wordF2, ← BitVec.getLsbD_eq_getElem]
  split_ifs <;> first | omega | (congr 1; omega)

@[simp] theorem fieldOp_wordF1 (op a : Byte) :
    fieldOp (wordF1 op a) = op := by
  ext i hi
  rw [fieldOp, BitVec.getElem_extractLsb', getLsbD_wordF1, ← BitVec.getLsbD_eq_getElem]
  split_ifs <;> first | omega | (congr 1; omega)

@[simp] theorem fieldA_wordF1 (op a : Byte) :
    fieldA (wordF1 op a) = a := by
  ext i hi
  rw [fieldA, BitVec.getElem_extractLsb', getLsbD_wordF1, ← BitVec.getLsbD_eq_getElem]
  split_ifs <;> first | omega | (congr 1; omega)

@[simp] theorem fieldOp_wordFP (op a : Byte) (n : Nat) :
    fieldOp (wordFP op a n) = op := by
  ext i hi
  rw [fieldOp, BitVec.getElem_extractLsb', getLsbD_wordFP, ← BitVec.getLsbD_eq_getElem]
  split_ifs <;> first | omega | (congr 1; omega)

@[simp] theorem fieldA_wordFP (op a : Byte) (n : Nat) :
    fieldA (wordFP op a n) = a := by
  ext i hi
  rw [fieldA, BitVec.getElem_extractLsb', getLsbD_wordFP, ← BitVec.getLsbD_eq_getElem]
  split_ifs <;> first | omega | (congr 1; omega)

@[simp] theorem fieldN_wordFP (op a : Byte) (n : Nat) :
    fieldN (wordFP op a n) = n % 2 ^ 16 := by
  have h : (wordFP op a n).extractLsb' 8 16 = BitVec.ofNat 16 n := by
    ext i hi
    rw [BitVec.getElem_extractLsb', getLsbD_wordFP, ← BitVec.getLsbD_eq_getElem]
    split_ifs <;> first | omega | (congr 1; omega)
  rw [fieldN, h, BitVec.toNat_ofNat]

@[simp] theorem fieldOp_wordMP (op : Byte) (par : Bool) (pad : Scheme) :
    fieldOp (wordMP op par pad) = op := by
  ext i hi
  rw [fieldOp, BitVec.getElem_extractLsb', getLsbD_wordMP, ← BitVec.getLsbD_eq_getElem]
  split_ifs <;> first | omega | (congr 1; omega)

@[simp] theorem fieldPar_wordMP (op : Byte) (par : Bool) (pad : Scheme) :
    fieldPar (wordMP op par pad) = par := by
  rw [fieldPar, getLsbD_wordMP]
  rfl

@[simp] theorem fieldPad_wordMP (op : Byte) (par : Bool) (pad : Scheme) :
    fieldPad (wordMP op par pad) = pad := by
  have h : (wordMP op par pad).extractLsb' 0 2 = schemeCode pad := by
    ext i hi
    rw [BitVec.getElem_extractLsb', getLsbD_wordMP, ← BitVec.getLsbD_eq_getElem]
    split_ifs <;> first | omega | (congr 1; omega)
  rw [fieldPad, h]
  cases pad <;> rfl

@[simp] theorem fieldOp_wordMU (op : Byte) (par : Bool) :
    fieldOp (wordMU op par) = op := by
  ext i hi
  rw [fieldOp, BitVec.getElem_extractLsb', getLsbD_wordMU, ← BitVec.getLsbD_eq_getElem]
  split_ifs <;> first | omega | (congr 1; omega)

@[simp] theorem fieldPar_wordMU (op : Byte) (par : Bool) :
    fieldPar (wordMU op par) = par := by
  rw [fieldPar, getLsbD_wordMU]
  rfl

@[simp] theorem fieldOp_wordM7 (op : Byte) (low : BitVec 24) :
    fieldOp (wordM7 op low) = op := by
  ext i hi
  rw [fieldOp, BitVec.getElem_extractLsb', getLsbD_wordM7, ← BitVec.getLsbD_eq_getElem]
  split_ifs <;> first | omega | (congr 1; omega)

@[simp] theorem fieldLow_wordM7 (op : Byte) (low : BitVec 24) :
    fieldLow (wordM7 op low) = low := by
  ext i hi
  rw [fieldLow, BitVec.getElem_extractLsb', getLsbD_wordM7, ← BitVec.getLsbD_eq_getElem]
  split_ifs <;> first | omega | (congr 1; omega)

/-! ## The must-be-zero bits are zero -/

@[simp] theorem wordZ_and_zeroBitsZ (op : Byte) :
    wordZ op &&& zeroBitsZ = 0 := by
  refine BitVec.eq_of_getLsbD_eq fun i hi => ?_
  rw [BitVec.getLsbD_and, getLsbD_wordZ]
  interval_cases i <;> simp [zeroBitsZ]

@[simp] theorem wordF2_and_zeroBitsF2 (op a b : Byte) :
    wordF2 op a b &&& zeroBitsF2 = 0 := by
  refine BitVec.eq_of_getLsbD_eq fun i hi => ?_
  rw [BitVec.getLsbD_and, getLsbD_wordF2]
  interval_cases i <;> simp [zeroBitsF2]

@[simp] theorem wordF1_and_zeroBitsF1 (op a : Byte) :
    wordF1 op a &&& zeroBitsF1 = 0 := by
  refine BitVec.eq_of_getLsbD_eq fun i hi => ?_
  rw [BitVec.getLsbD_and, getLsbD_wordF1]
  interval_cases i <;> simp [zeroBitsF1]

@[simp] theorem wordMP_and_zeroBitsMP (op : Byte) (par : Bool) (pad : Scheme) :
    wordMP op par pad &&& zeroBitsMP = 0 := by
  refine BitVec.eq_of_getLsbD_eq fun i hi => ?_
  rw [BitVec.getLsbD_and, getLsbD_wordMP]
  interval_cases i <;> simp [zeroBitsMP]

@[simp] theorem wordMU_and_zeroBitsMU (op : Byte) (par : Bool) :
    wordMU op par &&& zeroBitsMU = 0 := by
  refine BitVec.eq_of_getLsbD_eq fun i hi => ?_
  rw [BitVec.getLsbD_and, getLsbD_wordMU]
  interval_cases i <;> simp [zeroBitsMU]

/-! ## A word is put together again from its fields -/

theorem getLsbD_of_and_zero {w z : Word} (h : w &&& z = 0) (i : Nat) (hz : z.getLsbD i = true) :
    w.getLsbD i = false := by
  have := congrArg (fun v : Word => v.getLsbD i) h
  simpa [hz] using this

theorem schemeCode_fieldPad (w : Word) : schemeCode (fieldPad w) = w.extractLsb' 0 2 := by
  have : ∀ c : BitVec 2, schemeCode (schemeOfCode c) = c := by decide
  exact this _

theorem ofNat_fieldN (w : Word) : BitVec.ofNat 16 (fieldN w) = w.extractLsb' 8 16 := by
  rw [fieldN, BitVec.ofNat_toNat, BitVec.setWidth_eq]

theorem wordZ_fields (w : Word) (h : w &&& zeroBitsZ = 0) :
    wordZ (fieldOp w) = w := by
  refine BitVec.eq_of_getLsbD_eq fun i hi => ?_
  rw [getLsbD_wordZ]
  have hz := getLsbD_of_and_zero h i
  revert hz
  interval_cases i <;> simp [zeroBitsZ, fieldOp]

theorem wordF2_fields (w : Word) (h : w &&& zeroBitsF2 = 0) :
    wordF2 (fieldOp w) (fieldA w) (fieldB w) = w := by
  refine BitVec.eq_of_getLsbD_eq fun i hi => ?_
  rw [getLsbD_wordF2]
  have hz := getLsbD_of_and_zero h i
  revert hz
  interval_cases i <;> simp [zeroBitsF2, fieldOp, fieldA, fieldB]

theorem wordF1_fields (w : Word) (h : w &&& zeroBitsF1 = 0) :
    wordF1 (fieldOp w) (fieldA w) = w := by
  refine BitVec.eq_of_getLsbD_eq fun i hi => ?_
  rw [getLsbD_wordF1]
  have hz := getLsbD_of_and_zero h i
  revert hz
  interval_cases i <;> simp [zeroBitsF1, fieldOp, fieldA]

theorem wordFP_fields (w : Word) :
    wordFP (fieldOp w) (fieldA w) (fieldN w) = w := by
  refine BitVec.eq_of_getLsbD_eq fun i hi => ?_
  rw [getLsbD_wordFP]
  interval_cases i <;> simp [fieldOp, fieldA, ofNat_fieldN]

theorem wordMP_fields (w : Word) (h : w &&& zeroBitsMP = 0) :
    wordMP (fieldOp w) (fieldPar w) (fieldPad w) = w := by
  refine BitVec.eq_of_getLsbD_eq fun i hi => ?_
  rw [getLsbD_wordMP]
  have hz := getLsbD_of_and_zero h i
  revert hz
  interval_cases i <;> simp [zeroBitsMP, fieldOp, fieldPar, schemeCode_fieldPad]

theorem wordMU_fields (w : Word) (h : w &&& zeroBitsMU = 0) :
    wordMU (fieldOp w) (fieldPar w) = w := by
  refine BitVec.eq_of_getLsbD_eq fun i hi => ?_
  rw [getLsbD_wordMU]
  have hz := getLsbD_of_and_zero h i
  revert hz
  interval_cases i <;> simp [zeroBitsMU, fieldOp, fieldPar]

theorem wordM7_fields (w : Word) :
    wordM7 (fieldOp w) (fieldLow w) = w := by
  refine BitVec.eq_of_getLsbD_eq fun i hi => ?_
  rw [getLsbD_wordM7]
  interval_cases i <;> simp [fieldOp, fieldLow]

end Sys2Proof
end

