-- ==== Sys2Proof/Laws/Field.lean ====
section
/-! SUPPORT. The laws of the Field Engine: multiply-reduce is a commutative, associative product, the
powers of an element of order 255 are all non-zero bytes, and what the tables hold. -/

namespace Sys2Proof.Machine

/-! ## Bytes under exclusive or -/

theorem byte_xor_cancel (x q : Byte) : q ^^^ (q ^^^ x) = x := by
  rw [← BitVec.xor_assoc, BitVec.xor_self, BitVec.zero_xor]

theorem byte_xor_swap (a b c d : Byte) : (a ^^^ b) ^^^ (c ^^^ d) = (a ^^^ c) ^^^ (b ^^^ d) := by
  rw [BitVec.xor_assoc, BitVec.xor_assoc, ← BitVec.xor_assoc b, BitVec.xor_comm b c,
    BitVec.xor_assoc c]

/-- Two linear functions that agree on the eight one-bit bytes agree. -/
theorem linear_ext {f g : Byte → Byte} (hf : ∀ a b, f (a ^^^ b) = f a ^^^ f b)
    (hg : ∀ a b, g (a ^^^ b) = g a ^^^ g b)
    (h : ∀ i < 8, f (1#8 <<< i) = g (1#8 <<< i)) (a : Byte) : f a = g a := by
  have f0 : f 0 = 0 := by have := hf 0 0; rw [BitVec.xor_self, BitVec.xor_self] at this; exact this
  have g0 : g 0 = 0 := by have := hg 0 0; rw [BitVec.xor_self, BitVec.xor_self] at this; exact this
  have hbit : ∀ (i : Nat), i < 8 → ∀ c : Bool,
      f (if c then 1#8 <<< i else 0) = g (if c then 1#8 <<< i else 0) := by
    intro i hi c; cases c
    · exact f0.trans g0.symm
    · exact h i hi
  have split : a = (if a.getLsbD 0 then 1#8 <<< 0 else 0) ^^^ (if a.getLsbD 1 then 1#8 <<< 1 else 0) ^^^
      (if a.getLsbD 2 then 1#8 <<< 2 else 0) ^^^ (if a.getLsbD 3 then 1#8 <<< 3 else 0) ^^^
      (if a.getLsbD 4 then 1#8 <<< 4 else 0) ^^^ (if a.getLsbD 5 then 1#8 <<< 5 else 0) ^^^
      (if a.getLsbD 6 then 1#8 <<< 6 else 0) ^^^ (if a.getLsbD 7 then 1#8 <<< 7 else 0) := by
    revert a; decide +kernel
  rw [split]
  simp only [hf, hg]
  rw [hbit 0 (by decide), hbit 1 (by decide), hbit 2 (by decide), hbit 3 (by decide),
    hbit 4 (by decide), hbit 5 (by decide), hbit 6 (by decide), hbit 7 (by decide)]

/-! ## Doubling and multiply-reduce are linear -/

theorem xtime_eq (v : Byte) (p : BitVec 9) :
    xtime v p = v <<< 1 ^^^ if v.getLsbD 7 then p.setWidth 8 else 0 := by
  have hbit : (v.setWidth 9 <<< 1).getLsbD 8 = v.getLsbD 7 := by simp
  simp only [xtime, hbit]
  have hs : (v.setWidth 9 <<< 1).setWidth 8 = v <<< 1 := by
    ext i hi
    rcases i with _ | i <;> simp [BitVec.getElem_shiftLeft]
  split
  · rw [BitVec.setWidth_xor, hs]
  · rw [hs]; simp

theorem xtime_xor (a b : Byte) (p : BitVec 9) : xtime (a ^^^ b) p = xtime a p ^^^ xtime b p := by
  have h7 : (a ^^^ b).getLsbD 7 = (a.getLsbD 7 ^^ b.getLsbD 7) := BitVec.getLsbD_xor
  rw [xtime_eq, xtime_eq, xtime_eq, h7, BitVec.shiftLeft_xor_distrib, byte_xor_swap]
  cases a.getLsbD 7 <;> cases b.getLsbD 7 <;> simp

theorem xtime_zero (p : BitVec 9) : xtime 0 p = 0 := by simp [xtime_eq]

/-- The accumulator of the loop of R112 is only added to. -/
theorem pmulredLoop_acc (b : Byte) (p : BitVec 9) (n i : Nat) (a r : Byte) :
    pmulredLoop b p n i a r = r ^^^ pmulredLoop b p n i a 0 := by
  induction n generalizing i a r with
  | zero => simp [pmulredLoop]
  | succ n ih =>
    simp only [pmulredLoop]
    rw [ih, ih (r := if b.getLsbD i = true then 0 ^^^ a else 0)]
    split <;> simp [BitVec.xor_assoc]

theorem pmulredLoop_xor_left (b : Byte) (p : BitVec 9) (n i : Nat) (a c : Byte) :
    pmulredLoop b p n i (a ^^^ c) 0 = pmulredLoop b p n i a 0 ^^^ pmulredLoop b p n i c 0 := by
  induction n generalizing i a c with
  | zero => simp [pmulredLoop]
  | succ n ih =>
    simp only [pmulredLoop]
    rw [pmulredLoop_acc, pmulredLoop_acc b p n _ (xtime a p), pmulredLoop_acc b p n _ (xtime c p),
      xtime_xor, ih, byte_xor_swap]
    split <;> simp

theorem pmulredLoop_xor_right (b d : Byte) (p : BitVec 9) (n i : Nat) (a : Byte) :
    pmulredLoop (b ^^^ d) p n i a 0 = pmulredLoop b p n i a 0 ^^^ pmulredLoop d p n i a 0 := by
  induction n generalizing i a with
  | zero => simp [pmulredLoop]
  | succ n ih =>
    simp only [pmulredLoop]
    rw [pmulredLoop_acc, pmulredLoop_acc b, pmulredLoop_acc d, ih, byte_xor_swap,
      BitVec.getLsbD_xor]
    congr 1
    cases b.getLsbD i <;> cases d.getLsbD i <;> simp

theorem pmulred_xor_left (a c b : Byte) (p : BitVec 9) :
    pmulred (a ^^^ c) b p = pmulred a b p ^^^ pmulred c b p := pmulredLoop_xor_left ..

theorem pmulred_xor_right (a b d : Byte) (p : BitVec 9) :
    pmulred a (b ^^^ d) p = pmulred a b p ^^^ pmulred a d p := pmulredLoop_xor_right ..

theorem pmulred_zero_right (a : Byte) (p : BitVec 9) : pmulred a 0 p = 0 := by
  simp [pmulred, pmulredLoop]

theorem pmulred_zero_left (a : Byte) (p : BitVec 9) : pmulred 0 a p = 0 := by
  have := pmulred_xor_left 0 0 a p
  rw [BitVec.xor_self, BitVec.xor_self] at this
  exact this

theorem pmulred_one_right (a : Byte) (p : BitVec 9) : pmulred a 1 p = a := by
  simp [pmulred, pmulredLoop]

/-! ## Multiply-reduce is commutative and associative, for every modulus -/

/-- A product with a one-bit byte is a repeated doubling. -/
theorem pmulred_bit (a : Byte) (p : BitVec 9) {j : Nat} (hj : j < 8) :
    pmulred a (1#8 <<< j) p = (fun v => xtime v p)^[j] a := by
  interval_cases j <;> simp [pmulred, pmulredLoop]

theorem xtime_bit (p : BitVec 9) {i : Nat} (hi : i < 7) :
    xtime (1#8 <<< i) p = 1#8 <<< (i + 1) := by
  have : (1#8 <<< i).getLsbD 7 = false := by interval_cases i <;> rfl
  rw [xtime_eq, this]
  simp [BitVec.shiftLeft_add]

/-- A one-bit byte is a repeated doubling of 1. -/
theorem bit_eq_iterate (p : BitVec 9) {i : Nat} (hi : i < 8) :
    1#8 <<< i = (fun v => xtime v p)^[i] 1 := by
  induction i with
  | zero => rfl
  | succ i ih => rw [Function.iterate_succ_apply', ← ih (by omega), xtime_bit p (by omega)]

theorem pmulred_bits (p : BitVec 9) {i j : Nat} (hi : i < 8) (hj : j < 8) :
    pmulred (1#8 <<< i) (1#8 <<< j) p = (fun v => xtime v p)^[j + i] 1 := by
  rw [pmulred_bit _ _ hj, bit_eq_iterate p hi, ← Function.iterate_add_apply]

theorem pmulred_comm (a b : Byte) (p : BitVec 9) : pmulred a b p = pmulred b a p := by
  refine linear_ext (f := fun a => pmulred a b p) (g := fun a => pmulred b a p)
    (fun _ _ => pmulred_xor_left ..) (fun _ _ => pmulred_xor_right ..) (fun i hi => ?_) a
  exact linear_ext (f := fun b => pmulred (1#8 <<< i) b p) (g := fun b => pmulred b (1#8 <<< i) p)
    (fun _ _ => pmulred_xor_right ..) (fun _ _ => pmulred_xor_left ..)
    (fun j hj => by simp only [pmulred_bits p hi hj, pmulred_bits p hj hi, Nat.add_comm]) b

theorem pmulred_one_left (a : Byte) (p : BitVec 9) : pmulred 1 a p = a := by
  rw [pmulred_comm, pmulred_one_right]

/-- Multiplying by a doubled byte doubles the product. -/
theorem pmulred_xtime_right (a b : Byte) (p : BitVec 9) :
    pmulred a (xtime b p) p = xtime (pmulred a b p) p := by
  refine linear_ext (f := fun a => pmulred a (xtime b p) p) (g := fun a => xtime (pmulred a b p) p)
    (fun _ _ => pmulred_xor_left ..) (fun _ _ => by simp only [pmulred_xor_left, xtime_xor])
    (fun i hi => ?_) a
  refine linear_ext (f := fun b => pmulred (1#8 <<< i) (xtime b p) p)
    (g := fun b => xtime (pmulred (1#8 <<< i) b p) p)
    (fun _ _ => by simp only [xtime_xor, pmulred_xor_right])
    (fun _ _ => by simp only [pmulred_xor_right, xtime_xor]) (fun j hj => ?_) b
  show pmulred _ (xtime (1#8 <<< j) p) p = xtime (pmulred _ (1#8 <<< j) p) p
  rw [pmulred_bits p hi hj, pmulred_comm, pmulred_bit _ _ hi, bit_eq_iterate p hj,
    ← Function.iterate_succ_apply' (fun v => xtime v p), ← Function.iterate_add_apply,
    ← Function.iterate_succ_apply' (fun v => xtime v p)]
  congr 1; omega

theorem pmulred_assoc (a b c : Byte) (p : BitVec 9) :
    pmulred (pmulred a b p) c p = pmulred a (pmulred b c p) p := by
  refine linear_ext (f := fun c => pmulred (pmulred a b p) c p)
    (g := fun c => pmulred a (pmulred b c p) p)
    (fun _ _ => pmulred_xor_right ..) (fun _ _ => by simp only [pmulred_xor_right])
    (fun i hi => ?_) c
  induction i with
  | zero =>
    show pmulred _ 1 _ = pmulred a (pmulred b 1 _) _
    rw [pmulred_one_right, pmulred_one_right]
  | succ i ih =>
    have := ih (by omega)
    simp only [← xtime_bit p (show i < 7 by omega), pmulred_xtime_right] at this ⊢
    rw [this]

/-! ## Powers -/

theorem polyPow_add (g : Byte) (p : BitVec 9) (m n : Nat) :
    polyPow g p (m + n) = pmulred (polyPow g p m) (polyPow g p n) p := by
  induction n with
  | zero => exact (pmulred_one_right ..).symm
  | succ n ih =>
    show pmulred (polyPow g _ (m + n)) g _ = pmulred _ (pmulred (polyPow g _ n) g _) _
    rw [ih, pmulred_assoc]

/-! ## The allow-list -/

theorem lookup_mem {l : List (Nat × Byte)} {n : Nat} {g : Byte} (h : l.lookup n = some g) :
    (n, g) ∈ l := by
  induction l with
  | nil => simp at h
  | cons e l ih =>
    obtain ⟨a, b⟩ := e
    rw [List.lookup_cons] at h
    split at h
    · next hn => simp at hn h; simp [hn, h]
    · exact List.mem_cons_of_mem _ (ih h)

/-! ## The powers of a generator -/

theorem powersFrom_polyPow (g : Byte) (p : BitVec 9) (n k : Nat) :
    powersFrom g p n (polyPow g p k) = (List.range n).map fun i => polyPow g p (k + i) := by
  induction n generalizing k with
  | zero => rfl
  | succ n ih =>
    rw [List.range_succ_eq_map, List.map_cons, List.map_map]
    simp only [powersFrom]
    rw [show pmulred (polyPow g p k) g p = polyPow g p (k + 1) from rfl, ih]
    congr 1
    exact List.map_congr_left fun i _ => by simp [Nat.add_comm, Nat.add_left_comm]

theorem powers_eq (g : Byte) (p : BitVec 9) :
    powers g p = (List.range 255).map (polyPow g p) := by
  have := powersFrom_polyPow g p 255 0
  simp only [Nat.zero_add] at this
  exact this

/-- A multiple of an exponent that gives 1 gives 1. -/
theorem polyPow_mul_eq_one {g : Byte} {p : BitVec 9} {n : Nat} (hn : polyPow g p n = 1) (k : Nat) :
    polyPow g p (n * k) = 1 := by
  induction k with
  | zero => rfl
  | succ k ih => rw [Nat.mul_succ, polyPow_add, ih, hn, pmulred_one_right]

/-- The exponents that give 1 are closed under remainder, and so under the greatest common divisor. -/
theorem polyPow_gcd_eq_one {g : Byte} {p : BitVec 9} (m n : Nat) (hm : polyPow g p m = 1)
    (hn : polyPow g p n = 1) : polyPow g p (Nat.gcd m n) = 1 := by
  induction m, n using Nat.gcd.induction with
  | H0 n => simpa using hn
  | H1 m n hpos ih =>
    rw [Nat.gcd_rec]
    refine ih ?_ hm
    have hd := polyPow_add g p (m * (n / m)) (n % m)
    rw [Nat.div_add_mod, hn, polyPow_mul_eq_one hm, pmulred_one_left] at hd
    exact hd.symm

/-- An exponent 255 that gives 1 is the order when none of 85, 51 and 15 gives 1. -/
theorem hasOrder255_of {g : Byte} {p : BitVec 9} (h255 : polyPow g p 255 = 1)
    (h85 : polyPow g p 85 ≠ 1) (h51 : polyPow g p 51 ≠ 1) (h15 : polyPow g p 15 ≠ 1) :
    hasOrder255 g p := by
  refine ⟨h255, fun i h0 hi h1 => ?_⟩
  have hg := polyPow_gcd_eq_one i 255 h1 h255
  have hdvd : Nat.gcd i 255 ∣ 255 := Nat.gcd_dvd_right ..
  have hle : Nat.gcd i 255 ≤ i := Nat.gcd_le_left _ h0
  have hcases : ∀ d < 255, d ∣ 255 → d ∣ 85 ∨ d ∣ 51 ∨ d ∣ 15 := by decide +kernel
  rcases hcases _ (by omega) hdvd with ⟨k, hk⟩ | ⟨k, hk⟩ | ⟨k, hk⟩
  · exact h85 (hk ▸ polyPow_mul_eq_one hg k)
  · exact h51 (hk ▸ polyPow_mul_eq_one hg k)
  · exact h15 (hk ▸ polyPow_mul_eq_one hg k)

/-! ## The defaults are legal parameters -/

/-- What a row of the default table satisfies by evaluation of its powers 15, 51, 85 and 255. -/
def primitiveRow (e : Nat × Byte) : Bool :=
  let p := BitVec.ofNat 9 e.1
  decide (256 ≤ e.1 ∧ e.1 < 512) && polyPow e.2 p 255 == 1 && polyPow e.2 p 85 != 1 &&
    polyPow e.2 p 51 != 1 && polyPow e.2 p 15 != 1

set_option Elab.async false in
theorem primitiveRow_all : polyTable.all primitiveRow = true := by decide +kernel

theorem default_legal : Params.default.Legal := by
  refine ⟨fun e he => ?_, rfl⟩
  have hr := List.all_eq_true.1 primitiveRow_all _ he
  simp only [primitiveRow, Bool.and_eq_true, beq_iff_eq, bne_iff_ne, decide_eq_true_eq] at hr
  obtain ⟨⟨⟨⟨⟨h1, h2⟩, h255⟩, h85⟩, h51⟩, h15⟩ := hr
  exact ⟨h1, h2, hasOrder255_of h255 h85 h51 h15⟩

/-- A member of a legal allow-list has a generator of order 255. -/
theorem Params.Legal.order {P : Params} (hP : P.Legal) {w : Word} {g : Byte}
    (h : P.genOf w = some g) : 256 ≤ w.toNat ∧ w.toNat < 512 ∧ hasOrder255 g (w.setWidth 9) :=
  hP.1 _ (lookup_mem h)

/-! ## The powers of an element of order 255 -/

section Order

variable {g : Byte} {p : BitVec 9} (h : hasOrder255 g p)
include h

theorem polyPow_ne_zero {i : Nat} (hi : i < 255) : polyPow g p i ≠ 0 := by
  intro h0
  have hs := polyPow_add g p i (255 - i)
  rw [show i + (255 - i) = 255 by omega, h.1, h0, pmulred_zero_left] at hs
  exact absurd hs (by decide)

/-- The 255 powers are distinct. -/
theorem polyPow_injective {i j : Nat} (hi : i < 255) (hj : j < 255)
    (he : polyPow g p i = polyPow g p j) : i = j := by
  have key : ∀ i j, i < j → j < 255 →
      polyPow g p i ≠ polyPow g p j := by
    intro i j hij hj he
    have h1 := polyPow_add g p (255 - i) i
    have h2 := polyPow_add g p (255 - i) j
    rw [← he, ← h1] at h2
    obtain ⟨d, rfl⟩ : ∃ d, j = i + d := ⟨j - i, by omega⟩
    rw [show 255 - i + i = 255 by omega, show 255 - i + (i + d) = d + 255 by omega,
      polyPow_add g p d, h.1, pmulred_one_right] at h2
    exact h.2 _ (by omega) (by omega) h2
  rcases Nat.lt_trichotomy i j with hlt | heq | hgt
  · exact absurd he (key i j hlt hj)
  · exact heq
  · exact absurd he.symm (key j i hgt hi)

/-- The powers of the generator are exactly the non-zero bytes. -/
theorem exists_polyPow_iff (x : Byte) :
    (∃ i < 255, polyPow g p i = x) ↔ x ≠ 0 := by
  constructor
  · rintro ⟨i, hi, rfl⟩
    exact polyPow_ne_zero h hi
  · intro hx
    let f : Nat → Nat := fun i => (polyPow g p i).toNat
    have hinj : Set.InjOn f (Finset.range 255) := fun i hi j hj he =>
      polyPow_injective h (by simpa using hi) (by simpa using hj) (BitVec.eq_of_toNat_eq he)
    have hsub : (Finset.range 255).image f ⊆ Finset.Ico 1 256 := by
      intro n hn
      obtain ⟨i, hi, rfl⟩ := Finset.mem_image.1 hn
      have h1 := polyPow_ne_zero h (Finset.mem_range.1 hi)
      have h2 := (polyPow g p i).isLt
      have h3 : f i ≠ 0 := fun e => h1 (BitVec.eq_of_toNat_eq e)
      exact Finset.mem_Ico.2 ⟨Nat.pos_of_ne_zero h3, h2⟩
    have hcard : (Finset.Ico 1 256).card ≤ ((Finset.range 255).image f).card := by
      rw [Finset.card_image_of_injOn hinj, Finset.card_range, Nat.card_Ico]
    have heq := Finset.eq_of_subset_of_card_le hsub hcard
    have hmem : x.toNat ∈ Finset.Ico 1 256 := Finset.mem_Ico.2
      ⟨Nat.pos_of_ne_zero fun e => hx (BitVec.eq_of_toNat_eq e), x.isLt⟩
    rw [← heq] at hmem
    obtain ⟨i, hi, he⟩ := Finset.mem_image.1 hmem
    exact ⟨i, Finset.mem_range.1 hi, BitVec.eq_of_toNat_eq he⟩

/-- Exponents count modulo 255. -/
theorem polyPow_mod (n : Nat) :
    polyPow g p (n % 255) = polyPow g p n := by
  induction n using Nat.strongRecOn with
  | ind n ih =>
    by_cases hn : n < 255
    · rw [Nat.mod_eq_of_lt hn]
    · obtain ⟨m, rfl⟩ : ∃ m, n = m + 255 := ⟨n - 255, by omega⟩
      have hs := polyPow_add g p m 255
      rw [h.1, pmulred_one_right] at hs
      rw [Nat.add_mod_right, hs]
      exact ih m (by omega)

end Order

/-! ## The tables -/

/-- What FE_READY promises of the tables, entry by entry: EXP holds the powers of the generator and LOG
their exponents (R38). -/
structure Tables.Powers (T : Tables) (p : BitVec 9) (g : Byte) : Prop where
  order : hasOrder255 g p
  exp : ∀ i < 512, expAt T i = polyPow g p i
  log : ∀ i < 255, logAt T (polyPow g p i) = i
  log_zero : logAt T 0 = 0

theorem toList_vecOf {α : Type} (n : Nat) (d : α) (l : List α) :
    (vecOf n d l).toList = (l ++ List.replicate n d).take n := rfl

theorem getD_vecOf {α : Type} (n : Nat) (d : α) (l : List α) (i : Nat) (hi : i < n) :
    (vecOf n d l).toList.getD i d = l.getD i d := by
  rw [toList_vecOf]
  simp only [List.getD_eq_getElem?_getD, List.getElem?_take, hi, if_true, List.getElem?_append]
  split
  · rfl
  · next h =>
    rw [List.getElem?_replicate, List.getElem?_eq_none (l := l) (by omega)]
    split <;> rfl

theorem getD_powers (g : Byte) (p : BitVec 9) (i : Nat) (hi : i < 255) :
    (powers g p).getD i 0 = polyPow g p i := by
  rw [powers_eq, List.getD_eq_getElem?_getD]
  simp [hi]

theorem length_powers (g : Byte) (p : BitVec 9) : (powers g p).length = 255 := by
  rw [powers_eq]; simp

/-- EXP after FE.INIT. -/
theorem expAt_buildTables {p : BitVec 9} {g : Byte} (h : hasOrder255 g p) (old : Tables) (i : Nat)
    (hi : i < 512) : expAt (buildTables g p old) i = polyPow g p i := by
  show (expTable g p).toList.getD i 0 = _
  rw [expTable, getD_vecOf _ _ _ _ hi, ← polyPow_mod h]
  have hlen := length_powers g p
  have hget : ∀ j < 255, (powers g p)[j]?.getD 0 = polyPow g p j := by
    intro j hj; rw [← getD_powers g _ j hj, List.getD_eq_getElem?_getD]
  rw [List.getD_eq_getElem?_getD]
  by_cases h1 : i < 255
  · rw [List.getElem?_append_left (by simp [hlen]; omega), List.getElem?_append_left (by omega),
      hget i h1, Nat.mod_eq_of_lt h1]
  · by_cases h2 : i < 510
    · rw [List.getElem?_append_left (by simp [hlen]; omega), List.getElem?_append_right (by omega),
        hlen, hget _ (by omega), show i % 255 = i - 255 by omega]
    · rw [List.getElem?_append_right (by simp [hlen]; omega), List.length_append, hlen,
        hget _ (by omega), show i % 255 = i - (255 + 255) by omega]

/-- LOG entries that the loop does not write again stay. -/
theorem logFill_not_mem (vs : List Byte) (i : Nat) (l : Vector Byte 256) (x : Byte)
    (hx : x ∉ vs) : (logFill vs i l)[x.toNat]'x.isLt = l[x.toNat]'x.isLt := by
  induction vs generalizing i l with
  | nil => rfl
  | cons v vs ih =>
    rw [List.mem_cons, not_or] at hx
    have hne : v.toNat ≠ x.toNat := fun e => hx.1 (BitVec.eq_of_toNat_eq e.symm)
    simp only [logFill]
    rw [ih _ _ hx.2, Vector.getElem_set_ne _ _ hne]

/-- LOG[v] is the place of `v` among the values written. -/
theorem logFill_getElem (vs : List Byte) (i : Nat) (l : Vector Byte 256) (hn : vs.Nodup) (k : Nat)
    (hk : k < vs.length) :
    (logFill vs i l)[(vs[k]).toNat]'(vs[k]).isLt = BitVec.ofNat 8 (i + k) := by
  induction vs generalizing i l k with
  | nil => simp at hk
  | cons v vs ih =>
    rw [List.nodup_cons] at hn
    simp only [logFill]
    cases k with
    | zero =>
      simp only [List.getElem_cons_zero]
      rw [logFill_not_mem _ _ _ _ hn.1]
      simp
    | succ k =>
      simp only [List.getElem_cons_succ]
      rw [ih _ _ hn.2 k (by simpa using hk)]
      congr 1; omega

theorem nodup_powers {p : BitVec 9} {g : Byte} (h : hasOrder255 g p) :
    (powers g p).Nodup := by
  rw [powers_eq]
  refine List.Nodup.map_on (fun i hi j hj he => ?_) List.nodup_range
  exact polyPow_injective h (List.mem_range.1 hi) (List.mem_range.1 hj) he

theorem logAt_buildTables (g x : Byte) (p : BitVec 9) (old : Tables) (hx : x ≠ 0) :
    logAt (buildTables g p old) x = ((logFill (powers g p) 0 old.log)[x.toNat]'x.isLt).toNat := by
  have hne : (0 : Nat) ≠ x.toNat := fun e => hx (BitVec.eq_of_toNat_eq e.symm)
  simp only [logAt, buildTables, logTable]
  rw [Vector.getElem_set_ne _ _ hne]

/-- The tables FE.INIT builds. -/
theorem powers_buildTables {p : BitVec 9} {g : Byte} (h : hasOrder255 g p) (old : Tables) :
    (buildTables g p old).Powers p g := by
  refine ⟨h, fun i hi => expAt_buildTables h old i hi, fun i hi => ?_, ?_⟩
  · rw [logAt_buildTables _ _ _ _ (polyPow_ne_zero h hi)]
    have hk : i < (powers g p).length := by rw [length_powers]; exact hi
    have hv : (powers g p)[i] = polyPow g p i := by
      simp [powers_eq]
    have := logFill_getElem (powers g p) 0 old.log (nodup_powers h) i hk
    simp only [hv] at this
    rw [this]
    simp; omega
  · simp [logAt, buildTables, logTable]

section Powers

variable {T : Tables} {p : BitVec 9} {g : Byte} (P : T.Powers p g)
include P

/-- A non-zero byte is the power of the generator that LOG gives. -/
theorem Tables.Powers.exp_log {x : Byte} (hx : x ≠ 0) :
    logAt T x < 255 ∧ polyPow g p (logAt T x) = x := by
  obtain ⟨i, hi, rfl⟩ := (exists_polyPow_iff P.order x).2 hx
  rw [P.log i hi]
  exact ⟨hi, rfl⟩

/-- The tables multiply as multiply-reduce does (R123). -/
theorem Tables.Powers.mul_nonzero {a b : Byte} (ha : a ≠ 0) (hb : b ≠ 0) :
    expAt T (logAt T a + logAt T b) = pmulred a b p := by
  obtain ⟨la, ea⟩ := P.exp_log ha
  obtain ⟨lb, eb⟩ := P.exp_log hb
  rw [P.exp _ (by omega), polyPow_add g p, ea, eb]

/-- The invariant in the form of R38. -/
theorem Tables.Powers.expOk : T.ExpOk g p := by
  refine ⟨P.exp 0 (by omega), fun i hi => ?_, fun i hi => ?_⟩
  · rw [P.exp _ (by omega), P.exp _ (by omega)]; rfl
  · rw [P.exp _ (by omega), P.exp _ (by omega), polyPow_add g p, P.order.1,
      pmulred_one_right]

theorem Tables.Powers.logOk : T.LogOk := by
  refine ⟨fun i hi => ?_, P.log_zero⟩
  rw [P.exp _ (by omega), P.log i hi]

end Powers

/-- The invariant of R38 determines every entry. -/
theorem Tables.powers_of_ok {T : Tables} {p : BitVec 9} {g : Byte} (h : hasOrder255 g p)
    (he : T.ExpOk g p) (hl : T.LogOk) : T.Powers p g := by
  obtain ⟨h0, hs, hd⟩ := he
  have low : ∀ i < 255, expAt T i = polyPow g p i := by
    intro i
    induction i with
    | zero => intro _; exact h0
    | succ i ih => intro hi; rw [hs i (by omega), ih (by omega)]; rfl
  have mid : ∀ i < 510, expAt T i = polyPow g p i := by
    intro i hi
    by_cases hlt : i < 255
    · exact low i hlt
    · obtain ⟨j, rfl⟩ : ∃ j, i = j + 255 := ⟨i - 255, by omega⟩
      rw [hd j (by omega), low j (by omega), polyPow_add g p, h.1, pmulred_one_right]
  refine ⟨h, fun i hi => ?_, fun i hi => ?_, hl.2⟩
  · by_cases hlt : i < 510
    · exact mid i hlt
    · obtain ⟨j, rfl⟩ : ∃ j, i = j + 255 := ⟨i - 255, by omega⟩
      rw [hd j (by omega), mid j (by omega), polyPow_add g p, h.1, pmulred_one_right]
  · rw [← low i hi]; exact hl.1 i hi

/-- What a legal state with FE_READY = 1 promises. -/
theorem State.FieldOk.powers {s : State} (hP : s.conf.Legal) (hs : s.FieldOk)
    (hr : s.status.feReady = true) :
    ∃ g, s.conf.genOf s.regs.polya = some g ∧ s.tab.Powers (s.regs.polya.setWidth 9) g := by
  have := hs hr
  split at this
  · exact this.elim
  · next g hg => exact ⟨g, hg, Tables.powers_of_ok (hP.order hg).2.2 this.1 this.2⟩

end Sys2Proof.Machine
end

