-- ==== Sys2Proof/Laws/Host.lean ====
section
/-! SUPPORT. What a host access and a step can do, said once. -/

namespace Sys2Proof.Machine

/-- A host access that has a step: a read that returns a number, a register write, or a byte written in
KEY, IV or IN. -/
theorem hostAccess_next {a : Access} {s t : State} (h : hostAccess a s = .next t) :
    (∃ v, t = s.withRead v) ∨ (∃ r v, s.writeReg r v = some t) ∨
      ∃ off b, (placeAt s.conf off = .key ∨ placeAt s.conf off = .iv ∨ placeAt s.conf off = .inWin) ∧
        t = { s with mem := Memory.write s.mem off b } := by
  unfold hostAccess at h
  split at h
  · cases h
  · cases a with
    | readWord off =>
      change hostReadWord off s = _ at h
      unfold hostReadWord at h
      generalize placeAt s.conf off = p at h
      cases p <;> simp only [reduceCtorEq] at h
      split at h
      · cases h; exact .inl ⟨_, rfl⟩
      · cases h
    | readByte off =>
      change hostReadByte off s = _ at h
      unfold hostReadByte at h
      generalize placeAt s.conf off = p at h
      cases p <;> simp only [reduceCtorEq, Host.Outcome.next.injEq] at h <;>
        exact .inl ⟨_, h.symm⟩
    | writeWord off v =>
      change hostWriteWord off v s = _ at h
      unfold hostWriteWord at h
      generalize placeAt s.conf off = p at h
      cases p <;> simp only [reduceCtorEq] at h
      split at h
      · next u hu => cases h; exact .inr (.inl ⟨_, _, hu⟩)
      · cases h
    | writeByte off b =>
      change hostWriteByte off b s = _ at h
      unfold hostWriteByte at h
      refine .inr (.inr ⟨off, b, ?_⟩)
      generalize placeAt s.conf off = p at h ⊢
      cases p <;> simp only [reduceCtorEq, Host.Outcome.next.injEq] at h <;>
        exact ⟨by simp, h.symm⟩
    | readOther off n | writeOther off n =>
      change hostOther off s = _ at h
      unfold hostOther at h
      generalize placeAt s.conf off = p at h
      cases p <;> cases h

/-- A register write changes CMD or one of the read-write registers and nothing else. -/
theorem writeReg_some {r : RegName} {v : Word} {s t : State} (h : s.writeReg r v = some t) :
    t = { s with cmd := t.cmd, regs := t.regs } ∧ t.regs.res = s.regs.res ∧
      t.regs.polya = s.regs.polya ∧ t.regs.outlen = s.regs.outlen := by
  cases r <;> simp only [State.writeReg, reduceCtorEq, Option.some.injEq] at h <;> subst h <;> simp

/-- An access at a host address that has a step is an access at a block offset. -/
theorem busAccess_next {a : Access} {s t : State} (h : busAccess a s = .next t) :
    ∃ b, hostAccess b s = .next t := by
  unfold busAccess at h
  split at h
  · cases h
  · exact ⟨_, h⟩

/-- An access at the host address of a block offset is the access at that offset. -/
theorem busAccess_coreBase (a : Access) (s : State) :
    busAccess (a.mapOffset (s.conf.coreBase + ·)) s = hostAccess a s := by
  cases a <;> simp [busAccess, Access.mapOffset, accessOffset]

/-- What one step can do: the sequencer's turn, a host access, or hardware reset. -/
theorem step_next {s t : State} (h : step s = .next t) :
    (∃ es, sequencerStep (s.withPending es) = .next t) ∨
      (∃ a es, hostAccess a (s.withPending es) = .next t) ∨
      ∃ es, t = (s.withPending es).resetBlock := by
  unfold step at h
  split at h
  · next hp =>
    refine .inl ⟨[], ?_⟩
    have : s.withPending [] = s := by simp [State.withPending, ← hp]
    rw [this]
    exact h
  · exact .inl ⟨_, h⟩
  · obtain ⟨b, hb⟩ := busAccess_next h
    exact .inr (.inl ⟨b, _, hb⟩)
  · cases h; exact .inr (.inr ⟨_, rfl⟩)

/-- The sequencer's turn: idle, a word that names no command, or a command. -/
theorem sequencerStep_next {s t : State} (h : sequencerStep s = .next t) :
    t = s ∨ t = s.raise false .illegalCommand ∨ ∃ i, exec i s = .next t := by
  unfold sequencerStep at h
  split at h
  · unfold runWord at h
    split at h
    · exact .inr (.inr ⟨_, h⟩)
    · cases h; exact .inr (.inl rfl)
  · cases h; exact .inl rfl

end Sys2Proof.Machine
end

