-- ==== Sys2Proof/Laws/PerInstr.lean ====
section
/-! SUPPORT. Per command: its word is a word of its row of the opcode table (spec/30_encoding.md R81,
R89, R92). -/

namespace Sys2Proof

/-! ## Each format's mask leaves the opcode and clears the operands (R81) -/

theorem and_mask_Z (op : Byte) : wordZ op &&& 0xFFFFFFFF = wordZ op := by
  apply BitVec.eq_of_getLsbD_eq
  intro i hi
  rw [BitVec.getLsbD_and]; simp only [getLsbD_wordZ, getLsbD_wordZ]
  interval_cases i <;> simp

theorem and_mask_F2 (op a b : Byte) : wordF2 op a b &&& 0xFFFF0000 = wordZ op := by
  apply BitVec.eq_of_getLsbD_eq
  intro i hi
  rw [BitVec.getLsbD_and]; simp only [getLsbD_wordF2, getLsbD_wordZ]
  interval_cases i <;> simp

theorem and_mask_F1 (op a : Byte) : wordF1 op a &&& 0xFFFFFF00 = wordZ op := by
  apply BitVec.eq_of_getLsbD_eq
  intro i hi
  rw [BitVec.getLsbD_and]; simp only [getLsbD_wordF1, getLsbD_wordZ]
  interval_cases i <;> simp

theorem and_mask_FP (op a : Byte) (n : Nat) : wordFP op a n &&& 0xFF000000 = wordZ op := by
  apply BitVec.eq_of_getLsbD_eq
  intro i hi
  rw [BitVec.getLsbD_and]; simp only [getLsbD_wordFP, getLsbD_wordZ]
  interval_cases i <;> simp

theorem and_mask_MP (op : Byte) (par : Bool) (pad : Scheme) : wordMP op par pad &&& 0xFFFFFEFC = wordZ op := by
  apply BitVec.eq_of_getLsbD_eq
  intro i hi
  rw [BitVec.getLsbD_and]; simp only [getLsbD_wordMP, getLsbD_wordZ]
  interval_cases i <;> simp

theorem and_mask_MU (op : Byte) (par : Bool) : wordMU op par &&& 0xFFFFFEFF = wordZ op := by
  apply BitVec.eq_of_getLsbD_eq
  intro i hi
  rw [BitVec.getLsbD_and]; simp only [getLsbD_wordMU, getLsbD_wordZ]
  interval_cases i <;> simp

theorem and_mask_M7 (op : Byte) (low : BitVec 24) : wordM7 op low &&& 0xFF000000 = wordZ op := by
  apply BitVec.eq_of_getLsbD_eq
  intro i hi
  rw [BitVec.getLsbD_and]; simp only [getLsbD_wordM7, getLsbD_wordZ]
  interval_cases i <;> simp

namespace Laws.RowWord

/-- "`(cmd AND mask) = match`" for the command's own word (R81). -/
def Statement (i : Instr) : Prop := encode i &&& rowMask i = rowMatch i

theorem sysReset : Statement .sysReset := (and_mask_Z ..).trans rfl

theorem feInit : Statement .feInit := (and_mask_Z ..).trans rfl

theorem feAdd (a b : Byte) : Statement (.feAdd a b) := (and_mask_F2 ..).trans rfl

theorem feSub (a b : Byte) : Statement (.feSub a b) := (and_mask_F2 ..).trans rfl

theorem feMul (a b : Byte) : Statement (.feMul a b) := (and_mask_F2 ..).trans rfl

theorem feDiv (a b : Byte) : Statement (.feDiv a b) := (and_mask_F2 ..).trans rfl

theorem fePow (a : Byte) (n : Nat) : Statement (.fePow a n) := (and_mask_FP ..).trans rfl

theorem feInv (a : Byte) : Statement (.feInv a) := (and_mask_F1 ..).trans rfl

theorem keySetup : Statement .keySetup := (and_mask_Z ..).trans rfl

theorem blkEnc : Statement .blkEnc := (and_mask_Z ..).trans rfl

theorem blkDec : Statement .blkDec := (and_mask_Z ..).trans rfl

theorem padZero : Statement .padZero := (and_mask_Z ..).trans rfl

theorem padAnsi : Statement .padAnsi := (and_mask_Z ..).trans rfl

theorem padPkcs7 : Statement .padPkcs7 := (and_mask_Z ..).trans rfl

theorem padIso : Statement .padIso := (and_mask_Z ..).trans rfl

theorem unpadZero : Statement .unpadZero := (and_mask_Z ..).trans rfl

theorem unpadAnsi : Statement .unpadAnsi := (and_mask_Z ..).trans rfl

theorem unpadPkcs7 : Statement .unpadPkcs7 := (and_mask_Z ..).trans rfl

theorem unpadIso : Statement .unpadIso := (and_mask_Z ..).trans rfl

theorem ecbEnc (par : Bool) (pad : Scheme) : Statement (.ecbEnc par pad) :=
  (and_mask_MP ..).trans rfl

theorem cbcEnc (par : Bool) (pad : Scheme) : Statement (.cbcEnc par pad) :=
  (and_mask_MP ..).trans rfl

theorem pcbcEnc (par : Bool) (pad : Scheme) : Statement (.pcbcEnc par pad) :=
  (and_mask_MP ..).trans rfl

theorem cfbEnc (par : Bool) : Statement (.cfbEnc par) := (and_mask_MU ..).trans rfl

theorem ofbEnc (par : Bool) : Statement (.ofbEnc par) := (and_mask_MU ..).trans rfl

theorem ctrEnc (par : Bool) : Statement (.ctrEnc par) := (and_mask_MU ..).trans rfl

theorem rdEnc (par : Bool) (pad : Scheme) : Statement (.rdEnc par pad) :=
  (and_mask_MP ..).trans rfl

theorem ecbDec (par : Bool) (pad : Scheme) : Statement (.ecbDec par pad) :=
  (and_mask_MP ..).trans rfl

theorem cbcDec (par : Bool) (pad : Scheme) : Statement (.cbcDec par pad) :=
  (and_mask_MP ..).trans rfl

theorem pcbcDec (par : Bool) (pad : Scheme) : Statement (.pcbcDec par pad) :=
  (and_mask_MP ..).trans rfl

theorem cfbDec (par : Bool) : Statement (.cfbDec par) := (and_mask_MU ..).trans rfl

theorem ofbDec (par : Bool) : Statement (.ofbDec par) := (and_mask_MU ..).trans rfl

theorem ctrDec (par : Bool) : Statement (.ctrDec par) := (and_mask_MU ..).trans rfl

theorem rdDec (par : Bool) (pad : Scheme) : Statement (.rdDec par pad) :=
  (and_mask_MP ..).trans rfl

theorem mode7Enc (low : BitVec 24) : Statement (.mode7Enc low) := (and_mask_M7 ..).trans rfl

theorem mode7Dec (low : BitVec 24) : Statement (.mode7Dec low) := (and_mask_M7 ..).trans rfl

end Laws.RowWord

end Sys2Proof
end

