-- ==== Sys2Proof/Tests/Slice0.lean ====
section
/-! SUPPORT. Tests. Expected results are the spec's own vectors (spec/95_test_vectors.md, cited as
V<n>) and worked examples; each `witness_` theorem shows states and operands that meet the hypotheses
of the obligation it names. -/

namespace Sys2Proof.Tests

open Sys2Proof.Machine

/-! ## Helpers -/

/-- The `n` bytes of a number written in hexadecimal, first byte first. -/
def hex (n v : Nat) : List Byte :=
  (List.range n).map fun i => BitVec.ofNat 8 (v / 2 ^ (8 * (n - 1 - i)))

/-- `n` copies of a byte. -/
def rep (n : Nat) (b : Byte) : List Byte := List.replicate n b

/-- Reset state with these bytes in IN and INLEN set to their number. -/
def withIn (d : List Byte) : State :=
  { State.reset with
    mem := Memory.ofBytes inBase d
    regs := { Regs.reset with inlen := BitVec.ofNat 32 d.length } }

/-- Reset state with INLEN set. -/
def withLen (n : Nat) : State :=
  { State.reset with regs := { Regs.reset with inlen := BitVec.ofNat 32 n } }

/-- Both ready flags set, with these values of INLEN and IVLEN. -/
def ready (n iv : Nat) : State :=
  { State.reset with
    status := { Status.reset with feReady := true, keyReady := true }
    regs := { Regs.reset with inlen := BitVec.ofNat 32 n, ivlen := BitVec.ofNat 32 iv } }

/-- The same, without an IV, in a block with buffers of `cap` bytes (of 16 to 32752). -/
def small (cap n : Nat) : State :=
  { ready n 0 with
    conf := { Params.default with
      bufcap := if h : 16 ≤ cap ∧ cap ≤ 32752 then ⟨cap, h⟩ else ⟨16, by decide⟩ } }

/-- The same with the other registers the MODE checks read. -/
def readyWith (n iv threads seg : Nat) : State :=
  { ready n iv with
    regs := { Regs.reset with
      inlen := BitVec.ofNat 32 n, ivlen := BitVec.ofNat 32 iv,
      threads := BitVec.ofNat 32 threads, seg := BitVec.ofNat 32 seg } }

/-- FE_READY set, nothing else. -/
def feOnly : State := { State.reset with status := { Status.reset with feReady := true } }

/-- The state after FE.INIT on the default polynomial. -/
def fieldState : State :=
  { State.reset with
    status := { Status.reset with feReady := true }
    regs := { Regs.reset with polya := 0x11B }
    tab := buildTables 0x03 0x11B Tables.reset }

/-- What `f` says of the state a command ends in. -/
def look {α : Type} (f : State → α) (o : Host.Outcome State Fault Refusal) : Option α :=
  match o with
  | .next t => some (f t)
  | .fault _ => none
  | .refused _ => none

/-- STATUS, and OUTLEN, after a command word. -/
def endOf (w : Word) (s : State) : Option (Word × Word) :=
  look (fun t => (t.statusWord, t.regs.outlen)) (runWord w s)

/-- OUT[0..OUTLEN) after a command word. -/
def outOf (w : Word) (s : State) : Option (List Byte) := look State.output (runWord w s)

/-! ## WellFormed -/

/-- R84: the exponent has 16 bits; 65536 does not fit. -/
theorem test_illFormed_exponent : (Instr.fePow 0x02 65536).wellFormed = false := by decide

/-- R84: 65535 is the largest exponent. -/
theorem test_wellFormed_exponent : (Instr.fePow 0x02 65535).wellFormed = true := by decide

/-! ## Decoding: the words of V2.1 to V2.35 and V2.40 to V2.55 -/

theorem test_decode_sys : decode 0x01000000 = .ok .sysReset := by rfl

theorem test_decode_fe :
    decode 0x10000000 = .ok .feInit ∧ decode 0x11008357 = .ok (.feAdd 0x57 0x83) ∧
      decode 0x12008357 = .ok (.feSub 0x57 0x83) ∧ decode 0x13008357 = .ok (.feMul 0x57 0x83) ∧
      decode 0x140083C1 = .ok (.feDiv 0xC1 0x83) ∧ decode 0x1500FF02 = .ok (.fePow 0x02 255) ∧
      decode 0x15FFFF03 = .ok (.fePow 0x03 65535) ∧ decode 0x16000053 = .ok (.feInv 0x53) :=
  ⟨rfl, rfl, rfl, rfl, rfl, rfl, rfl, rfl⟩

theorem test_decode_cc :
    decode 0x20000000 = .ok .keySetup ∧ decode 0x21000000 = .ok .blkEnc ∧
      decode 0x22000000 = .ok .blkDec := ⟨rfl, rfl, rfl⟩

theorem test_decode_pad :
    decode 0x30000000 = .ok .padZero ∧ decode 0x31000000 = .ok .padAnsi ∧
      decode 0x32000000 = .ok .padPkcs7 ∧ decode 0x33000000 = .ok .padIso ∧
      decode 0x38000000 = .ok .unpadZero ∧ decode 0x39000000 = .ok .unpadAnsi ∧
      decode 0x3A000000 = .ok .unpadPkcs7 ∧ decode 0x3B000000 = .ok .unpadIso :=
  ⟨rfl, rfl, rfl, rfl, rfl, rfl, rfl, rfl⟩

theorem test_decode_mode_enc :
    decode 0x40000002 = .ok (.ecbEnc false .pkcs7) ∧ decode 0x40000100 = .ok (.ecbEnc true .zero) ∧
      decode 0x41000001 = .ok (.cbcEnc false .ansi) ∧ decode 0x42000003 = .ok (.pcbcEnc false .iso) ∧
      decode 0x43000000 = .ok (.cfbEnc false) ∧ decode 0x44000000 = .ok (.ofbEnc false) ∧
      decode 0x45000100 = .ok (.ctrEnc true) ∧ decode 0x46000002 = .ok (.rdEnc false .pkcs7) :=
  ⟨rfl, rfl, rfl, rfl, rfl, rfl, rfl, rfl⟩

theorem test_decode_mode_dec :
    decode 0x48000102 = .ok (.ecbDec true .pkcs7) ∧ decode 0x49000002 = .ok (.cbcDec false .pkcs7) ∧
      decode 0x4A000000 = .ok (.pcbcDec false .zero) ∧ decode 0x4B000000 = .ok (.cfbDec false) ∧
      decode 0x4C000000 = .ok (.ofbDec false) ∧ decode 0x4D000100 = .ok (.ctrDec true) ∧
      decode 0x4E000003 = .ok (.rdDec false .iso) := ⟨rfl, rfl, rfl, rfl, rfl, rfl, rfl⟩

theorem test_decode_mode7 :
    decode 0x47000000 = .ok (.mode7Enc 0) ∧ decode 0x4F000102 = .ok (.mode7Dec 0x102) := ⟨rfl, rfl⟩

theorem test_decode_unassigned :
    ∀ w ∈ [0x00000000, 0x17000000, 0x23000000, 0x34000000, 0x50000000, (0xFFFFFFFF : Word)],
      decode w = .error .unassignedOpcode := by
  intro w hw
  simp only [List.mem_cons, List.not_mem_nil, or_false] at hw
  rcases hw with rfl | rfl | rfl | rfl | rfl | rfl <;> rfl

theorem test_decode_mustBeZero :
    ∀ w ∈ [0x01000001, 0x10000100, 0x11018357, 0x16000153, 0x40000004, 0x40000202, 0x43000002,
        (0x45000101 : Word)], decode w = .error .mustBeZero := by
  intro w hw
  simp only [List.mem_cons, List.not_mem_nil, or_false] at hw
  rcases hw with rfl | rfl | rfl | rfl | rfl | rfl | rfl | rfl <;> rfl

/-- The host's decoding question, for a row with every bit given; a word wider than its row is none. -/
theorem test_decodeTableWord :
    decodeTableWord 32 0x13008357 = some (.feMul 0x57 0x83) ∧ decodeTableWord 32 0 = none ∧
      decodeTableWord 32 0x113008357 = none := by decide

/-- V2.40 and V2.52: an illegal word gives STATUS 0x98, mode 7 gives 0x18. -/
theorem test_undecodable_words :
    endOf 0x00000000 State.reset = some (0x98, 0) ∧ endOf 0x01000001 State.reset = some (0x98, 0) := by
  decide

theorem test_mode7 :
    endOf 0x47000000 State.reset = some (0x18, 0) ∧ endOf 0x4F000102 (ready 3 0) = some (0x1E, 0) := by
  decide

/-! ## Field Engine -/

/-- LOG of V3.1, 16 entries a row. -/
def logRows : List (List Byte) :=
  [ hex 16 0x000019013202_1AC64BC71B6833EEDF03, hex 16 0x6404E00E348D81EF4C7108C8F8691CC1,
    hex 16 0x7DC21DB5F9B9276A4DE4A6729AC90978, hex 16 0x652F8A05210FE12412F082453593DA8E,
    hex 16 0x968FDBBD36D0CE94135CD2F140468338, hex 16 0x66DDFD30BF068B62B325E29822889110,
    hex 16 0x7E6E48C3A3B61E423A6B2854FA853DBA, hex 16 0x2B790A159B9F5ECA4ED4ACE5F373A757 ] ++
  [ hex 16 0xAF58A850F4EAD6744FAEE9D5E7E6ADE8, hex 16 0x2CD7757AEB160BF559CB5FB09CA951A0,
    hex 16 0x7F0CF66F17C449ECD8431F2DA4767BB7, hex 16 0xCCBB3E5AFB60B1863B52A16CAA55299D,
    hex 16 0x97B2879061BEDCFCBC95CFCD373F5BD1, hex 16 0x5339843C41A26D47142A9E5D56F2D3AB,
    hex 16 0x441192D923202E89B47CB8267799E3A5, hex 16 0x674AEDDEC531FE180D638C80C0F77007 ]

/-- EXP[0..254] of V3.1, 16 entries a row. -/
def expRows : List (List Byte) :=
  [ hex 16 0x0103050F113355FF1A2E7296A1F81335, hex 16 0x5FE13848D87395A4F702060A1E2266AA,
    hex 16 0xE5345CE43759EB266ABED97090ABE631, hex 16 0x53F5040C143C44CC4FD168B8D36EB2CD,
    hex 16 0x4CD467A9E03B4DD762A6F10818287888, hex 16 0x839EB9D06BBDDC7F8198B3CE49DB769A,
    hex 16 0xB5C457F9103050F00B1D2769BBD661A3, hex 16 0xFE192B7D8792ADEC2F7193AEE92060A0 ] ++
  [ hex 16 0xFB163A4ED26DB7C25DE73256FA153F41, hex 16 0xC35EE23D47C940C05BED2C749CBFDA75,
    hex 16 0x9FBAD564ACEF2A7E829DBCDF7A8E8980, hex 16 0x9BB6C158E82365AFEA256FB1C843C554,
    hex 16 0xFC1F2163A5F407091B2D7799B0CB46CA, hex 16 0x45CF4ADE798B8691A8E33E42C651F30E,
    hex 16 0x12365AEE297B8D8C8F8A8594A7F20D17, hex 15 0x394BDD7C8497A2FD1C246CB4C752F6 ]

/-- EXP and LOG of V3.1; "EXP[255..511] repeat". -/
def tablesV31 : Tables :=
  let e := expRows.flatten
  { exp := vecOf 512 0 (e ++ e ++ e), log := vecOf 256 0 logRows.flatten }

set_option Elab.async false in
/-- FE.INIT on 0x11B writes the LOG of V3.1, over a zeroed table. -/
theorem test_feInit_log : (logTable 0x03 0x11B Tables.reset.log).toList = logRows.flatten := by
  decide +kernel

set_option Elab.async false in
/-- FE.INIT on 0x11B writes the EXP of V3.1; EXP[255] and EXP[511] repeat EXP[0] and EXP[1]. -/
theorem test_feInit_exp :
    powers 0x03 0x11B = expRows.flatten ∧ expAt (buildTables 0x03 0x11B Tables.reset) 255 = 0x01 ∧
      expAt (buildTables 0x03 0x11B Tables.reset) 511 = 0x03 := by decide +kernel

/-- V3.74 and V3.83: STATUS and POLYA after FE.INIT on 0x11B and on 0x21B. -/
theorem test_feInit_status :
    look (fun t => (t.statusWord, t.regs.polya)) (exec .feInit State.reset) = some (0x02, 0x11B) ∧
      look (fun t => (t.statusWord, t.regs.polya))
        (exec .feInit { feOnly with regs := { Regs.reset with poly := 0x21B, polya := 0x11B } }) =
          some (0x18, 0) := by decide +kernel

/-- FE_READY with the tables of V3.1, an older value 0xEE in RES. -/
def feState : State :=
  { feOnly with regs := { Regs.reset with polya := 0x11B, res := 0xEE }, tab := tablesV31 }

/-- RES and STATUS after a field command in `feState`. -/
def resOf (w : Word) : Option (Word × Word) :=
  look (fun t => (t.regs.res, t.statusWord)) (runWord w feState)

/-- V3.10, V3.12. -/
theorem test_feAdd : resOf 0x11008357 = some (0xD4, 2) ∧ resOf 0x1100FFFF = some (0x00, 2) := by
  decide +kernel

/-- R117, V3.13. -/
theorem test_feSub : resOf 0x120083D4 = some (0x57, 2) ∧ resOf 0x12009C00 = some (0x9C, 2) := by
  decide +kernel

/-- V3.14, and R118: index 508 for `fe.mul 0xF6, 0xF6`. -/
theorem test_feMul : resOf 0x13008357 = some (0xC1, 2) ∧ resOf 0x1300F6F6 = some (0x52, 2) := by
  decide +kernel

/-- V3.19: a zero operand. -/
theorem test_feMul_zero : resOf 0x13000057 = some (0x00, 2) := by decide +kernel

/-- V3.25: a negative difference of logarithms; V3.24. -/
theorem test_feDiv : resOf 0x14005301 = some (0xCA, 2) ∧ resOf 0x140083C1 = some (0x57, 2) := by
  decide +kernel

/-- V3.30: 0 / 0 is DivideByZero, RES unchanged. -/
theorem test_feDiv_byZero : resOf 0x14000000 = some (0xEE, 0x7A) := by decide +kernel

/-- V3.41 and V3.35. -/
theorem test_fePow : resOf 0x15FFFE57 = some (0xBF, 2) ∧ resOf 0x15010003 = some (0x03, 2) := by
  decide +kernel

/-- V3.37, V3.39: 0 to the 0 is 1, else 0. -/
theorem test_fePow_zero : resOf 0x15000000 = some (0x01, 2) ∧ resOf 0x15FFFF00 = some (0x00, 2) := by
  decide +kernel

/-- V3.46, and V3.44: index 255. -/
theorem test_feInv : resOf 0x16000053 = some (0xCA, 2) ∧ resOf 0x16000001 = some (0x01, 2) := by
  decide +kernel

/-- V3.49. -/
theorem test_feInv_zero : resOf 0x16000000 = some (0xEE, 0x7A) := by decide +kernel

/-- R111, R112: the worked examples of the multiply-reduce datapath. -/
theorem test_pmulred :
    xtime 0x80 0x11B = 0x1B ∧ pmulred 0x57 0x83 0x11B = 0xC1 ∧ pmulred 0x57 0x13 0x11B = 0xFE := by
  decide

/-! ## Cipher Core -/

/-- The bytes of Q0 and Q1 that the worked example of R146 meets. -/
def exampleQ (l : List (Byte × Byte)) (b : Byte) : Byte := (l.lookup b).getD 0

/-- TI-B as far as the worked example of R146 uses it: Q0, Q1 and the MDS matrix. -/
def paramsR146 : CipherParams :=
  { q0 := exampleQ [(0x00, 0xA9), (0x02, 0xB3), (0xA9, 0x87), (0xB1, 0xCE), (0x8F, 0x90),
      (0xC4, 0x88)]
    q1 := exampleQ [(0x01, 0xF3), (0x03, 0xF4), (0xF2, 0x1E), (0xF7, 0xC2), (0x17, 0xE1),
      (0xC9, 0xE9)]
    mds := fun r c => ((hex 16 0x01EF5B5B5BEFEF01EF5B01EFEF01EF5B)[4 * r.val + c.val]?).getD 0
    skey := interleave
    g1Rot := 8 }

set_option Elab.async false in
/-- The worked example of R146: alternation, word order, matrix orientation, byte order. -/
theorem test_hFun :
    hFun paramsR146 tablesV31 0x03020100 [0x03020100, 0x0B0A0908] = 0xD986AD0A := by decide +kernel

/-- R144: the key material of the key 00 01 .. 0F. -/
theorem test_interleave :
    interleave 2 [0x03020100, 0x0B0A0908] [0x07060504, 0x0F0E0D0C] =
      [0x05010400, 0x07030602, 0x0D090C08, 0x0F0B0E0A] := by decide +kernel

/-- Tables in which a byte times 1 is that byte, which is all that TI-A asks of the field. -/
def plainTables : Tables :=
  { exp := vecOf 512 0 ((List.range 255).map fun i => BitVec.ofNat 8 (i + 1))
    log := vecOf 256 0 (0 :: (List.range 255).map fun i => BitVec.ofNat 8 i) }

/-- R148: K[0], K[1] and K[38], K[39] of the all-zero key under TI-A. -/
theorem test_keySchedule :
    subkeyPair paramsTIA plainTables [0, 0] [0, 0] 0 = [0x01010101, 0x04040404] ∧
      subkeyPair paramsTIA plainTables [0, 0] [0, 0] 19 = [0x4D4D4D4D, 0xE8E8E8E8] := by
  decide +kernel

/-- The schedule of R148 for the all-zero key under TI-A, by the formula of its worked example. -/
def scheduleTIA : List Word :=
  (List.range 20).flatMap fun i =>
    [BitVec.ofNat 32 (4 * i + 1) * rho, (BitVec.ofNat 32 (6 * i + 2) * rho).rotateLeft 9]

set_option Elab.async false in
/-- R151: E of the zero block under TI-A and the all-zero key. -/
theorem test_blkEnc :
    encryptBlock paramsTIA plainTables [0, 0, 0, 0] scheduleTIA (rep 16 0) =
      hex 16 0xF10A328B1FB1025FC5135BF847B5CA4D := by decide +kernel

set_option Elab.async false in
/-- R153: D takes it back. -/
theorem test_blkDec :
    decryptBlock paramsTIA plainTables [0, 0, 0, 0] scheduleTIA
      (hex 16 0xF10A328B1FB1025FC5135BF847B5CA4D) = rep 16 0 := by decide +kernel

/-- V8.3 and V8.25: KEY.SETUP with KEYLEN 15, with the tables and without. -/
theorem test_keySetup_faults :
    endOf 0x20000000 { feOnly with regs := { Regs.reset with keylen := 15 } } = some (0x2A, 0) ∧
      endOf 0x20000000 { State.reset with regs := { Regs.reset with keylen := 15 } } =
        some (0x88, 0) := by decide

/-- R141: N of a 24-byte key; R143: ME[2] is key bytes 16 to 19. -/
theorem test_keySetup_words :
    look (fun t => (t.key.n, t.key.me[2], t.statusWord)) (exec .keySetup
      { feOnly with
        regs := { Regs.reset with keylen := 24 }
        mem := Memory.ofBytes keyBase ((List.range 24).map (BitVec.ofNat 8)) }) =
      some (3, 0x13121110, 0x06) := by decide

/-- V8.2 and V8.18. -/
theorem test_blkEnc_faults :
    endOf 0x21000000 (withLen 16) = some (0x88, 0) ∧ endOf 0x21000000 (withLen 4097) = some (0x98, 0) := by
  decide

/-- R151: BlockSizeError for 15 and 17 bytes. -/
theorem test_blkDec_faults :
    endOf 0x22000000 (ready 15 0) = some (0x3E, 0) ∧ endOf 0x22000000 (ready 17 0) = some (0x3E, 0) := by
  decide

/-! ## Padding -/

/-- The three bytes 41 42 43 of the worked examples of R173 to R181. -/
def abc : List Byte := [0x41, 0x42, 0x43]

/-- R173. -/
theorem test_padZero : outOf 0x30000000 (withIn abc) = some (abc ++ rep 13 0) := by decide

/-- R174, and its corner case of 15 bytes. -/
theorem test_padAnsi :
    outOf 0x31000000 (withIn abc) = some (abc ++ rep 12 0 ++ [0x0D]) ∧
      outOf 0x31000000 (withIn (rep 15 0x41)) = some (rep 15 0x41 ++ [0x01]) := by decide

/-- R175: the source's own example, 17 bytes 41. -/
theorem test_padPkcs7 :
    outOf 0x32000000 (withIn (rep 17 0x41)) = some (rep 17 0x41 ++ rep 15 0x0F) := by decide

/-- V8.4: no readiness is needed. -/
theorem test_padPkcs7_status : endOf 0x32000000 (withIn abc) = some (0x00, 16) := by decide

/-- R176: OUTLEN, and the 12 bytes drawn. -/
theorem test_padIso :
    look (fun t => (t.statusWord, t.regs.outlen, t.ext.rngCursor))
      (runWord 0x33000000 (withIn abc)) = some (0x00, 16, 12) := by decide

/-- R172, R176: the filler is the random bytes in draw order. -/
theorem test_padIso_filler :
    padBytes .iso (hex 12 0xA0A1A2A3A4A5A6A7A8A9AAAB) abc =
      hex 16 0x414243A0A1A2A3A4A5A6A7A8A9AAAB0D := by decide

/-- R178: an inner zero stays; empty data is no fault. -/
theorem test_unpadZero :
    outOf 0x38000000 (withIn ([0x41, 0x00, 0x42] ++ rep 13 0)) = some [0x41, 0x00, 0x42] ∧
      endOf 0x38000000 (withIn []) = some (0x00, 0) := by decide

/-- R179. -/
theorem test_unpadAnsi : outOf 0x39000000 (withIn (abc ++ rep 12 0 ++ [0x0D])) = some abc := by decide

/-- R179: a byte that is not 00 inside the padding. -/
theorem test_unpadAnsi_pattern :
    endOf 0x39000000 (withIn (abc ++ rep 11 0 ++ [0x01, 0x0D])) = some (0x68, 0) := by decide

/-- R180. -/
theorem test_unpadPkcs7 :
    outOf 0x3A000000 (withIn (rep 17 0x41 ++ rep 15 0x0F)) = some (rep 17 0x41) ∧
      outOf 0x3A000000 (withIn (rep 16 0x10)) = some [] := by decide

/-- V8.10, V8.11, R180: trailer 0, trailer 17, a byte that differs; V8.26: the length first. -/
theorem test_unpadPkcs7_faults :
    endOf 0x3A000000 (withIn (rep 15 0x41 ++ [0x00])) = some (0x68, 0) ∧
      endOf 0x3A000000 (withIn (rep 15 0x41 ++ [0x11])) = some (0x68, 0) ∧
      endOf 0x3A000000 (withIn (rep 13 0x41 ++ [0x03, 0x02, 0x03])) = some (0x68, 0) ∧
      endOf 0x3A000000 (withIn (rep 17 0x41)) = some (0x58, 0) := by decide

/-- R181: the filler is not looked at. -/
theorem test_unpadIso :
    outOf 0x3B000000 (withIn (hex 16 0x414243A0A1A2A3A4A5A6A7A8A9AAAB0D)) = some abc := by decide

/-- R181: the range of the trailer is checked all the same. -/
theorem test_unpadIso_faults :
    endOf 0x3B000000 (withIn (rep 15 0x41 ++ [0x00])) = some (0x68, 0) ∧
      endOf 0x3B000000 (withIn (rep 15 0x41 ++ [0x20])) = some (0x68, 0) := by decide

/-! ## Modes: the block steps, with E given by the blocks of V6 (TI-B, key 00 .. 0F) -/

/-- A block function known at the blocks of a list, 16 zero bytes elsewhere. -/
def known (l : List (List Byte × List Byte)) (b : List Byte) : List Byte :=
  (l.lookup b).getD (rep 16 0)

/-- 41 ×17 padded by PKCS#7: 41 ×17, 0F ×15. -/
def pd17 : List Byte := rep 17 0x41 ++ rep 15 0x0F

/-- 30 31 .. 43, the data D20. -/
def d20 : List Byte := (List.range 20).map fun i => BitVec.ofNat 8 (0x30 + i)

/-- 10 11 .. 1F. -/
def iv : List Byte := (List.range 16).map fun i => BitVec.ofNat 8 (0x10 + i)

/-- The first ciphertext block of V6.11 and of V6.18. -/
def c0 : List Byte := hex 16 0xE3A0FE4C09D5D8304A4BFB8374EA155A

/-- V6.4. -/
theorem test_ecbEnc :
    (runBlocks (ecbStep (known
        [(rep 16 0x41, hex 16 0xA7546B899DBD182E0D8AFC65222400E2),
          (0x41 :: rep 15 0x0F, hex 16 0x45EBC50BD5865C956BC365F4AEFA99F5)]))
      ModeState.cleared (pieces 16 pd17)).1 =
      hex 32 0xA7546B899DBD182E0D8AFC65222400E245EBC50BD5865C956BC365F4AEFA99F5 := by decide +kernel

/-- V6.11: the second block is E of the second plaintext block XOR the first ciphertext block. -/
theorem test_cbcEnc :
    (runBlocks (cbcEncStep (known
        [(xorBytes (rep 16 0x41) iv, c0),
          (xorBytes (0x41 :: rep 15 0x0F) c0, hex 16 0xFDD0E03219606BC5DDAC874A7D035792)]))
      (ModeState.withIv iv) (pieces 16 pd17)).1 =
      c0 ++ hex 16 0xFDD0E03219606BC5DDAC874A7D035792 := by decide +kernel

/-- V6.11 backwards. -/
theorem test_cbcDec :
    (runBlocks (cbcDecStep (known
        [(c0, xorBytes (rep 16 0x41) iv),
          (hex 16 0xFDD0E03219606BC5DDAC874A7D035792, xorBytes (0x41 :: rep 15 0x0F) c0)]))
      (ModeState.withIv iv) (pieces 16 (c0 ++ hex 16 0xFDD0E03219606BC5DDAC874A7D035792))).1 = pd17 := by
  decide +kernel

/-- V6.18: the second block is E of the second plaintext block XOR the first plaintext block XOR the
first ciphertext block. -/
theorem test_pcbcEnc :
    (runBlocks (pcbcEncStep (known
        [(xorBytes (rep 16 0x41) iv, c0),
          (xorBytes (0x41 :: rep 15 0x0F) (xorBytes (rep 16 0x41) c0),
            hex 16 0x39F2A3F18C50C40F51A3EE0E53B6BCDB)]))
      (ModeState.withIv iv) (pieces 16 pd17)).1 =
      c0 ++ hex 16 0x39F2A3F18C50C40F51A3EE0E53B6BCDB := by decide +kernel

/-- V6.18 backwards. -/
theorem test_pcbcDec :
    (runBlocks (pcbcDecStep (known
        [(c0, xorBytes (rep 16 0x41) iv),
          (hex 16 0x39F2A3F18C50C40F51A3EE0E53B6BCDB,
            xorBytes (0x41 :: rep 15 0x0F) (xorBytes (rep 16 0x41) c0))]))
      (ModeState.withIv iv) (pieces 16 (c0 ++ hex 16 0x39F2A3F18C50C40F51A3EE0E53B6BCDB))).1 = pd17 := by
  decide +kernel

/-- E of the IV of V6. -/
def ks1 : List Byte := hex 16 0x02876FDA2A4B029B52E6C363B6054ACC

/-- V6.26: with SEG = 16 the second keystream block is E of the first ciphertext segment, whose first
four bytes the vector shows. -/
theorem test_cfbEnc :
    (runBlocks (cfbEncStep (known
        [(iv, ks1), (hex 16 0x32B65DE91E7E34AC6ADFF9588A3874F3, hex 4 0xC77725B4 ++ rep 12 0)]) 16)
      (ModeState.withIv iv) (pieces 16 d20)).1 =
      hex 20 0x32B65DE91E7E34AC6ADFF9588A3874F3873667F7 := by decide +kernel

/-- R203: the oldest bytes leave at index 0, the ciphertext segment enters at the high indices. -/
theorem test_cfbDec :
    (cfbDecStep (known [(iv, ks1)]) 5 (ModeState.withIv iv) (hex 5 0x32B65DE91E)).2.fb =
      (List.range 11).map (fun i => BitVec.ofNat 8 (0x15 + i)) ++ hex 5 0x32B65DE91E := by
  decide +kernel

/-- V6.35. -/
theorem test_ofbEnc :
    (runBlocks (ofbStep (known [(iv, ks1), (ks1, hex 16 0xE38A6BBF75629900635C0F73F3CF64ED)]))
      (ModeState.withIv iv) (pieces 16 d20)).1 =
      hex 20 0x32B65DE91E7E34AC6ADFF9588A3874F3A3CB29FC := by decide +kernel

/-- V6.46: counter blocks 0 and 1. -/
theorem test_ctrEnc :
    (runBlocks (ctrStep (known
        [(hex 16 0xF0F1F2F3F4F5F6F70000000000000000, hex 16 0x60FF004895C53774C092841E570B2913),
          (hex 16 0xF0F1F2F3F4F5F6F70000000000000001, hex 16 0x6C06FB04B26C4785D8F9DA6CA68FDE1F)]))
      (ModeState.withNonce (hex 8 0xF0F1F2F3F4F5F6F7)) (pieces 16 d20)).1 =
      hex 20 0x50CE327BA1F00143F8ABBE256B36172C2C47B947 := by decide +kernel

/-- R218: the counter block of i = 258. -/
theorem test_counterBlock :
    counterBlock (hex 8 0xF0F1F2F3F4F5F6F7) 258 = hex 16 0xF0F1F2F3F4F5F6F70000000000000102 := by
  decide

/-- V6.50: mask in clear, then E of the padded block XOR mask. -/
theorem test_rdEnc :
    (rdEncStep (known
        [(xorBytes (abc ++ rep 13 0x0D) (hex 16 0xA0A1A2A3A4A5A6A7A8A9AAABACADAEAF),
          hex 16 0x08381DD655C04272D94D77FAD90EAECC)]) ModeState.cleared
      (hex 16 0xA0A1A2A3A4A5A6A7A8A9AAABACADAEAF ++ (abc ++ rep 13 0x0D))).1 =
      hex 32 0xA0A1A2A3A4A5A6A7A8A9AAABACADAEAF08381DD655C04272D94D77FAD90EAECC := by decide +kernel

/-- V6.50 backwards. -/
theorem test_rdDec :
    (rdDecStep (known
        [(hex 16 0x08381DD655C04272D94D77FAD90EAECC,
          xorBytes (abc ++ rep 13 0x0D) (hex 16 0xA0A1A2A3A4A5A6A7A8A9AAABACADAEAF))])
      ModeState.cleared
      (hex 32 0xA0A1A2A3A4A5A6A7A8A9AAABACADAEAF08381DD655C04272D94D77FAD90EAECC)).1 =
      abc ++ rep 13 0x0D := by decide +kernel

/-! ## Modes: faults and their order -/

/-- V8.1, V8.5: not ready; too long. -/
theorem test_ecbEnc_faults :
    endOf 0x40000002 (withIn abc) = some (0x88, 0) ∧ endOf 0x40000002 (ready 4097 0) = some (0x9E, 0) := by
  decide

/-- V6.90 to V6.92. -/
theorem test_ecbDec_ends :
    endOf 0x48000002 (ready 17 0) = some (0x5E, 0) ∧ endOf 0x48000002 (ready 0 0) = some (0x6E, 0) ∧
      endOf 0x48000000 (ready 0 0) = some (0x06, 0) := by decide

/-- V8.6, V8.20: the IV length; `par` before it. -/
theorem test_cbcEnc_faults :
    endOf 0x41000002 (ready 3 15) = some (0x4E, 0) ∧ endOf 0x41000102 (ready 3 3) = some (0x1E, 0) := by
  decide

/-- R261: CBC.DEC with IVLEN = 15 and INLEN = 17, not ready, ready, and with IVLEN = 16. -/
theorem test_cbcDec_priority :
    endOf 0x49000002 { withLen 17 with regs := (ready 17 15).regs } = some (0x88, 0) ∧
      endOf 0x49000002 (ready 17 15) = some (0x4E, 0) ∧
      endOf 0x49000002 (ready 17 16) = some (0x5E, 0) := by decide

/-- V8.14. -/
theorem test_pcbcEnc_faults : endOf 0x42000002 (ready 3 0) = some (0x4E, 0) := by decide

/-- V6.97, V7.16. -/
theorem test_pcbcDec_faults :
    endOf 0x4A000002 (ready 33 16) = some (0x5E, 0) ∧ endOf 0x4A000102 (ready 16 16) = some (0x1E, 0) := by
  decide

/-- V6.102 to V6.104: SEG out of range, before the IV. -/
theorem test_cfbEnc_faults :
    endOf 0x43000000 (readyWith 3 16 4 0) = some (0x1E, 0) ∧
      endOf 0x43000000 (readyWith 3 15 4 17) = some (0x1E, 0) := by decide

/-- V8.15, V7.14. -/
theorem test_cfbDec_faults :
    endOf 0x4B000000 (ready 3 0) = some (0x4E, 0) ∧ endOf 0x4B000100 (ready 3 16) = some (0x1E, 0) := by
  decide

/-- V8.9 and V6.36 without its data: OFB wants exactly 16 bytes of IV. -/
theorem test_ofbEnc_ends :
    endOf 0x44000000 (ready 3 8) = some (0x4E, 0) ∧ endOf 0x44000000 (ready 33 16) = some (0x06, 33) := by
  decide

/-- V7.13 for the decrypt word, and the length of V6.40. -/
theorem test_ofbDec_ends :
    endOf 0x4C000100 (ready 3 16) = some (0x1E, 0) ∧ endOf 0x4C000000 (ready 20 16) = some (0x06, 20) := by
  decide

/-- V7.8 to V7.10: no chunk, no worker, too many workers. -/
theorem test_ctrEnc_par :
    endOf 0x45000100 (ready 0 8) = some (0x06, 0) ∧
      endOf 0x45000100 (readyWith 33 8 0 16) = some (0x1E, 0) ∧
      endOf 0x45000100 (readyWith 33 8 17 16) = some (0x1E, 0) := by decide

/-- V8.7, V8.8, V7.11. -/
theorem test_ctrDec_ends :
    endOf 0x4D000000 (ready 3 9) = some (0x4E, 0) ∧ endOf 0x4D000000 (ready 3 16) = some (0x4E, 0) ∧
      endOf 0x4D000000 (readyWith 3 8 0 16) = some (0x06, 3) := by decide

/-- V8.13, V7.15: RD ignores the IV and never runs in parallel. -/
theorem test_rdEnc_ends :
    endOf 0x46000002 (ready 3 0) = some (0x06, 32) ∧ endOf 0x46000102 (ready 3 0) = some (0x1E, 0) := by
  decide

/-- V6.98, V6.99: whole units of 32 bytes. -/
theorem test_rdDec_faults :
    endOf 0x4E000002 (ready 16 0) = some (0x5E, 0) ∧ endOf 0x4E000002 (ready 48 0) = some (0x5E, 0) := by
  decide

/-- The interleaving that V7.1 spells out for three chunks and four workers, and the one in which
worker 0 does all: the slots are the same. -/
theorem test_dispatcher :
    let X : ChunkTransform := fun k c => BitVec.ofNat 8 k :: c
    let src := [[0xAA], [0xBB], [(0xCC : Byte)]]
    let run := fun l => (List.foldl (Dispatcher.move X src) (Dispatcher.start 4 3) l).slots
    run [.take 2, .take 0, .take 3, .finish 3 2, .finish 2 0, .finish 0 1] =
        [[0x00, 0xAA], [0x01, 0xBB], [0x02, 0xCC]] ∧
      run [.take 0, .finish 0 0, .take 0, .finish 0 1, .take 0, .finish 0 2] =
        [[0x00, 0xAA], [0x01, 0xBB], [0x02, 0xCC]] := by decide

/-! ## System command and the host -/

/-- The worked example of R245. -/
theorem test_sysReset :
    look (fun t => (t.statusWord, t.regs.poly, t.regs.threads)) (exec .sysReset
      { readyWith 3 0 8 16 with
        status := { feReady := true, keyReady := true, flt := true, err := .divideByZero } }) =
      some (0, 0x11B, 4) := by decide

/-- A word in CMD runs in the very next step. -/
theorem test_withFetchWord :
    look (fun t => (t.statusWord, t.regs.outlen)) (step (State.reset.withFetchWord 32 0x32000000)) =
      some (0x00, 16) := by decide

/-- R66: the refused accesses, one of each kind. -/
theorem test_refused_accesses :
    hostAccess (.readWord 0x000) State.reset = .refused (.readOfWriteOnly 0x000) ∧
      hostAccess (.readByte 0x05F) State.reset = .refused (.readOfWriteOnly 0x05F) ∧
      hostAccess (.writeWord 0x028 0) State.reset = .refused (.writeOfReadOnly 0x028) ∧
      hostAccess (.readWord 0x00E) State.reset = .refused (.misaligned 0x00E) ∧
      hostAccess (.readWord 0x10000) State.reset = .refused (.wrongWidth 0x10000) ∧
      hostAccess (.readOther 0x060 2) State.reset = .refused (.wrongWidth 0x060) ∧
      hostAccess (.readWord 0x02C) State.reset = .fault (.reservedOffset 0x02C) ∧
      hostAccess (.readByte 0x11000) State.reset = .fault (.reservedOffset 0x11000) ∧
      hostAccess (.readByte 0x40000) State.reset = .fault (.outsideFootprint 0x40000) ∧
      hostAccess (.readWord 0x008) { State.reset with cmd := some 0 } =
        .refused (.accessWhileBusy 0x008) := ⟨rfl, rfl, rfl, rfl, rfl, rfl, rfl, rfl, rfl, rfl⟩

/-! ## Witnesses: the hypotheses of each obligation can be met, at the boundaries of its clauses

Obligations without hypotheses need none. -/

theorem witness_DecodeEncode : (Instr.fePow 0xFF 65535).wellFormed = true := by decide

theorem witness_EncodeDecode : decode 0x15FFFFFF = .ok (.fePow 0xFF 65535) := rfl

theorem witness_RowsDecideDecoding :
    decode 0x46000103 = .ok (.rdEnc true .iso) ∧
      (0x46000103 : Word) &&& rowMask (.rdEnc false .zero) = rowMatch (.rdEnc false .zero) :=
  ⟨rfl, by decide⟩

theorem witness_IllegalCommands :
    (∀ i : Instr, (0xFFFFFFFF : Word) &&& rowMask i ≠ rowMatch i) ∧
      ((0x46000103 : Word) &&& rowMask (.rdEnc false .zero) = rowMatch (.rdEnc false .zero) ∧
        (0x46000103 : Word) &&& rowMask (.rdEnc true .ansi) = rowMatch (.rdEnc true .ansi)) ∧
      isDataCommand .padIso = true ∧
      (withLen 4097).conf.bufcap.val < (withLen 4097).regs.inlen.toNat := by
  refine ⟨fun i => ?_, by decide, by decide⟩
  cases i <;> simp only [rowMask, rowMatch] <;> decide

theorem witness_ModeSevenFaults :
    ((0x4FFFFFFF : Word).extractLsb' 28 4 = 4 ∧ (0x4FFFFFFF : Word).extractLsb' 24 3 = 7) ∧
      (0x47000000 : Word).extractLsb' 28 4 = 4 ∧ (0x47000000 : Word).extractLsb' 24 3 = 7 := by decide

/-- A command in hand, without and with an event. -/
def issued (w : Word) (es : List Event) : State := { State.reset with cmd := some w }.withPending es

theorem witness_StepRunsDecoded :
    ((issued 0x30000000 []).cmd = some 0x30000000 ∧ (issued 0x30000000 []).ext.pending = []) ∧
      (issued 0x30000000 [.sequencer]).cmd = some 0x30000000 ∧
      (issued 0x30000000 [.sequencer]).ext.pending = .sequencer :: [] ∧
      decode 0x30000000 = .ok .padZero ∧ decode 0x00000000 = .error .unassignedOpcode :=
  ⟨⟨rfl, rfl⟩, rfl, rfl, rfl, rfl⟩

/-- A block at another address, idle, with these events to come. -/
def placed (base : Nat) (es : List Event) : State :=
  { State.reset with conf := { Params.default with coreBase := base } }.withPending es

theorem witness_StepRunsDecoded_idle :
    ((placed 0 []).cmd = none ∧ (placed 0 []).ext.pending = []) ∧
      ((placed 0 [.sequencer]).cmd = none ∧ (placed 0 [.sequencer]).ext.pending = .sequencer :: []) ∧
      (placed 0x80000 [.access (.readWord 0x80004)]).ext.pending =
        .access ((Access.readWord 0x004).mapOffset
          ((placed 0x80000 [.access (.readWord 0x80004)]).conf.coreBase + ·)) :: [] ∧
      accessOffset (.readByte 0x7FFFF) <
        (placed 0x80000 [.access (.readByte 0x7FFFF)]).conf.coreBase :=
  ⟨⟨rfl, rfl⟩, ⟨rfl, rfl⟩, rfl, by decide⟩

/-- An access through the bus: the block answers at CORE_BASE plus the offset and nowhere below. -/
theorem test_coreBase :
    look (fun t => t.ext.rdata) (step (placed 0x80000 [.access (.readWord 0x8000C)])) = some 0x11B ∧
      step (placed 0x80000 [.access (.readWord 0x0000C)]) = .fault (.belowBase 0x0000C) :=
  ⟨by decide, rfl⟩

theorem witness_idle : State.reset.busy = false := rfl

theorem witness_ReadsHaveNoEffect :
    (∃ t, hostAccess (.readByte 0x2201F) State.reset = .next t) ∧
      ∃ t, hostAccess (.readWord 0x004) (issued 0x30000000 []) = .next t := ⟨⟨_, rfl⟩, ⟨_, rfl⟩⟩

theorem witness_WritesOnlyStore :
    State.reset.busy = false ∧ State.reset.MemOk ∧
      ∀ off ∈ [0x40, 0x5F, 0x60, 0x6F, 0x10000, 0x10FFF], (Access.writeByte off 0).legalIdle Params.default := by
  refine ⟨rfl, ⟨⟨List.Pairwise.nil, by simp [State.reset]⟩, by simp [State.reset]⟩, ?_⟩
  simp [Access.legalIdle, Params.default]

theorem witness_ReadsReturn :
    State.reset.busy = false ∧
      ∀ off ∈ [0x60, 0x6F, 0x10000, 0x10FFF, 0x20000, 0x2201F], (Access.readByte off).legalIdle Params.default := by
  refine ⟨rfl, ?_⟩
  simp [Access.legalIdle, Params.default, Params.outcap]

theorem witness_ResetValues : (issued 0x10000000 [.hwReset]).ext.pending = .hwReset :: [] := rfl

theorem witness_AllowListAndGenerators :
    Params.default.Legal ∧ Params.default.genOf 0x17B = some 0x09 ∧
      Params.default.genOf 0x11B = some 0x03 := ⟨default_legal, by decide, by decide⟩

theorem witness_FeInit :
    (State.reset.conf.Legal ∧ State.reset.conf.genOf State.reset.regs.poly = some 0x03) ∧
      State.reset.conf.genOf 0x1FF = none ∧
      (0x0FF : Word).getLsbD 8 = false ∧ 512 ≤ (0x200 : Word).toNat :=
  ⟨⟨default_legal, by decide⟩, by decide⟩

theorem witness_fieldState : fieldState.FieldOk ∧ fieldState.status.feReady = true :=
  have P := powers_buildTables (p := 0x11B) (g := 0x03)
    (default_legal.order (w := 0x11B) (by decide)).2.2 Tables.reset
  ⟨fun _ => ⟨P.expOk, P.logOk⟩, rfl⟩

/-- FeAddSub, FeMul, FeDiv, FePow, FeInv and HFunction: FE_READY with FieldOk and legal parameters; the clauses of
FeDiv and FeInv at zero and non-zero operands. -/
theorem witness_FieldOperations :
    (fieldState.conf.Legal ∧ fieldState.status.feReady = true ∧ fieldState.FieldOk) ∧ (0x00 : Byte) = 0 ∧ (0x01 : Byte) ≠ 0 ∧
      (0xFF : Byte) ≠ 0 := ⟨⟨default_legal, rfl, witness_fieldState.1⟩, rfl, by decide, by decide⟩

/-- FeAddSub to FeInv without tables. -/
theorem witness_without_tables : State.reset.status.feReady = false ∧ 65535 < 65536 := by decide

/-- A command of each clause of SYS.RESET's frame that completes, and FLT set. -/
theorem witness_SysReset :
    Instr.padZero ≠ .sysReset ∧
      (∃ t, exec .padZero { State.reset with status := { Status.reset with flt := true } } = .next t) ∧
      { State.reset with status := { Status.reset with flt := true } }.status.flt = true :=
  ⟨by decide, ⟨_, rfl⟩, rfl⟩

/-- TablesAgreeWithMultiplyReduce, FieldAxioms and TableLaws. -/
theorem witness_legal_field :
    fieldState.Inv ∧ fieldState.status.feReady = true ∧ (0xFF : Byte) ≠ 0 := by
  have hm := witness_WritesOnlyStore.2.1
  have ho : fieldState.OutOk := ⟨⟨List.Pairwise.nil, by simp [fieldState, State.reset, OutWindow.reset]⟩,
    by simp [fieldState, State.reset, OutWindow.reset], by decide, by decide⟩
  have hr : fieldState.ResOk := (by decide : (0 : Word).toNat < 256)
  exact ⟨⟨default_legal, hm, ho, hr, ⟨rfl, rfl⟩, witness_fieldState.1, .inl rfl, fun h => absurd h (by decide)⟩, rfl,
    by decide⟩

/-- FE_READY and this KEYLEN. -/
def keyLen (n : Nat) : State :=
  { feOnly with regs := { Regs.reset with keylen := BitVec.ofNat 32 n } }

theorem witness_KeySetup :
    (∀ n ∈ [16, 24, 32], (keyLen n).status.feReady = true ∧ (keyLen n).regs.keylen.toNat ∈ [16, 24, 32]) ∧
      State.reset.status.feReady = false ∧
      (keyLen 15).status.feReady = true ∧ (keyLen 15).regs.keylen.toNat ∉ [16, 24, 32] := by decide

theorem witness_BlockRoundTrip : (rep 16 0xFF).length = 16 := by decide

theorem witness_SboxKeyMaterial : Params.default.skey = .interleaved ∧ 3 < 4 := by decide

/-- Key words for clause 2 of HFunction. -/
theorem witness_HFunction : [(1 : Word), 2][1]? = some 2 := rfl

theorem witness_EncryptRounds : 15 < 16 := by decide

theorem witness_BlockCommands :
    ((ready 16 0).status.keyReady = true ∧ (ready 16 0).regs.inlen.toNat = 16) ∧
      4096 < (ready 4097 0).regs.inlen.toNat ∧
      ((withLen 4096).regs.inlen.toNat ≤ 4096 ∧ (withLen 4096).status.keyReady = false) ∧
      (ready 17 0).regs.inlen.toNat ≤ 4096 ∧ (ready 17 0).status.keyReady = true ∧
      (ready 17 0).regs.inlen.toNat ≠ 16 := by decide

theorem witness_PadLength : 15 < 16 ∧ 16 % 16 = 0 := by decide

theorem witness_PadCommands : (withLen 4096).regs.inlen.toNat ≤ 4096 := by decide

/-- UNPAD.ZERO and UNPAD.ISO on one block of padding, the three trailer schemes at trailers 16 and 1. -/
theorem witness_UnpadCommands :
    ((withLen 4096).regs.inlen.toNat ≤ 4096 ∧ (withLen 4096).regs.inlen.toNat % 16 = 0) ∧
      ((withIn (rep 15 0x00 ++ [0x10])).input = [] ++ rep 15 0x00 ++ [0x10] ∧
        (rep 15 0x00).length + 1 = (0x10 : Byte).toNat ∧ (0x10 : Byte).toNat ≤ 16 ∧
        rep 15 0x00 = List.replicate (rep 15 0x00).length 0 ∧
        (withIn (rep 15 0x00 ++ [0x10])).regs.inlen.toNat % 16 = 0) ∧
      ((withIn (rep 15 0x10 ++ [0x10])).input = [] ++ rep 15 0x10 ++ [0x10] ∧
        rep 15 0x10 = List.replicate (rep 15 0x10).length (0x10 : Byte) ∧
        (withIn (rep 15 0x10 ++ [0x10])).regs.inlen.toNat % 16 = 0) ∧
      (withIn (rep 15 0x41 ++ [0x01])).input = rep 15 0x41 ++ [] ++ [0x01] ∧
      ([] : List Byte).length + 1 = (0x01 : Byte).toNat := by decide

/-- The clauses of UnpadCommands that fault. -/
theorem witness_UnpadCommands_faults :
    ((withLen 4095).regs.inlen.toNat ≤ 4096 ∧ (withLen 4095).regs.inlen.toNat % 16 ≠ 0) ∧
      (withLen 0).regs.inlen.toNat = 0 ∧
      ((withIn (rep 15 0x41 ++ [0x00])).input.getLast? = some 0x00 ∧
        (withIn (rep 15 0x41 ++ [0x00])).regs.inlen.toNat % 16 = 0 ∧ (0x00 : Byte).toNat = 0) ∧
      ((withIn (rep 15 0x41 ++ [0x11])).input.getLast? = some 0x11 ∧ 16 < (0x11 : Byte).toNat) ∧
      ((withIn (rep 14 0x41 ++ [0x03, 0x02])).input.getLast? = some 0x02 ∧
        (withIn (rep 14 0x41 ++ [0x03, 0x02])).regs.inlen.toNat % 16 = 0 ∧
        ∃ j b, (withIn (rep 14 0x41 ++ [0x03, 0x02])).regs.inlen.toNat - (0x02 : Byte).toNat ≤ j ∧
          j + 1 < (withIn (rep 14 0x41 ++ [0x03, 0x02])).regs.inlen.toNat ∧
          (withIn (rep 14 0x41 ++ [0x03, 0x02])).input[j]? = some b ∧ b ≠ 0 ∧ b ≠ 0x02) := by
  refine ⟨by decide, by decide, by decide, by decide, by decide, by decide, 14, 0x03, ?_⟩
  decide

theorem witness_PadRoundTrip :
    (rep 15 0xAA).length = padLen ([] : List Byte).length - 1 ∧
      ([] : List Byte).length = padLen (rep 15 0xAA).length - 1 ∧ Scheme.iso ≠ .zero := by decide

/-- The empty input and the longest one; on empty input scheme 0 unpads and the others fault. -/
theorem witness_EcbBlocks :
    (∀ par, modeFault 0 false par (ready 4096 0) = none ∧ modeFault 0 true par (ready 0 0) = none) ∧
      unpadBytes .zero (assemble ((ready 0 0).regs.inlen.toNat / 16) fun i =>
        (ready 0 0).decBlock (blockAt (ready 0 0).input i)) = .ok [] ∧
      unpadBytes .pkcs7 (assemble ((ready 0 0).regs.inlen.toNat / 16) fun i =>
        (ready 0 0).decBlock (blockAt (ready 0 0).input i)) = .error .padding :=
  ⟨by decide, rfl, rfl⟩

theorem witness_CbcChains :
    modeFault 1 false false (ready 4096 16) = none ∧ modeFault 1 true false (ready 0 16) = none ∧
      unpadBytes .zero (assemble ((ready 0 16).regs.inlen.toNat / 16) (cbcPlain
        (ready 0 16).decBlock ((ready 0 16).ivBytes 16) (ready 0 16).input)) = .ok [] ∧
      unpadBytes .iso (assemble ((ready 0 16).regs.inlen.toNat / 16) (cbcPlain
        (ready 0 16).decBlock ((ready 0 16).ivBytes 16) (ready 0 16).input)) = .error .padding :=
  ⟨by decide, by decide, rfl, rfl⟩

theorem witness_PcbcChains :
    modeFault 2 false false (ready 4096 16) = none ∧ modeFault 2 true false (ready 0 16) = none ∧
      unpadBytes .zero (assemble ((ready 0 16).regs.inlen.toNat / 16) (pcbcPlain
        (ready 0 16).decBlock ((ready 0 16).ivBytes 16) (ready 0 16).input)) = .ok [] ∧
      unpadBytes .ansi (assemble ((ready 0 16).regs.inlen.toNat / 16) (pcbcPlain
        (ready 0 16).decBlock ((ready 0 16).ivBytes 16) (ready 0 16).input)) = .error .padding :=
  ⟨by decide, by decide, rfl, rfl⟩

theorem witness_CfbSegments :
    modeFault 3 false false (readyWith 4096 16 0 1) = none ∧
      modeFault 3 false false (readyWith 0 16 0 16) = none := by decide

theorem witness_OfbKeystream :
    modeFault 4 false false (ready 0 16) = none ∧ modeFault 4 false false (ready 4096 16) = none := by
  decide

theorem witness_CtrKeystream :
    modeFault 5 false false (readyWith 4096 8 0 0) = none ∧
      modeFault 5 false true (readyWith 0 8 1 0) = none ∧
      modeFault 5 false true (readyWith 4096 8 16 0) = none := by decide

theorem witness_RandomDeltaUnits :
    modeFault 6 false false (ready 4096 0) = none ∧ modeFault 6 true false (ready 0 0) = none ∧
      unpadBytes .zero (assemble ((ready 0 0).regs.inlen.toNat / 32) (rdPlain
        (ready 0 0).decBlock (ready 0 0).input)) = .ok [] ∧
      unpadBytes .pkcs7 (assemble ((ready 0 0).regs.inlen.toNat / 32) (rdPlain
        (ready 0 0).decBlock (ready 0 0).input)) = .error .padding :=
  ⟨by decide, by decide, rfl, rfl⟩

/-- Each check of R191 fails in some state in which the checks before it pass. -/
theorem witness_ModeChecksInOrder :
    modeOf (.ecbEnc true .zero) = some (0, false, true) ∧
      modeFault 0 false true (ready 4097 0) = some .illegalCommand ∧
      modeFault 0 false true (withLen 4096) = some .notReady ∧
      modeFault 1 false true (ready 0 16) = some .config ∧
      modeFault 5 false true (readyWith 0 8 17 16) = some .config ∧
      modeFault 3 false false (readyWith 0 16 4 17) = some .config ∧
      modeFault 4 false false (ready 0 15) = some .ivLength ∧
      modeFault 5 false false (ready 0 9) = some .ivLength ∧
      modeFault 2 true false (ready 4095 16) = some .length ∧
      modeFault 6 true false (ready 16 0) = some .length := by decide

/-- With the zeroed tables of reset every product is 0. -/
theorem gfMul_reset (a b : Byte) : gfMul Tables.reset a b = 0 := by
  unfold gfMul
  split
  · rfl
  · show (List.replicate 512 (0 : Byte)).getD _ 0 = 0
    rw [List.getD_eq_getElem?_getD, List.getElem?_replicate]
    split <;> rfl

/-- So the block function does not depend on the cipher parameters there. -/
theorem decryptBlock_reset (P : CipherParams) (S K : List Word) (b : List Byte) :
    decryptBlock P Tables.reset S K b = decryptBlock paramsTIA Tables.reset S K b := by
  have hh : ∀ (P : CipherParams) (X : Word), hFun P Tables.reset X S = 0 := by
    intro P X; simp only [hFun, mdsRow, gfMul_reset]; rfl
  have hr : decRound P Tables.reset S = decRound paramsTIA Tables.reset S := by
    funext q k; simp only [decRound, roundF, hh]
  simp only [decryptBlock, hr]

/-- A ready key over the zeroed tables, and one block of ciphertext that deciphers to 15 zero bytes
and the trailer 1. -/
def cipherOne : State :=
  { ready 16 16 with
    mem := Memory.ofBytes inBase
      (encryptBlock paramsTIA Tables.reset [] (List.replicate 40 0) (rep 15 0x00 ++ [0x01])) }

theorem ecbDec_completes {s : State} {p : Scheme} {r : List Byte}
    (hc : firstFault (modeChecks ecbDecNeeds false s) = none)
    (hu : unpadBytes p (runBlocks (ecbStep s.decBlock) ModeState.cleared (pieces 16 s.input)).1 =
      .ok r) : ∃ t, exec (.ecbDec false p) s = .next t ∧ t.status.err = .none := by
  simp only [exec, execEcbDec, modeCommand_pass hc]
  refine ⟨_, rfl, ?_⟩
  simp only [State.runIndependent, State.runSequential, State.withMode, Bool.false_eq_true, if_false]
  rw [hu]
  rfl

set_option Elab.async false in
/-- A padded decrypt with a trailer that completes. -/
theorem witness_OutputLengths_trailer :
    ∃ t, exec (.ecbDec false .pkcs7) cipherOne = .next t ∧ t.status.err = .none := by
  have hd : cipherOne.decBlock = decryptBlock paramsTIA Tables.reset [] (List.replicate 40 0) :=
    funext fun c => decryptBlock_reset _ _ _ c
  have hu : unpadBytes .pkcs7 (runBlocks (ecbStep cipherOne.decBlock) ModeState.cleared
      (pieces 16 cipherOne.input)).1 = .ok (rep 15 0x00) := by
    rw [hd]; decide +kernel
  exact ecbDec_completes (by decide) hu

/-- One command of each clause that completes without fault. -/
theorem witness_OutputLengths :
    ∀ c ∈ [(Instr.ecbEnc true .iso, ready 4096 0), (.rdEnc false .iso, ready 4096 0),
        (.ctrDec true, ready 4096 8), (.cbcDec false .zero, ready 0 16),
        (.rdDec false .zero, ready 0 0)],
      (modeOf c.1).isSome = true ∧ ∃ t, exec c.1 c.2 = .next t ∧ t.status.err = .none := by
  intro c hc
  simp only [List.mem_cons, List.not_mem_nil, or_false] at hc
  rcases hc with rfl | rfl | rfl | rfl | rfl <;> exact ⟨rfl, _, rfl, rfl⟩

theorem witness_KeystreamInvolution :
    ((ready 4096 16).MemOk ∧ modeFault 4 false false (ready 4096 16) = none) ∧
      (ready 4096 8).MemOk ∧ modeFault 5 false true (ready 4096 8) = none :=
  ⟨⟨witness_WritesOnlyStore.2.1, by decide⟩, witness_WritesOnlyStore.2.1, by decide⟩

theorem witness_ModeRoundTrip :
    (ready 4080 16).MemOk ∧
      (∀ par, modeFault 0 false par (ready 4080 16) = none) ∧
      modeFault 1 false false (ready 4080 16) = none ∧ modeFault 2 false false (ready 4080 16) = none ∧
      (ready 4080 16).regs.inlen.toNat + 16 ≤ 4096 ∧
      modeFault 6 false false (ready 2032 16) = none ∧ 2 * (ready 2032 16).regs.inlen.toNat + 32 ≤ 4096 ∧
      modeFault 3 false false (ready 4096 16) = none ∧ modeFault 4 false false (ready 4096 16) = none ∧
      ∀ par, modeFault 5 false par (ready 4096 8) = none :=
  ⟨witness_WritesOnlyStore.2.1, by decide, by decide, by decide, by decide, by decide, by decide,
    by decide, by decide, by decide⟩

/-- Small buffers: BUFCAP 16 takes an empty input through ECB, 20 one of four bytes, 32 an
empty input through RandomDelta; for 31 no length meets RandomDelta's bound. -/
theorem witness_ModeRoundTrip_small :
    ((small 16 0).MemOk ∧ modeFault 0 false true (small 16 0) = none ∧
      (small 16 0).regs.inlen.toNat + 16 ≤ (small 16 0).conf.bufcap.val) ∧
      (modeFault 0 false false (small 20 4) = none ∧
        (small 20 4).regs.inlen.toNat + 16 ≤ (small 20 4).conf.bufcap.val) ∧
      ((small 32 0).MemOk ∧ modeFault 6 false false (small 32 0) = none ∧
        2 * (small 32 0).regs.inlen.toNat + 32 ≤ (small 32 0).conf.bufcap.val) ∧
      ¬2 * (small 31 0).regs.inlen.toNat + 32 ≤ (small 31 0).conf.bufcap.val :=
  ⟨⟨⟨by decide, by simp [small, ready, State.reset]⟩, by decide, by decide⟩, ⟨by decide, by decide⟩,
    ⟨⟨by decide, by simp [small, ready, State.reset]⟩, by decide, by decide⟩, by decide⟩

theorem witness_ModeStateDiscarded :
    modeOf (.cbcEnc false .pkcs7) = some (1, false, false) ∧
      ∃ t, exec (.cbcEnc false .pkcs7) (ready 4096 16) = .next t := ⟨rfl, _, rfl⟩

theorem witness_ChainedModesRefusePar :
    (ready 4096 16).regs.inlen.toNat ≤ 4096 ∧ (ready 4096 16).status.keyReady = true := by decide

theorem witness_DispatcherEveryInterleaving : 1 ≤ 1 := Nat.le_refl 1

theorem witness_ParallelEqualsSequential :
    (1 ≤ (readyWith 0 8 1 0).regs.threads.toNat ∧ (readyWith 0 8 1 0).regs.threads.toNat ≤ 16) ∧
      1 ≤ (readyWith 0 8 16 0).regs.threads.toNat ∧ (readyWith 0 8 16 0).regs.threads.toNat ≤ 16 := by
  decide

theorem witness_DataCommandFrame :
    isDataCommand (.rdEnc false .iso) = true ∧ (∃ t, exec (.rdEnc false .iso) (ready 4096 0) = .next t) ∧
      ¬(0x20000 ≤ 0x1FFFF ∧ 0x1FFFF < 0x20000 + 8224) ∧
      ¬(0x20000 ≤ 0x22020 ∧ 0x22020 < 0x20000 + 8224) := ⟨rfl, ⟨_, rfl⟩, by decide, by decide⟩

theorem witness_OutBeyondLength :
    (isDataCommand .blkEnc = true ∧ ∃ t, exec .blkEnc (ready 16 0) = .next t ∧
      t.regs.outlen.toNat ≤ 16 ∧ t.regs.outlen.toNat ≤ 8223) ∧
      isDataCommand .keySetup = false ∧ ∃ t, exec .keySetup feOnly = .next t :=
  ⟨⟨rfl, _, rfl, by decide, by decide⟩, rfl, _, rfl⟩

/-- A command of each clause. -/
theorem witness_OnlyWriters :
    ∀ i ∈ [Instr.keySetup, .feInit, .feAdd 1 2, .blkEnc, .padIso, .cbcEnc false .zero, .mode7Enc 0],
      i ≠ .sysReset ∧ ∃ t, exec i (ready 16 0) = .next t := by
  intro i hi
  simp only [List.mem_cons, List.not_mem_nil, or_false] at hi
  rcases hi with rfl | rfl | rfl | rfl | rfl | rfl | rfl <;> exact ⟨by decide, _, rfl⟩

/-- A word that faults and one that completes; a data command that faults, and FE.INIT and KEY.SETUP
where they do. -/
theorem witness_FaultAndCompletion :
    ((∃ t, runWord 0x00000000 State.reset = .next t ∧ t.status.err ≠ .none) ∧
      ∀ i, decode 0x00000000 = .ok i → isDataCommand i = false) ∧
      (∃ t, runWord 0x30000000 State.reset = .next t ∧ t.status.err = .none) ∧
      (decode 0x40000000 = .ok (.ecbEnc false .zero) ∧ isDataCommand (.ecbEnc false .zero) = true ∧
        ∃ t, runWord 0x40000000 State.reset = .next t ∧ t.status.err ≠ .none) ∧
      (∃ t, runWord 0x10000000 { feOnly with regs := { Regs.reset with poly := 0x21B } } = .next t ∧
        t.status.err ≠ .none) ∧
      ∃ t, runWord 0x20000000 feOnly = .next t ∧ t.status.err ≠ .none :=
  ⟨⟨⟨_, rfl, by decide⟩, fun i h => by cases h⟩, ⟨_, rfl, rfl⟩, ⟨rfl, rfl, _, rfl, by decide⟩,
    ⟨_, rfl, by decide⟩, _, rfl, by decide⟩

theorem witness_ReissueFaultsAgain :
    (∃ t, runWord 0x14000000 feOnly = .next t ∧ t.status.err ≠ .none) ∧
      ∃ t, runWord 0x48000102 (ready 0 0) = .next t ∧ t.status.err ≠ .none :=
  ⟨⟨_, rfl, by decide⟩, _, rfl, by decide⟩

theorem witness_KeyWindowNotRead :
    Instr.ecbEnc false .zero ≠ .keySetup ∧ Instr.ecbEnc false .zero ≠ .sysReset ∧
      ∀ a, ¬(0x40 ≤ a ∧ a ≤ 0x5F) →
        Memory.read [(0x40, 0xFF), (0x5F, 0xFF)] a = Memory.read (ready 16 0).mem a := by
  refine ⟨by decide, by decide, fun a ha => ?_⟩
  rw [Memory.read_cons, if_neg (by omega), Memory.read_cons, if_neg (by omega)]
  rfl

theorem witness_StepKeepsInvariant : fieldState.Inv ∧ ∃ t, step fieldState = .next t :=
  ⟨witness_legal_field.1, _, rfl⟩

end Sys2Proof.Tests
end

section
/-! PROOFS of the family spec/10_state.md: the reset values (R50, R280). -/

namespace Sys2Proof.Machine

/-! ## The block's state after reset, piece by piece (R50) -/

theorem Tables.reset_exp_getElem (i : Fin 512) : Tables.reset.exp[i] = 0 :=
  List.getElem_replicate ..

theorem Tables.reset_log_getElem (i : Fin 256) : Tables.reset.log[i] = 0 :=
  List.getElem_replicate ..

theorem KeyState.reset_me_getElem (i : Fin 4) : KeyState.reset.me[i] = 0 :=
  List.getElem_replicate ..

theorem KeyState.reset_mo_getElem (i : Fin 4) : KeyState.reset.mo[i] = 0 :=
  List.getElem_replicate ..

theorem KeyState.reset_sbox_getElem (i : Fin 8) : KeyState.reset.sbox[i] = 0 :=
  List.getElem_replicate ..

theorem KeyState.reset_k_getElem (i : Fin 40) : KeyState.reset.k[i] = 0 :=
  List.getElem_replicate ..

theorem State.reset_statusWord : State.reset.statusWord = 0 := by decide

/-- STATUS is a function of `cmd` and `status` alone, both of which `resetBlock` sets. -/
theorem State.resetBlock_statusWord (s : State) : s.resetBlock.statusWord = 0 :=
  State.reset_statusWord

theorem OutWindow.read_reset {P : Params} {i : Nat} (h : i < P.outcap) :
    (OutWindow.reset P).read i = 0 := by
  have hstart : i < (OutWindow.reset P).start := h
  rw [OutWindow.read, if_pos hstart]
  exact Memory.read_nil _

/-- Inside OUT nothing is unspecified, since the reset window begins its unspecified part at OUTCAP;
every other byte is one of a memory that lists nothing. -/
theorem State.resetBlock_readByte (s : State) (a : Nat) : s.resetBlock.readByte a = 0 := by
  rw [State.readByte, State.resetBlock_out, State.resetBlock_mem, State.resetBlock_conf]
  split
  · next hout => exact OutWindow.read_reset (by omega)
  · exact Memory.read_nil a

/-- The one state operation of both resets reaches the table of R50 from every state. -/
theorem State.resetBlock_atReset (s : State) : s.resetBlock.atReset :=
  ⟨s.resetBlock_statusWord, rfl, rfl, rfl, rfl, rfl, rfl, rfl, rfl, rfl, rfl,
    s.resetBlock_readByte,
    Tables.reset_exp_getElem, Tables.reset_log_getElem,
    rfl, KeyState.reset_me_getElem, KeyState.reset_mo_getElem,
    KeyState.reset_sbox_getElem, KeyState.reset_k_getElem,
    rfl, rfl, rfl, rfl, rfl⟩

/-! ## The three ways to the reset state -/

theorem State.resetBlock_reset : State.reset.resetBlock = State.reset := rfl

theorem State.reset_atReset : State.reset.atReset :=
  State.resetBlock_reset ▸ State.reset.resetBlock_atReset

theorem step_hwReset {s : State} {es : List Event} (h : s.ext.pending = .hwReset :: es) :
    step s = .next (s.withPending es).resetBlock := by
  rw [step, h]

theorem exec_sysReset (s : State) : exec .sysReset s = .next s.resetBlock := rfl

/-- Settles O14: hardware reset and SYS.RESET are both `State.resetBlock`, in every state, and
`State.reset` is a fixed point of it. -/
theorem resetValues : Obligations.ResetValues :=
  ⟨State.reset_atReset,
    fun _ _ h => ⟨_, step_hwReset h, State.resetBlock_atReset _⟩,
    fun s => ⟨_, exec_sysReset s, s.resetBlock_atReset⟩⟩

end Sys2Proof.Machine
end

section
/-! PROOFS of the family spec/20_memory.md: what lies at a block offset (R44, R65), and which host
accesses have a step (R60, R66). -/

namespace Sys2Proof.Machine

/-! ## What lies at an offset -/

/-- The offset of each register (the table of spec/10_state.md section 4). -/
def RegName.offset : RegName → Nat
  | .cmd => 0x000
  | .status => 0x004
  | .res => 0x008
  | .poly => 0x00C
  | .polya => 0x010
  | .threads => 0x014
  | .seg => 0x018
  | .keylen => 0x01C
  | .ivlen => 0x020
  | .inlen => 0x024
  | .outlen => 0x028

/-- The registers a host may read (R23, R24, R27 to R35). -/
def RegName.readable : List RegName :=
  [.status, .res, .poly, .polya, .threads, .seg, .keylen, .ivlen, .inlen, .outlen]

/-- The registers a host may write (R23, R28, R30 to R34). -/
def RegName.writable : List RegName := [.cmd, .poly, .threads, .seg, .keylen, .ivlen, .inlen]

/-- The first offset and the size of each window (R44). -/
def Place.window (P : Params) : Place → Option (Nat × Nat)
  | .key => some (0x40, 32)
  | .iv => some (0x60, 16)
  | .inWin => some (0x10000, P.bufcap.val)
  | .outWin => some (0x20000, P.outcap)
  | .reg _ | .regInside | .reserved | .outside => none

theorem regAtIndex_eq_none_iff {i : Nat} : regAtIndex i = none ↔ 11 ≤ i :=
  List.getElem?_eq_none_iff

theorem regAtIndex_eq_some_iff {i : Nat} {r : RegName} : regAtIndex i = some r ↔ 4 * i = r.offset := by
  constructor
  · intro h
    have hi : i < 11 := (List.getElem?_eq_some_iff.1 h).1
    interval_cases i <;> cases h <;> rfl
  · intro h
    obtain rfl : i = r.offset / 4 := by omega
    cases r <;> rfl

theorem placeAt_offset (P : Params) (r : RegName) : placeAt P r.offset = .reg r := by
  cases r <;> rfl

theorem placeAt_of_lt {P : Params} {off : Nat} (h : off < 0x2C) :
    placeAt P off = .regInside ∨ ∃ r, off = r.offset ∧ placeAt P off = .reg r := by
  obtain ⟨r, hr⟩ : ∃ r, regAtIndex (off / 4) = some r :=
    Option.ne_none_iff_exists'.1 fun hnone => by have := regAtIndex_eq_none_iff.1 hnone; omega
  by_cases halign : off % 4 = 0
  · have hoff : off = r.offset := by have := regAtIndex_eq_some_iff.1 hr; omega
    exact .inr ⟨r, hoff, hoff ▸ placeAt_offset P r⟩
  · have hfoot : ¬footprint ≤ off := by unfold footprint; omega
    exact .inl (by simp [placeAt, hfoot, hr, halign])

theorem placeAt_of_le {P : Params} {off : Nat} (h : 0x2C ≤ off) :
    placeAt P off =
      if 0x40000 ≤ off then .outside
      else if 0x40 ≤ off ∧ off < 0x60 then .key
      else if 0x60 ≤ off ∧ off < 0x70 then .iv
      else if 0x10000 ≤ off ∧ off < 0x10000 + P.bufcap.val then .inWin
      else if 0x20000 ≤ off ∧ off < 0x20000 + P.outcap then .outWin
      else .reserved := by
  rw [placeAt, regAtIndex_eq_none_iff.2 (by omega)]
  rfl

theorem placeAt_eq_reg_iff {P : Params} {off : Nat} {r : RegName} :
    placeAt P off = .reg r ↔ off = r.offset := by
  refine ⟨fun h => ?_, fun h => h ▸ placeAt_offset P r⟩
  by_cases hlow : off < 0x2C
  · obtain hin | ⟨q, hoff, hq⟩ := placeAt_of_lt (P := P) hlow
    · simp [hin] at h
    · obtain rfl : q = r := by simpa [hq] using h
      exact hoff
  · rw [placeAt_of_le (by omega)] at h
    split_ifs at h

/-- A window is where R44 puts it: by the bounds on BUFCAP no two overlap and none leaves the
footprint, so the order of the tests in `placeAt` does not count. -/
theorem placeAt_eq_window_iff {P : Params} {off b n : Nat} {p : Place} (hp : p.window P = some (b, n)) :
    placeAt P off = p ↔ b ≤ off ∧ off < b + n := by
  obtain ⟨-, hcap, hout⟩ := P.capacities
  by_cases hlow : off < 0x2C
  · have hne : placeAt P off ≠ p := by
      rintro rfl
      obtain h | ⟨r, -, h⟩ := placeAt_of_lt (P := P) hlow <;> simp [h, Place.window] at hp
    have hb : 0x40 ≤ b := by cases p <;> cases hp <;> decide
    exact iff_of_false hne (by omega)
  · rw [placeAt_of_le (by omega)]
    cases p with
    | key | iv | inWin | outWin => cases hp; split_ifs <;> simp <;> omega
    | reg | regInside | reserved | outside => cases hp

theorem placeAt_eq_key_iff {P : Params} {off : Nat} :
    placeAt P off = .key ↔ 0x40 ≤ off ∧ off < 0x40 + 32 := placeAt_eq_window_iff rfl

theorem placeAt_eq_iv_iff {P : Params} {off : Nat} :
    placeAt P off = .iv ↔ 0x60 ≤ off ∧ off < 0x60 + 16 := placeAt_eq_window_iff rfl

theorem placeAt_eq_inWin_iff {P : Params} {off : Nat} :
    placeAt P off = .inWin ↔ 0x10000 ≤ off ∧ off < 0x10000 + P.bufcap.val := placeAt_eq_window_iff rfl

theorem placeAt_eq_outWin_iff {P : Params} {off : Nat} :
    placeAt P off = .outWin ↔ 0x20000 ≤ off ∧ off < 0x20000 + P.outcap := placeAt_eq_window_iff rfl

/-! ## What each width of access can do -/

theorem exists_readReg_iff {r : RegName} {s : State} :
    (∃ v, s.readReg r = some v) ↔ r ∈ RegName.readable := by
  cases r <;> simp [State.readReg, RegName.readable]

theorem exists_writeReg_iff {r : RegName} {v : Word} {s : State} :
    (∃ t, s.writeReg r v = some t) ↔ r ∈ RegName.writable := by
  cases r <;> simp [State.writeReg, RegName.writable]

theorem hostReadWord_eq_next_iff {off : Nat} {s t : State} :
    hostReadWord off s = .next t ↔
      ∃ r v, placeAt s.conf off = .reg r ∧ s.readReg r = some v ∧ t = s.withRead v := by
  unfold hostReadWord
  cases placeAt s.conf off with
  | reg r => cases hv : s.readReg r <;> simp [hv, eq_comm]
  | regInside | key | iv | inWin | outWin | reserved | outside => simp

theorem hostWriteWord_eq_next_iff {off : Nat} {v : Word} {s t : State} :
    hostWriteWord off v s = .next t ↔
      ∃ r, placeAt s.conf off = .reg r ∧ s.writeReg r v = some t := by
  unfold hostWriteWord
  cases placeAt s.conf off with
  | reg r => cases hw : s.writeReg r v <;> simp [hw]
  | regInside | key | iv | inWin | outWin | reserved | outside => simp

theorem hostReadByte_eq_next_iff {off : Nat} {s t : State} :
    hostReadByte off s = .next t ↔
      (placeAt s.conf off = .iv ∨ placeAt s.conf off = .inWin ∨ placeAt s.conf off = .outWin) ∧
        t = s.withRead ((s.readByte off).setWidth 32) := by
  unfold hostReadByte
  cases placeAt s.conf off <;> simp [eq_comm]

theorem hostWriteByte_eq_next_iff {off : Nat} {b : Byte} {s t : State} :
    hostWriteByte off b s = .next t ↔
      (placeAt s.conf off = .key ∨ placeAt s.conf off = .iv ∨ placeAt s.conf off = .inWin) ∧
        t = { s with mem := Memory.write s.mem off b } := by
  unfold hostWriteByte
  cases placeAt s.conf off <;> simp [eq_comm]

theorem hostOther_ne_next {off : Nat} {s t : State} : hostOther off s ≠ .next t := by
  unfold hostOther
  cases placeAt s.conf off <;> simp

/-! ## The accesses that have a step, width by width (R60) -/

theorem exists_hostReadWord_next_iff {off : Nat} {s : State} :
    (∃ t, hostReadWord off s = .next t) ↔ (Access.readWord off).legalIdle s.conf := by
  change _ ↔ off ∈ RegName.readable.map RegName.offset
  rw [List.mem_map]
  constructor
  · rintro ⟨t, ht⟩
    obtain ⟨r, v, hplace, hv, -⟩ := hostReadWord_eq_next_iff.1 ht
    exact ⟨r, exists_readReg_iff.1 ⟨v, hv⟩, (placeAt_eq_reg_iff.1 hplace).symm⟩
  · rintro ⟨r, hr, rfl⟩
    obtain ⟨v, hv⟩ := exists_readReg_iff.2 hr
    exact ⟨_, hostReadWord_eq_next_iff.2 ⟨r, v, placeAt_offset s.conf r, hv, rfl⟩⟩

theorem exists_hostWriteWord_next_iff {off : Nat} {v : Word} {s : State} :
    (∃ t, hostWriteWord off v s = .next t) ↔ (Access.writeWord off v).legalIdle s.conf := by
  change _ ↔ off ∈ RegName.writable.map RegName.offset
  rw [List.mem_map]
  constructor
  · rintro ⟨t, ht⟩
    obtain ⟨r, hplace, hw⟩ := hostWriteWord_eq_next_iff.1 ht
    exact ⟨r, exists_writeReg_iff.1 ⟨t, hw⟩, (placeAt_eq_reg_iff.1 hplace).symm⟩
  · rintro ⟨r, hr, rfl⟩
    obtain ⟨t, hw⟩ := exists_writeReg_iff.2 hr
    exact ⟨t, hostWriteWord_eq_next_iff.2 ⟨r, placeAt_offset s.conf r, hw⟩⟩

theorem exists_hostReadByte_next_iff {off : Nat} {s : State} :
    (∃ t, hostReadByte off s = .next t) ↔ (Access.readByte off).legalIdle s.conf := by
  simp only [hostReadByte_eq_next_iff, exists_and_left, exists_eq, and_true,
    placeAt_eq_iv_iff, placeAt_eq_inWin_iff, placeAt_eq_outWin_iff, Access.legalIdle]
  omega

theorem exists_hostWriteByte_next_iff {off : Nat} {b : Byte} {s : State} :
    (∃ t, hostWriteByte off b s = .next t) ↔ (Access.writeByte off b).legalIdle s.conf := by
  simp only [hostWriteByte_eq_next_iff, exists_and_left, exists_eq, and_true,
    placeAt_eq_key_iff, placeAt_eq_iv_iff, placeAt_eq_inWin_iff, Access.legalIdle]
  omega

/-! ## BUSY (R66, R284) -/

theorem isStatusRead_iff {P : Params} {a : Access} :
    isStatusRead P a = true ↔ a = .readWord 0x004 := by
  cases a with
  | readWord off => simp [isStatusRead, placeAt_eq_reg_iff, RegName.offset]
  | readByte | readOther | writeWord | writeByte | writeOther => simp [isStatusRead]

theorem exists_hostAccess_next_iff_of_idle {a : Access} {s : State} (h : s.busy = false) :
    (∃ t, hostAccess a s = .next t) ↔ a.legalIdle s.conf := by
  unfold hostAccess
  rw [h, Bool.false_and, if_neg Bool.false_ne_true]
  cases a with
  | readWord off => exact exists_hostReadWord_next_iff
  | readByte off => exact exists_hostReadByte_next_iff
  | writeWord off v => exact exists_hostWriteWord_next_iff
  | writeByte off b => exact exists_hostWriteByte_next_iff
  | readOther off n | writeOther off n =>
    exact iff_of_false (fun ⟨_, ht⟩ => hostOther_ne_next ht) id

theorem hostAccess_statusRead (s : State) :
    hostAccess (.readWord 0x004) s = .next (s.withRead s.statusWord) := by
  have hread : isStatusRead s.conf (.readWord 0x004) = true := isStatusRead_iff.2 rfl
  rw [hostAccess, hread, Bool.not_true, Bool.and_false]
  exact hostReadWord_eq_next_iff.2 ⟨.status, _, placeAt_offset s.conf .status, rfl, rfl⟩

theorem exists_hostAccess_next_iff_of_busy {a : Access} {s : State} (h : s.busy = true) :
    (∃ t, hostAccess a s = .next t) ↔ a = .readWord 0x004 := by
  constructor
  · rintro ⟨t, ht⟩
    by_contra hne
    have hother : isStatusRead s.conf a = false :=
      Bool.eq_false_iff.2 fun htrue => hne (isStatusRead_iff.1 htrue)
    simp [hostAccess, h, hother] at ht
  · rintro rfl
    exact ⟨_, hostAccess_statusRead s⟩

/-- Settles O9: BUSY decides which of the two lists of legal accesses counts. -/
theorem legalAccesses : Obligations.LegalAccesses := by
  intro a s
  unfold Access.legal
  split
  · next hbusy => exact exists_hostAccess_next_iff_of_busy hbusy
  · next hidle => exact exists_hostAccess_next_iff_of_idle (by simpa using hidle)

end Sys2Proof.Machine
end

section
/-! PROOFS of the family spec/30_encoding.md: when a word is a word of a row of the opcode table (R81,
R89), in the terms of the decoder. -/

namespace Sys2Proof

/-! ## Words by opcode and low bits -/

theorem word_eq_iff {v w : Word} : v = w ↔ fieldOp v = fieldOp w ∧ fieldLow v = fieldLow w := by
  constructor
  · rintro rfl
    exact ⟨rfl, rfl⟩
  · rintro ⟨hop, hlow⟩
    rw [← wordM7_fields v, ← wordM7_fields w, hop, hlow]

theorem fieldOp_and (v w : Word) : fieldOp (v &&& w) = fieldOp v &&& fieldOp w :=
  BitVec.extractLsb'_and

theorem fieldLow_and (v w : Word) : fieldLow (v &&& w) = fieldLow v &&& fieldLow w :=
  BitVec.extractLsb'_and

/-! ## The rows of the opcode table (R81) -/

/-- The must-be-zero bits of the command's format; FE.POW and mode number 7 have none. -/
def rowZeroBits (i : Instr) : Word :=
  match i with
  | .sysReset | .feInit | .keySetup | .blkEnc | .blkDec => zeroBitsZ
  | .padZero | .padAnsi | .padPkcs7 | .padIso => zeroBitsZ
  | .unpadZero | .unpadAnsi | .unpadPkcs7 | .unpadIso => zeroBitsZ
  | .feAdd _ _ | .feSub _ _ | .feMul _ _ | .feDiv _ _ => zeroBitsF2
  | .feInv _ => zeroBitsF1
  | .ecbEnc _ _ | .cbcEnc _ _ | .pcbcEnc _ _ | .rdEnc _ _ => zeroBitsMP
  | .ecbDec _ _ | .cbcDec _ _ | .pcbcDec _ _ | .rdDec _ _ => zeroBitsMP
  | .cfbEnc _ | .ofbEnc _ | .ctrEnc _ | .cfbDec _ | .ofbDec _ | .ctrDec _ => zeroBitsMU
  | .fePow _ _ | .mode7Enc _ | .mode7Dec _ => 0

theorem fieldOp_rowMask (i : Instr) : fieldOp (rowMask i) = 0xFF := by
  cases i <;> simp only [rowMask] <;> rfl

theorem fieldLow_rowMask (i : Instr) : fieldLow (rowMask i) = fieldLow (rowZeroBits i) := by
  cases i <;> simp only [rowMask, rowZeroBits] <;> rfl

theorem fieldOp_rowZeroBits (i : Instr) : fieldOp (rowZeroBits i) = 0 := by
  cases i <;> simp only [rowZeroBits] <;> rfl

theorem fieldLow_rowMatch (i : Instr) : fieldLow (rowMatch i) = 0 := by
  cases i <;> simp only [rowMatch] <;> rfl

/-- A row is met by its opcode and its format's zero bits, which is what the decoder tests. -/
theorem and_rowMask_eq_rowMatch_iff {w : Word} {i : Instr} :
    w &&& rowMask i = rowMatch i ↔ fieldOp w = fieldOp (rowMatch i) ∧ w &&& rowZeroBits i = 0 := by
  have hall : fieldOp w &&& 0xFF = fieldOp w := BitVec.and_allOnes
  have hnone : fieldOp w &&& 0 = fieldOp 0 := BitVec.and_zero
  have hzero : fieldLow 0 = 0 := rfl
  simp only [word_eq_iff, fieldOp_and, fieldLow_and, fieldOp_rowMask, fieldLow_rowMask,
    fieldOp_rowZeroBits, fieldLow_rowMatch, hall, hnone, hzero, true_and]

/-- No two rows have the same opcode. -/
theorem rowMatch_eq_of_and_rowMask {w : Word} {i j : Instr} (hi : w &&& rowMask i = rowMatch i)
    (hj : w &&& rowMask j = rowMatch j) : rowMatch i = rowMatch j := by
  obtain ⟨hopi, -⟩ := and_rowMask_eq_rowMatch_iff.1 hi
  obtain ⟨hopj, -⟩ := and_rowMask_eq_rowMatch_iff.1 hj
  exact word_eq_iff.2 ⟨hopi.symm.trans hopj, by rw [fieldLow_rowMatch, fieldLow_rowMatch]⟩

/-! ## The decoder and the rows -/

theorem requireZero_eq_ok_iff {z w : Word} {i j : Instr} :
    requireZero z w i = .ok j ↔ w &&& z = 0 ∧ i = j := by
  unfold requireZero
  split
  · next hzero => rw [Except.ok.injEq, and_iff_right hzero]
  · next hzero => exact iff_of_false nofun fun h => hzero h.1

/-- A word that decodes is a word of the row of the command it names. -/
theorem and_rowMask_of_decode {w : Word} {i : Instr} (h : decode w = .ok i) :
    w &&& rowMask i = rowMatch i := by
  rw [and_rowMask_eq_rowMatch_iff]
  unfold decode at h
  split at h
  -- FE.POW and mode number 7, which have no bit that must be zero
  case h_7 hop | h_27 hop | h_35 hop =>
    cases h
    simp only [rowMatch]
    exact ⟨BitVec.eq_of_toNat_eq hop, BitVec.and_zero⟩
  case h_36 => cases h
  all_goals
    next hop =>
    obtain ⟨hzero, rfl⟩ := requireZero_eq_ok_iff.1 h
    simp only [rowMatch]
    exact ⟨BitVec.eq_of_toNat_eq hop, hzero⟩

/-- Every word of a row decodes. -/
theorem exists_decode_of_and_rowMask {w : Word} {i : Instr} (h : w &&& rowMask i = rowMatch i) :
    ∃ j, decode w = .ok j := by
  obtain ⟨hop, hzero⟩ := and_rowMask_eq_rowMatch_iff.1 h
  unfold decode
  rw [hop]
  cases i with
  | fePow | mode7Enc | mode7Dec =>
    simp only [rowMatch]
    exact ⟨_, rfl⟩
  | _ =>
    simp only [rowMatch]
    exact ⟨_, requireZero_eq_ok_iff.2 ⟨hzero, rfl⟩⟩

theorem exists_decode_error_of_no_row {w : Word} (h : ∀ i, w &&& rowMask i ≠ rowMatch i) :
    ∃ e, decode w = .error e := by
  cases hw : decode w with
  | error e => exact ⟨e, rfl⟩
  | ok i => exact absurd (and_rowMask_of_decode hw) (h i)

theorem no_row_of_decode_error {w : Word} {e : DecodeError} (h : decode w = .error e) (i : Instr) :
    w &&& rowMask i ≠ rowMatch i := by
  intro hrow
  obtain ⟨j, hj⟩ := exists_decode_of_and_rowMask hrow
  rw [h] at hj
  cases hj

/-! ## Mode number 7 (R92) -/

/-- Bits 31:28 and 26:24 leave of the opcode only bit 27 open, the direction. -/
theorem decode_of_mode_seven {w : Word} (hgroup : w.extractLsb' 28 4 = 4)
    (hmode : w.extractLsb' 24 3 = 7) :
    decode w = .ok (.mode7Enc (fieldLow w)) ∨ decode w = .ok (.mode7Dec (fieldLow w)) := by
  have hop : (fieldOp w).toNat = 0x47 ∨ (fieldOp w).toNat = 0x4F := by
    have h4 : (w.extractLsb' 28 4).toNat = 4 := congrArg BitVec.toNat hgroup
    have h7 : (w.extractLsb' 24 3).toNat = 7 := congrArg BitVec.toNat hmode
    simp only [fieldOp, BitVec.extractLsb'_toNat, Nat.shiftRight_eq_div_pow] at h4 h7 ⊢
    omega
  obtain hop | hop := hop
  · exact .inl (by rw [decode, hop]; rfl)
  · exact .inr (by rw [decode, hop]; rfl)

end Sys2Proof
end

section
/-! PROOFS of the family spec/30_encoding.md: words and commands that fault before anything else is
done (R92, R93, R259). -/

namespace Sys2Proof.Machine

/-! ## Words -/

/-- The fault of a command that is not a data command records the code and changes nothing else. -/
theorem State.raise_false_eq_endsWith {e : ErrCode} (he : e ≠ .none) (s : State) :
    s.raise false e = s.endsWith e := by
  simp [State.raise, State.endsWith, he]

theorem runWord_of_decode_ok {w : Word} {i : Instr} (h : decode w = .ok i) (s : State) :
    runWord w s = exec i s := by
  rw [runWord, h]

theorem runWord_of_decode_error {w : Word} {e : DecodeError} (h : decode w = .error e) (s : State) :
    runWord w s = .next (s.endsWith .illegalCommand) := by
  rw [runWord, h, illegalWord, State.raise_false_eq_endsWith (by decide)]

theorem exec_mode7Enc (low : BitVec 24) (s : State) :
    exec (.mode7Enc low) s = .next (s.endsWith .config) := by
  rw [exec, execMode7Enc, State.raise_false_eq_endsWith (by decide)]

theorem exec_mode7Dec (low : BitVec 24) (s : State) :
    exec (.mode7Dec low) s = .next (s.endsWith .config) := by
  rw [exec, execMode7Dec, State.raise_false_eq_endsWith (by decide)]

/-! ## Data commands with INLEN > BUFCAP (R259 (b)) -/

section TooLong

variable {s : State} (h : s.conf.bufcap.val < s.regs.inlen.toNat)
include h

theorem inputTooLong_of_lt : s.inputTooLong = true := decide_eq_true h

theorem dataFault_blockCommand_of_tooLong (f : List Byte → List Byte) :
    ∃ t, blockCommand f s = .next t ∧ DataFault s t .illegalCommand := by
  have hfirst : firstFault (blockChecks s) = some .illegalCommand := if_pos (inputTooLong_of_lt h)
  exact ⟨_, by rw [blockCommand, hfirst], dataFault_raise rfl rfl rfl rfl rfl rfl rfl⟩

theorem dataFault_padCommand_of_tooLong (p : Scheme) :
    ∃ t, padCommand p s = .next t ∧ DataFault s t .illegalCommand :=
  ⟨_, if_pos (inputTooLong_of_lt h), dataFault_raise rfl rfl rfl rfl rfl rfl rfl⟩

theorem dataFault_unpadCommand_of_tooLong (p : Scheme) :
    ∃ t, unpadCommand p s = .next t ∧ DataFault s t .illegalCommand :=
  ⟨_, if_pos (inputTooLong_of_lt h), dataFault_raise rfl rfl rfl rfl rfl rfl rfl⟩

theorem dataFault_modeCommand_of_tooLong (needs : ModeNeeds) (par : Bool) (work : State → State) :
    ∃ t, modeCommand needs par work s = .next t ∧ DataFault s t .illegalCommand :=
  ⟨_, modeCommand_fail (if_pos (inputTooLong_of_lt h)), dataFault_raise rfl rfl rfl rfl rfl rfl rfl⟩

/-- Each of the four shared shapes of a data command tests the length first. -/
theorem dataFault_exec_of_tooLong {i : Instr} (hi : isDataCommand i = true) :
    ∃ t, exec i s = .next t ∧ DataFault s t .illegalCommand := by
  cases i with
  | blkEnc | blkDec => exact dataFault_blockCommand_of_tooLong h _
  | padZero | padAnsi | padPkcs7 | padIso => exact dataFault_padCommand_of_tooLong h _
  | unpadZero | unpadAnsi | unpadPkcs7 | unpadIso => exact dataFault_unpadCommand_of_tooLong h _
  | ecbEnc | cbcEnc | pcbcEnc | cfbEnc | ofbEnc | ctrEnc | rdEnc
  | ecbDec | cbcDec | pcbcDec | cfbDec | ofbDec | ctrDec | rdDec =>
    simp only [exec]
    exact dataFault_modeCommand_of_tooLong h _ _ _
  | sysReset | feInit | feAdd | feSub | feMul | feDiv | fePow | feInv | keySetup
  | mode7Enc | mode7Dec => cases hi

end TooLong

/-! ## The statements -/

/-- The four words of R93 do not decode. -/
theorem decode_error_of_mem_examples {w : Word}
    (h : w ∈ [0x00000000, 0x13010000, 0x43000002, (0x30000100 : Word)]) :
    ∃ e, decode w = .error e := by
  simp only [List.mem_cons, List.not_mem_nil, or_false] at h
  obtain rfl | rfl | rfl | rfl := h <;> exact ⟨_, rfl⟩

/-- Settles O5: a word meets a row exactly when the decoder accepts it, the opcode tells the rows
apart, and the length is the first check of every data command. -/
theorem illegalCommands : Obligations.IllegalCommands := by
  refine ⟨fun w s hrow => ?_, fun w hw => ?_, fun _ _ _ => rowMatch_eq_of_and_rowMask,
    fun _ _ hi h => dataFault_exec_of_tooLong h hi⟩
  · obtain ⟨e, he⟩ := exists_decode_error_of_no_row hrow
    exact runWord_of_decode_error he s
  · obtain ⟨e, he⟩ := decode_error_of_mem_examples hw
    exact no_row_of_decode_error he

/-- Settles O6: such a word decodes to MODE7.ENC or MODE7.DEC, which do the same. -/
theorem modeSevenFaults : Obligations.ModeSevenFaults := by
  refine ⟨fun w s hgroup hmode => ?_, fun low s => ⟨exec_mode7Enc low s, exec_mode7Dec low s⟩⟩
  obtain hw | hw := decode_of_mode_seven hgroup hmode
  · rw [runWord_of_decode_ok hw, exec_mode7Enc]
  · rw [runWord_of_decode_ok hw, exec_mode7Dec]

end Sys2Proof.Machine
end

section
/-! PROOFS of the family spec/40_field_engine.md: what the operations compute from the tables, in the
terms of multiply-reduce (R118 to R121). -/

namespace Sys2Proof.Machine

/-! ## Powers of a power, and of zero -/

theorem polyPow_polyPow (g : Byte) (p : BitVec 9) (m n : Nat) :
    polyPow (polyPow g p m) p n = polyPow g p (m * n) := by
  induction n with
  | zero => rfl
  | succ n ih => rw [polyPow, ih, Nat.mul_succ, polyPow_add]

theorem polyPow_zero_of_pos (p : BitVec 9) {n : Nat} (hn : 0 < n) : polyPow 0 p n = 0 := by
  obtain ⟨m, rfl⟩ := Nat.exists_eq_succ_of_ne_zero hn.ne'
  exact pmulred_zero_right ..

/-! ## The operations on tables that hold the powers of a generator -/

section Powers

variable {T : Tables} {p : BitVec 9} {g : Byte} (P : T.Powers p g)
include P

theorem Tables.Powers.exp_mod (n : Nat) : expAt T (n % 255) = polyPow g p n := by
  rw [P.exp _ (by omega), polyPow_mod P.order]

theorem Tables.Powers.gfMul_eq (a b : Byte) : gfMul T a b = pmulred a b p := by
  unfold gfMul
  split
  · next h =>
    obtain rfl | rfl := h
    · exact (pmulred_zero_left ..).symm
    · exact (pmulred_zero_right ..).symm
  · next h =>
    obtain ⟨ha, hb⟩ := not_or.1 h
    exact P.mul_nonzero ha hb

theorem Tables.Powers.gfPow_eq (a : Byte) (n : Nat) : gfPow T a n = polyPow a p n := by
  unfold gfPow
  split
  · next h =>
    obtain ⟨rfl, hn⟩ := h
    exact (polyPow_zero_of_pos p hn).symm
  · next h =>
    split
    · next hn => rw [hn]; rfl
    · next hn =>
      have ha : a ≠ 0 := fun ha => h ⟨ha, Nat.pos_of_ne_zero hn⟩
      obtain ⟨-, hlog⟩ := P.exp_log ha
      rw [P.exp_mod, ← polyPow_polyPow, hlog]

/-- The exponents of `a` and of its inverse add up to 255, the order of the generator. -/
theorem Tables.Powers.mul_inv {a : Byte} (ha : a ≠ 0) :
    pmulred a (expAt T (255 - logAt T a)) p = 1 := by
  obtain ⟨hlt, hlog⟩ := P.exp_log ha
  calc pmulred a (expAt T (255 - logAt T a)) p
      = pmulred (polyPow g p (logAt T a)) (polyPow g p (255 - logAt T a)) p := by
        rw [hlog, P.exp _ (by omega)]
    _ = polyPow g p 255 := by rw [← polyPow_add, show logAt T a + (255 - logAt T a) = 255 by omega]
    _ = 1 := P.order.1

/-- The quotient's exponent and that of `b` add up to that of `a` and 255. -/
theorem Tables.Powers.div_mul {a b : Byte} (ha : a ≠ 0) (hb : b ≠ 0) :
    pmulred (expAt T ((logAt T a + 255 - logAt T b) % 255)) b p = a := by
  obtain ⟨-, hloga⟩ := P.exp_log ha
  obtain ⟨hltb, hlogb⟩ := P.exp_log hb
  calc pmulred (expAt T ((logAt T a + 255 - logAt T b) % 255)) b p
      = pmulred (polyPow g p (logAt T a + 255 - logAt T b)) (polyPow g p (logAt T b)) p := by
        rw [P.exp_mod, hlogb]
    _ = polyPow g p (logAt T a + 255) := by
        rw [← polyPow_add, show logAt T a + 255 - logAt T b + logAt T b = logAt T a + 255 by omega]
    _ = a := by rw [polyPow_add, P.order.1, pmulred_one_right, hloga]

end Powers

/-! ## Division and inverse, case by case, on any tables -/

theorem logAt_lt (T : Tables) (a : Byte) : logAt T a < 256 := BitVec.isLt _

theorem gfDiv_zero_right (T : Tables) (a : Byte) : gfDiv T a 0 = .error .divideByZero := rfl

theorem gfDiv_zero_left (T : Tables) {b : Byte} (hb : b ≠ 0) : gfDiv T 0 b = .ok 0 := by
  rw [gfDiv, if_neg hb, if_pos rfl]

/-- A LOG entry is at most 255, so adding 255 before the subtraction keeps the index a natural number. -/
theorem gfDiv_nonzero (T : Tables) {a b : Byte} (ha : a ≠ 0) (hb : b ≠ 0) :
    gfDiv T a b = .ok (expAt T ((logAt T a + 255 - logAt T b) % 255)) := by
  have hlt := logAt_lt T b
  have hidx : (((logAt T a : Int) - logAt T b) % 255).toNat = (logAt T a + 255 - logAt T b) % 255 := by
    omega
  rw [gfDiv, if_neg hb, if_neg ha, hidx]

theorem gfInv_zero (T : Tables) : gfInv T 0 = .error .divideByZero := rfl

theorem gfInv_nonzero (T : Tables) {a : Byte} (ha : a ≠ 0) :
    gfInv T a = .ok (expAt T (255 - logAt T a)) := if_neg ha

/-- With tables of powers a quotient by a non-zero byte exists, for a zero dividend too. -/
theorem Tables.Powers.gfDiv_ok {T : Tables} {p : BitVec 9} {g : Byte} (P : T.Powers p g) (a : Byte)
    {b : Byte} (hb : b ≠ 0) : ∃ q, gfDiv T a b = .ok q ∧ pmulred q b p = a := by
  by_cases ha : a = 0
  · subst ha
    exact ⟨0, gfDiv_zero_left T hb, pmulred_zero_left ..⟩
  · exact ⟨_, gfDiv_nonzero T ha hb, P.div_mul ha hb⟩

end Sys2Proof.Machine
end

section
/-! PROOFS of the family spec/40_field_engine.md: the FE commands (R113, R116 to R121, R125). -/

namespace Sys2Proof.Machine

/-! ## The words of the six operations (R81, R89) -/

theorem decode_feAdd (a b : Byte) : decode (wordF2 0x11 a b) = .ok (.feAdd a b) := by
  simp [decode, requireZero]

theorem decode_feSub (a b : Byte) : decode (wordF2 0x12 a b) = .ok (.feSub a b) := by
  simp [decode, requireZero]

theorem decode_feMul (a b : Byte) : decode (wordF2 0x13 a b) = .ok (.feMul a b) := by
  simp [decode, requireZero]

theorem decode_feDiv (a b : Byte) : decode (wordF2 0x14 a b) = .ok (.feDiv a b) := by
  simp [decode, requireZero]

theorem decode_fePow (a : Byte) {n : Nat} (hn : n < 65536) :
    decode (wordFP 0x15 a n) = .ok (.fePow a n) := by
  simp [decode, Nat.mod_eq_of_lt hn]

theorem decode_feInv (a : Byte) : decode (wordF1 0x16 a) = .ok (.feInv a) := by
  simp [decode, requireZero]

/-! ## The common part of the operations (R125) -/

theorem fieldCommand_notReady {s : State} (h : s.status.feReady = false) (r : Except ErrCode Byte) :
    fieldCommand r s = .next (s.endsWith .notReady) := by
  rw [fieldCommand.eq_def, h, ← State.raise_false_eq_endsWith (by decide)]
  rfl

theorem fieldCommand_error {s : State} (h : s.status.feReady = true) {e : ErrCode} (he : e ≠ .none) :
    fieldCommand (.error e) s = .next (s.endsWith e) := by
  rw [fieldCommand, h, ← State.raise_false_eq_endsWith he]
  rfl

theorem fieldCommand_ok {s : State} (h : s.status.feReady = true) (v : Byte) :
    fieldCommand (.ok v) s = .next (s.fieldResult v) := by
  rw [fieldCommand, h]
  rfl

/-! ## Each operation is the common part of its function -/

theorem exec_feAdd (a b : Byte) (s : State) :
    exec (.feAdd a b) s = fieldCommand (.ok (a ^^^ b)) s := rfl

theorem exec_feSub (a b : Byte) (s : State) :
    exec (.feSub a b) s = fieldCommand (.ok (a ^^^ b)) s := rfl

theorem exec_feMul (a b : Byte) (s : State) :
    exec (.feMul a b) s = fieldCommand (.ok (gfMul s.tab a b)) s := rfl

theorem exec_feDiv (a b : Byte) (s : State) :
    exec (.feDiv a b) s = fieldCommand (gfDiv s.tab a b) s := rfl

theorem exec_fePow (a : Byte) (n : Nat) (s : State) :
    exec (.fePow a n) s = fieldCommand (.ok (gfPow s.tab a n)) s := rfl

theorem exec_feInv (a : Byte) (s : State) :
    exec (.feInv a) s = fieldCommand (gfInv s.tab a) s := rfl

/-! ## FE.INIT (R113) -/

theorem exec_feInit_of_some {s : State} {g : Byte} (h : s.conf.genOf s.regs.poly = some g) :
    exec .feInit s = .next
      { s with
        cmd := none
        tab := buildTables g (s.regs.poly.setWidth 9) s.tab
        regs := { s.regs with polya := s.regs.poly }
        status := { s.status with feReady := true, keyReady := false, err := .none } } := by
  rw [exec, execFeInit, h]
  rfl

theorem exec_feInit_of_none {s : State} (h : s.conf.genOf s.regs.poly = none) :
    exec .feInit s = .next
      { s with
        cmd := none
        regs := { s.regs with polya := 0 }
        status := { feReady := false, keyReady := false, flt := true, err := .config } } := by
  rw [exec, execFeInit, h]
  rfl

/-- Members of a legal allow-list lie between 256 and 511, so bit 8 is their highest bit. -/
theorem Params.Legal.genOf_eq_none {P : Params} (hP : P.Legal) {p : Word}
    (h : p.getLsbD 8 = false ∨ 512 ≤ p.toNat) : P.genOf p = none := by
  rw [Option.eq_none_iff_forall_ne_some]
  intro g hg
  obtain ⟨hle, hlt, -⟩ := hP.order hg
  obtain hbit | hbig := h
  · rw [BitVec.getLsbD, Nat.testBit_eq_decide_div_mod_eq, decide_eq_false_iff_not] at hbit
    omega
  · omega

/-! ## The statements -/

/-- Settles O17: the tables FE.INIT builds hold the powers of a generator of order 255. -/
theorem feInit : Obligations.FeInit := by
  refine ⟨fun s g hP hg => ?_, fun s => exec_feInit_of_none, fun P p hP => hP.genOf_eq_none⟩
  have hpow := powers_buildTables (hP.order hg).2.2 s.tab
  exact ⟨_, exec_feInit_of_some hg, hpow.expOk, hpow.logOk, fun i hi => hpow.exp i (by omega),
    hpow.order.1, rfl, rfl, rfl⟩

/-- Settles O18: both are the common part of the operations with `a xor b`. -/
theorem feAddSub : Obligations.FeAddSub := by
  intro a b s
  refine ⟨⟨decode_feAdd a b, decode_feSub a b⟩, fun h => ?_, fun h => ?_⟩
  · rw [exec_feAdd, exec_feSub, fieldCommand_ok h]
    exact ⟨rfl, rfl⟩
  · rw [exec_feAdd, exec_feSub, fieldCommand_notReady h]
    exact ⟨rfl, rfl⟩

/-- Settles O19: the sum of the exponents is the exponent of the product. -/
theorem feMul : Obligations.FeMul := by
  intro a b s
  rw [exec_feMul]
  refine ⟨decode_feMul a b, fun h => fieldCommand_ok h _, fun hP h hs => ?_,
    fun h => fieldCommand_notReady h _⟩
  obtain ⟨g, -, hpow⟩ := hs.powers hP h
  rw [fieldCommand_ok h, hpow.gfMul_eq]

/-- Settles O20: the divisor is tested first, and the exponents subtract modulo 255. -/
theorem feDiv : Obligations.FeDiv := by
  intro a b s
  rw [exec_feDiv]
  refine ⟨decode_feDiv a b, fun h => fieldCommand_notReady h _,
    fun h => ⟨?_, ?_, fun hb ha => ?_, fun hb hP hs => ?_⟩⟩
  · rintro rfl
    rw [gfDiv_zero_right, fieldCommand_error h (by decide)]
  · rintro hb rfl
    rw [gfDiv_zero_left _ hb, fieldCommand_ok h]
  · rw [gfDiv_nonzero _ ha hb, fieldCommand_ok h]
  · obtain ⟨g, -, hpow⟩ := hs.powers hP h
    obtain ⟨q, hq, hmul⟩ := hpow.gfDiv_ok a hb
    exact ⟨q, by rw [hq, fieldCommand_ok h], hmul⟩

/-- Settles O21: the exponent of the power is the `n`-fold exponent, modulo 255. -/
theorem fePow : Obligations.FePow := by
  intro a n s
  rw [exec_fePow]
  refine ⟨decode_fePow a, fun h => fieldCommand_notReady h _, fun h => fieldCommand_ok h _,
    fun hP h hs => ?_⟩
  obtain ⟨g, -, hpow⟩ := hs.powers hP h
  rw [fieldCommand_ok h, hpow.gfPow_eq]

/-- Settles O22: the exponents of an element and of its inverse add up to 255. -/
theorem feInv : Obligations.FeInv := by
  intro a s
  rw [exec_feInv]
  refine ⟨decode_feInv a, fun h => fieldCommand_notReady h _, fun h => ⟨?_, fun ha => ?_, ?_⟩⟩
  · rintro rfl
    rw [gfInv_zero, fieldCommand_error h (by decide)]
  · rw [gfInv_nonzero _ ha, fieldCommand_ok h]
  · intro ha hP hs
    obtain ⟨g, -, hpow⟩ := hs.powers hP h
    exact hpow.mul_inv ha

end Sys2Proof.Machine
end

section
/-! PROOFS of the family spec/41_cipher_core.md: what KEY.SETUP writes into the key material, entry by
entry (R141 to R144, R148). -/

namespace Sys2Proof.Machine

/-! ## Register files and rows of equal length -/

theorem getElem_vecOf {α : Type} {n : Nat} (d : α) (l : List α) (i : Fin n) :
    (vecOf n d l)[i] = l.getD i d := by
  rw [← getD_vecOf n d l i i.isLt, List.getD_eq_getElem _ _ (by simp)]
  rfl

theorem take_toList_vecOf {α : Type} {m n : Nat} (d : α) {l : List α} (hl : l.length = m)
    (hm : m ≤ n) : (vecOf n d l).toList.take m = l := by
  rw [toList_vecOf, List.take_take, Nat.min_eq_left hm, ← hl, List.take_left]

theorem length_flatMap_range {α : Type} {m : Nat} {F : Nat → List α} (hF : ∀ i, (F i).length = m)
    (n : Nat) : ((List.range n).flatMap F).length = m * n := by
  simp [List.length_flatMap, hF, Nat.mul_comm]

/-- Entry `m * i + j` of rows of `m` entries, one after the other, is entry `j` of row `i`. -/
theorem getD_flatMap_range {α : Type} {m n i j : Nat} {F : Nat → List α} (hF : ∀ i, (F i).length = m)
    (hi : i < n) (hj : j < m) (d : α) :
    ((List.range n).flatMap F).getD (m * i + j) d = (F i).getD j d := by
  induction n with
  | zero => omega
  | succ n ih =>
    have hlen := length_flatMap_range hF n
    rw [List.range_succ, List.flatMap_append, List.flatMap_singleton]
    obtain hlt | rfl := Nat.lt_succ_iff_lt_or_eq.1 hi
    · have hrow : m * i + m ≤ m * n := Nat.mul_succ m i ▸ Nat.mul_le_mul_left m hlt
      rw [List.getD_append _ _ _ _ (by omega), ih hlt]
    · rw [List.getD_append_right _ _ _ _ (by omega), hlen, Nat.add_sub_cancel_left]

/-! ## The key words (R142, R143) -/

@[simp] theorem length_evenWords (n : Nat) (key : List Byte) : (evenWords n key).length = n := by
  simp [evenWords]

@[simp] theorem length_oddWords (n : Nat) (key : List Byte) : (oddWords n key).length = n := by
  simp [oddWords]

theorem getD_map_range {α : Type} (f : Nat → α) (n j : Nat) (d : α) :
    ((List.range n).map f).getD j d = if j < n then f j else d := by
  by_cases hj : j < n <;> simp [List.getD_eq_getElem?_getD, hj]

theorem getD_evenWords (n : Nat) (key : List Byte) (j : Nat) :
    (evenWords n key).getD j 0 = if j < n then wordAt key (2 * j) else 0 :=
  getD_map_range ..

theorem getD_oddWords (n : Nat) (key : List Byte) (j : Nat) :
    (oddWords n key).getD j 0 = if j < n then wordAt key (2 * j + 1) else 0 :=
  getD_map_range ..

/-! ## The S-box key material (R144) -/

@[simp] theorem length_interleave (n : Nat) (me mo : List Word) :
    (interleave n me mo).length = 2 * n :=
  length_flatMap_range (m := 2) (fun _ => rfl) n

/-- Every SKEY gives 2N words. -/
@[simp] theorem length_skey (P : Params) (n : Nat) (me mo : List Word) :
    (P.cipher.skey n me mo).length = 2 * n := by
  change (skeyOf P.skey n me mo).length = 2 * n
  cases P.skey with
  | interleaved => exact length_interleave n me mo
  | other k => exact Vector.length_toList

theorem getD_skey_of_le (P : Params) {n j : Nat} (me mo : List Word) (hj : 2 * n ≤ j) :
    (P.cipher.skey n me mo).getD j 0 = 0 :=
  List.getD_eq_default _ _ (by rwa [length_skey])

/-! ## The subkeys (R148) -/

/-- Entry `2 * i + j` of K, for `j = 0` and `j = 1`. -/
theorem getD_keySchedule (P : CipherParams) (T : Tables) (me mo : List Word) {i j : Nat} (hi : i < 20)
    (hj : j < 2) :
    (keySchedule P T me mo).getD (2 * i + j) 0 = (subkeyPair P T me mo i).getD j 0 :=
  getD_flatMap_range (F := subkeyPair P T me mo) (fun _ => rfl) hi hj 0

/-! ## The key material as a whole (R141) -/

section SetupKey

variable (P : CipherParams) (T : Tables) {key : List Byte} {n : Nat} (hkey : key.length = 8 * n)
include hkey

theorem setupKey_eq : setupKey P T key =
    { n := n
      me := vecOf 4 0 (evenWords n key)
      mo := vecOf 4 0 (oddWords n key)
      sbox := vecOf 8 0 (P.skey n (evenWords n key) (oddWords n key))
      k := vecOf 40 0 (keySchedule P T (evenWords n key) (oddWords n key)) } := by
  have hn : key.length / 8 = n := by omega
  rw [setupKey, hn]

theorem setupKey_n : (setupKey P T key).n = n := by rw [setupKey_eq P T hkey]

theorem setupKey_me (j : Fin 4) :
    (setupKey P T key).me[j] = if j.val < n then wordAt key (2 * j.val) else 0 := by
  rw [setupKey_eq P T hkey, getElem_vecOf, getD_evenWords]

theorem setupKey_mo (j : Fin 4) :
    (setupKey P T key).mo[j] = if j.val < n then wordAt key (2 * j.val + 1) else 0 := by
  rw [setupKey_eq P T hkey, getElem_vecOf, getD_oddWords]

theorem setupKey_sbox {j : Nat} (hj : j < 8) : (setupKey P T key).sbox.toList.getD j 0 =
    (P.skey n (evenWords n key) (oddWords n key)).getD j 0 := by
  rw [setupKey_eq P T hkey, getD_vecOf _ _ _ _ hj]

theorem setupKey_k {i j : Nat} (hi : i < 20) (hj : j < 2) :
    (setupKey P T key).k.toList.getD (2 * i + j) 0 =
      (subkeyPair P T (evenWords n key) (oddWords n key) i).getD j 0 := by
  rw [setupKey_eq P T hkey, getD_vecOf _ _ _ _ (by omega), getD_keySchedule P T _ _ hi hj]

variable (hn : n ≤ 4)
include hn

theorem setupKey_take_me : (setupKey P T key).me.toList.take n = evenWords n key := by
  rw [setupKey_eq P T hkey, take_toList_vecOf 0 (length_evenWords n key) hn]

theorem setupKey_take_mo : (setupKey P T key).mo.toList.take n = oddWords n key := by
  rw [setupKey_eq P T hkey, take_toList_vecOf 0 (length_oddWords n key) hn]

end SetupKey

end Sys2Proof.Machine
end

section
/-! PROOFS of the family spec/41_cipher_core.md: the CC commands (R141, R151, R153). -/

namespace Sys2Proof.Machine

/-! ## KEY.SETUP, case by case (R141) -/

theorem legalKeyLength_iff {n : Nat} : legalKeyLength n = true ↔ n ∈ [16, 24, 32] := by
  simp [legalKeyLength, or_assoc]

/-- A legal KEYLEN is 8 N, and N words fit ME and MO. -/
theorem exists_keyWords_of_legal {n : Nat} (h : n ∈ [16, 24, 32]) : ∃ k, n = 8 * k ∧ k ≤ 4 := by
  simp only [List.mem_cons, List.not_mem_nil, or_false] at h
  exact ⟨n / 8, by omega, by omega⟩

/-- A faulting KEY.SETUP ends as every other command without data does, KEY_READY cleared. -/
theorem State.failKeySetup_eq_endsWith {e : ErrCode} (he : e ≠ .none) (s : State) :
    s.failKeySetup e =
      State.endsWith { s with status := { s.status with keyReady := false } } e :=
  State.raise_false_eq_endsWith he _

theorem exec_keySetup_of_notReady {s : State} (h : s.status.feReady = false) :
    exec .keySetup s = .next
      (State.endsWith { s with status := { s.status with keyReady := false } } .notReady) := by
  rw [exec, execKeySetup, h, ← State.failKeySetup_eq_endsWith (by decide)]
  rfl

theorem exec_keySetup_of_illegal {s : State} (h : s.status.feReady = true)
    (hlen : s.regs.keylen.toNat ∉ [16, 24, 32]) :
    exec .keySetup s = .next
      (State.endsWith { s with status := { s.status with keyReady := false } } .keyLength) := by
  have hfalse : legalKeyLength s.regs.keylen.toNat = false :=
    Bool.eq_false_iff.2 fun htrue => hlen (legalKeyLength_iff.1 htrue)
  rw [exec, execKeySetup, h, hfalse, ← State.failKeySetup_eq_endsWith (by decide)]
  rfl

theorem exec_keySetup_of_legal {s : State} (h : s.status.feReady = true)
    (hlen : s.regs.keylen.toNat ∈ [16, 24, 32]) :
    exec .keySetup s = .next
      { s with
        cmd := none
        key := setupKey s.conf.cipher s.tab s.keyBytes
        status := { s.status with keyReady := true, err := .none } } := by
  rw [exec, execKeySetup, h, legalKeyLength_iff.2 hlen]
  rfl

/-- Settles O27: entry by entry, the key material is that of `setupKey`; a fault leaves it alone. -/
theorem keySetup : Obligations.KeySetup := by
  refine ⟨fun s h hlen => ?_,
    fun s => ⟨exec_keySetup_of_notReady, exec_keySetup_of_illegal⟩⟩
  obtain ⟨n, hkeylen, hn⟩ := exists_keyWords_of_legal hlen
  have hkey : s.keyBytes.length = 8 * n := s.length_keyBytes.trans hkeylen
  refine ⟨_, n, exec_keySetup_of_legal h hlen, hkeylen, setupKey_n _ _ hkey, setupKey_me _ _ hkey,
    setupKey_mo _ _ hkey, fun j hj => ?_, fun i hi => ?_, rfl⟩
  · rw [setupKey_sbox _ _ hkey hj, setupKey_take_me _ _ hkey hn, setupKey_take_mo _ _ hkey hn]
    split
    · rfl
    · next hbeyond => exact getD_skey_of_le _ _ _ (Nat.le_of_not_lt hbeyond)
  · rw [setupKey_take_me _ _ hkey hn, setupKey_take_mo _ _ hkey hn]
    exact ⟨setupKey_k _ _ hkey hi Nat.two_pos, setupKey_k _ _ hkey hi Nat.one_lt_two⟩

/-! ## BLK.ENC and BLK.DEC (R151, R153) -/

theorem firstFault_blockChecks (s : State) : firstFault (blockChecks s) =
    if s.conf.bufcap.val < s.regs.inlen.toNat then some .illegalCommand
    else if s.status.keyReady = false then some .notReady
    else if s.regs.inlen.toNat ≠ 16 then some .blockSize
    else none := by
  simp [blockChecks_eq, firstFault]

theorem blockCommand_of_none {s : State} (h : firstFault (blockChecks s) = none)
    (f : List Byte → List Byte) : blockCommand f s = .next (s.deliver (f s.input)) := by
  rw [blockCommand, h]

theorem dataFault_blockCommand {s : State} {e : ErrCode} (h : firstFault (blockChecks s) = some e)
    (f : List Byte → List Byte) : ∃ t, blockCommand f s = .next t ∧ DataFault s t e :=
  ⟨_, by rw [blockCommand, h], dataFault_raise rfl rfl rfl rfl rfl rfl rfl⟩

/-- A block function's 16 bytes fit OUT, as BUFCAP is at least 16. -/
theorem dataDone_blockCommand {s : State} (hready : s.status.keyReady = true)
    (hlen : s.regs.inlen.toNat = 16) {f : List Byte → List Byte} (hf : (f s.input).length = 16) :
    ∃ t, blockCommand f s = .next t ∧ DataDone s t 0 (f s.input) ∧ t.regs.outlen = 16 := by
  obtain ⟨hcap, -, hout⟩ := s.conf.capacities
  have hnone : firstFault (blockChecks s) = none := by
    rw [firstFault_blockChecks, if_neg (by omega), if_neg (by simp [hready]), if_neg (by omega)]
  have hdone : DataDone s (s.deliver (f s.input)) 0 (f s.input) :=
    dataDone_deliver (by omega) rfl rfl rfl rfl rfl rfl rfl
  exact ⟨_, blockCommand_of_none hnone f, hdone, by rw [hdone.regs, hf]; rfl⟩

/-- A fault of the checks is the outcome of both block commands. -/
theorem dataFault_exec_block {i : Instr} (hi : i = .blkEnc ∨ i = .blkDec) {s : State} {e : ErrCode}
    (h : firstFault (blockChecks s) = some e) : ∃ t, exec i s = .next t ∧ DataFault s t e := by
  obtain rfl | rfl := hi <;> exact dataFault_blockCommand h _

/-- Settles O32: both commands are `blockCommand` of the block function over the latched key. -/
theorem blockCommands : Obligations.BlockCommands := by
  refine ⟨fun s hready hlen => ⟨dataDone_blockCommand hready hlen (length_encBlock s _),
      dataDone_blockCommand hready hlen (length_decBlock s _)⟩,
    fun i s hi => ⟨fun hlong => dataFault_exec_block hi ?_,
      fun hshort hready => dataFault_exec_block hi ?_,
      fun hshort hready hlen => dataFault_exec_block hi ?_⟩,
    fun s b => ⟨rfl, rfl⟩⟩
  · rw [firstFault_blockChecks, if_pos hlong]
  · rw [firstFault_blockChecks, if_neg (by omega), if_pos hready]
  · rw [firstFault_blockChecks, if_neg (by omega), if_neg (by simp [hready]), if_pos hlen]

end Sys2Proof.Machine
end

section
/-! PROOFS of the family spec/42_padding.md: the pad length and the pad commands (R171 to R176). -/

namespace Sys2Proof.Machine

/-! ## The pad length (R171) -/

theorem add_padLen_le {n m : Nat} (hlt : n < m) (hm : m % 16 = 0) : n + padLen n ≤ m := by
  rw [padLen]; omega

/-- Settles O33: the lemmas above for every length, and the six values by evaluation. -/
theorem padLength : Obligations.PadLength := by
  refine ⟨fun n => ?_, rfl, rfl, rfl, rfl, rfl, rfl⟩
  obtain ⟨hpos, hle⟩ := padLen_le n
  exact ⟨rfl, hpos, hle, add_padLen_mod n, Nat.lt_add_of_pos_right hpos, fun _ => add_padLen_le⟩

/-! ## The pad commands (R172 to R176) -/

/-- An INLEN within BUFCAP passes the test of R93. -/
theorem inputTooLong_of_le {s : State} (hcap : s.regs.inlen.toNat ≤ s.conf.bufcap.val) :
    s.inputTooLong = false := by
  rw [inputTooLong_eq, decide_eq_false (Nat.not_lt.2 hcap)]

/-- The padded input fits OUT; the draws of its filler are the only change besides the result. -/
theorem dataDone_padCommand (p : Scheme) {s : State}
    (hcap : s.regs.inlen.toNat ≤ s.conf.bufcap.val) :
    ∃ t, padCommand p s = .next t ∧ DataDone s t (fillerCount p s.regs.inlen.toNat) (s.pd p) := by
  have hfits : (s.pd p).length ≤ s.conf.outcap := by
    obtain ⟨-, -, hout⟩ := s.conf.capacities
    obtain ⟨-, hle⟩ := padLen_le s.regs.inlen.toNat
    rw [State.length_pd]
    omega
  refine ⟨(s.skipFiller p).deliver (s.pd p), ?_,
    dataDone_deliver hfits rfl rfl rfl rfl rfl rfl rfl⟩
  rw [padCommand, inputTooLong_of_le hcap, State.paddedInput_eq]
  rfl

/-- Settles O34: each command is `padCommand` of its scheme, and `State.pd` is `padBytes` of the input
and the bytes the random source delivers next. -/
theorem padCommands : Obligations.PadCommands := by
  intro s hcap
  have hdone (p : Scheme) := dataDone_padCommand p hcap
  simp only [State.pd, padBytes, State.length_input] at hdone
  exact ⟨hdone .zero, hdone .ansi, hdone .pkcs7, hdone .iso⟩

end Sys2Proof.Machine
end

section
/-! PROOFS of the family spec/42_padding.md: what unpad takes away, and the unpad commands (R177 to
R181). -/

namespace Sys2Proof.Machine

/-! ## Trailing zero bytes -/

/-- A byte stays when a byte after it stays or it is not zero. -/
theorem stripZeros_cons (b : Byte) (bs : List Byte) :
    stripZeros (b :: bs) = if stripZeros bs = [] ∧ b = 0 then [] else b :: stripZeros bs := by
  rw [stripZeros]
  cases stripZeros bs <;> simp

theorem exists_eq_stripZeros_append (d : List Byte) :
    ∃ k, d = stripZeros d ++ List.replicate k 0 := by
  induction d with
  | nil => exact ⟨0, rfl⟩
  | cons b bs ih =>
    obtain ⟨k, hk⟩ := ih
    rw [stripZeros_cons]
    split
    · next h =>
      obtain ⟨hnil, rfl⟩ := h
      exact ⟨k + 1, congrArg (0 :: ·) (by simpa [hnil] using hk)⟩
    · exact ⟨k, congrArg (b :: ·) hk⟩

theorem getLast?_stripZeros (d : List Byte) : (stripZeros d).getLast? ≠ some 0 := by
  induction d with
  | nil => simp [stripZeros]
  | cons b bs ih =>
    rw [stripZeros_cons]
    split
    · simp
    · next h =>
      cases hbs : stripZeros bs with
      | nil => simpa [hbs] using h
      | cons c cs => simpa [hbs] using ih

/-! ## The trailer and the bytes before it (R177) -/

/-- The bytes the trailer `t` counts, without the trailer itself. -/
def beforeTrailer (t : Nat) (d : List Byte) : List Byte := (d.drop (d.length - t)).dropLast

theorem fillerMatches_ansi_iff {t : Nat} {d : List Byte} :
    fillerMatches .ansi t d = true ↔ ∀ b ∈ beforeTrailer t d, b = 0 := by
  simp [fillerMatches, beforeTrailer]

theorem fillerMatches_pkcs7_iff {k : Byte} {d : List Byte} :
    fillerMatches .pkcs7 k.toNat d = true ↔ ∀ b ∈ beforeTrailer k.toNat d, b = k := by
  simp [fillerMatches, beforeTrailer]

theorem beforeTrailer_append {d f : List Byte} {k : Byte} {t : Nat} (hf : f.length + 1 = t) :
    beforeTrailer t (d ++ f ++ [k]) = f := by
  have hstart : (d ++ (f ++ [k])).length - t = d.length := by simp; omega
  rw [beforeTrailer, List.append_assoc, hstart, List.drop_left, List.dropLast_concat]

theorem mem_beforeTrailer {d : List Byte} {t j : Nat} {b : Byte} (hlo : d.length - t ≤ j)
    (hhi : j + 1 < d.length) (hb : d[j]? = some b) : b ∈ beforeTrailer t d := by
  refine List.mem_of_getElem? (i := j - (d.length - t)) ?_
  rw [beforeTrailer, List.getElem?_dropLast, if_pos (by rw [List.length_drop]; omega),
    List.getElem?_drop, Nat.add_sub_cancel' hlo, hb]

/-- The two tests of the trailer in one. -/
theorem unpadTrailer_of_getLast? {p : Scheme} {d : List Byte} {k : Byte} (hk : d.getLast? = some k) :
    unpadTrailer p d =
      if (1 ≤ k.toNat ∧ k.toNat ≤ 16) ∧ fillerMatches p k.toNat d = true then
        .ok (d.take (d.length - k.toNat))
      else .error .padding := by
  rw [unpadTrailer, hk]
  by_cases hrange : 1 ≤ k.toNat ∧ k.toNat ≤ 16
  · have hnot : ¬(k.toNat = 0 ∨ 16 < k.toNat) := by omega
    cases hmatch : fillerMatches p k.toNat d <;> simp [hnot, hrange, hmatch]
  · have hout : k.toNat = 0 ∨ 16 < k.toNat := by omega
    simp [hout, hrange]

/-! ## Unpad of whole blocks, and of the rest -/

theorem unpadBytes_of_not_whole (p : Scheme) {d : List Byte} (h : d.length % 16 ≠ 0) :
    unpadBytes p d = .error .length :=
  if_pos h

theorem unpadBytes_zero {d : List Byte} (h : d.length % 16 = 0) :
    unpadBytes .zero d = .ok (stripZeros d) :=
  if_neg (not_not.2 h)

theorem unpadBytes_of_ne_zero {p : Scheme} (hp : p ≠ .zero) {d : List Byte} (h : d.length % 16 = 0) :
    unpadBytes p d = unpadTrailer p d := by
  cases p with
  | zero => exact absurd rfl hp
  | ansi | pkcs7 | iso => exact if_neg (not_not.2 h)

theorem unpadBytes_nil {p : Scheme} (hp : p ≠ .zero) : unpadBytes p [] = .error .padding :=
  unpadBytes_of_ne_zero hp rfl

/-- A trailer that fails a test of R177 is a PaddingError. -/
theorem unpadBytes_error_of_getLast? {p : Scheme} (hp : p ≠ .zero) {d : List Byte} {k : Byte}
    (h : d.length % 16 = 0) (hk : d.getLast? = some k)
    (hbad : ¬((1 ≤ k.toNat ∧ k.toNat ≤ 16) ∧ fillerMatches p k.toNat d = true)) :
    unpadBytes p d = .error .padding := by
  rw [unpadBytes_of_ne_zero hp h, unpadTrailer_of_getLast? hk, if_neg hbad]

/-- A trailer that passes both tests leaves the data before the bytes it counts. -/
theorem unpadBytes_append {p : Scheme} (hp : p ≠ .zero) {d f : List Byte} {k : Byte}
    (h : (d ++ f ++ [k]).length % 16 = 0) (hf : f.length + 1 = k.toNat) (hk : k.toNat ≤ 16)
    (hmatch : fillerMatches p k.toNat (d ++ f ++ [k]) = true) :
    unpadBytes p (d ++ f ++ [k]) = .ok d := by
  have hdata : (d ++ (f ++ [k])).length - k.toNat = d.length := by simp; omega
  rw [unpadBytes_of_ne_zero hp h, unpadTrailer_of_getLast? List.getLast?_concat,
    if_pos ⟨⟨by omega, hk⟩, hmatch⟩, List.append_assoc, hdata, List.take_left]

/-! ## The unpad commands (R178 to R181) -/

section UnpadCommand

variable {p : Scheme} {s : State} (hcap : s.regs.inlen.toNat ≤ s.conf.bufcap.val)
include hcap

theorem dataDone_unpadCommand {r : List Byte} (hr : unpadBytes p s.input = .ok r) :
    ∃ t, unpadCommand p s = .next t ∧ DataDone s t 0 r := by
  have hfits : r.length ≤ s.conf.outcap := by
    obtain ⟨-, -, hout⟩ := s.conf.capacities
    have hshort := length_unpadBytes_le hr
    rw [State.length_input] at hshort
    omega
  refine ⟨s.deliver r, ?_, dataDone_deliver hfits rfl rfl rfl rfl rfl rfl rfl⟩
  rw [unpadCommand, inputTooLong_of_le hcap, hr]
  rfl

theorem dataFault_unpadCommand {e : ErrCode} (he : unpadBytes p s.input = .error e) :
    ∃ t, unpadCommand p s = .next t ∧ DataFault s t e := by
  refine ⟨s.raise true e, ?_, dataFault_raise rfl rfl rfl rfl rfl rfl rfl⟩
  rw [unpadCommand, inputTooLong_of_le hcap, he]
  rfl

theorem dataFault_unpadCommand_of_part (p : Scheme) (hpart : s.regs.inlen.toNat % 16 ≠ 0) :
    ∃ t, unpadCommand p s = .next t ∧ DataFault s t .length :=
  dataFault_unpadCommand hcap (unpadBytes_of_not_whole p (by rwa [State.length_input]))

theorem dataFault_unpadCommand_of_empty (hp : p ≠ .zero) (hempty : s.regs.inlen.toNat = 0) :
    ∃ t, unpadCommand p s = .next t ∧ DataFault s t .padding := by
  have hnil : s.input = [] := List.eq_nil_of_length_eq_zero (by rwa [State.length_input])
  exact dataFault_unpadCommand hcap (hnil ▸ unpadBytes_nil hp)

variable (hwhole : s.regs.inlen.toNat % 16 = 0)
include hwhole

theorem dataDone_unpadCommand_zero :
    ∃ t, unpadCommand .zero s = .next t ∧ DataDone s t 0 (stripZeros s.input) :=
  dataDone_unpadCommand hcap (unpadBytes_zero (by rwa [State.length_input]))

theorem dataDone_unpadCommand_of_append (hp : p ≠ .zero) {d f : List Byte} {k : Byte}
    (hin : s.input = d ++ f ++ [k]) (hf : f.length + 1 = k.toNat) (hk : k.toNat ≤ 16)
    (hmatch : fillerMatches p k.toNat (d ++ f ++ [k]) = true) :
    ∃ t, unpadCommand p s = .next t ∧ DataDone s t 0 d := by
  refine dataDone_unpadCommand hcap (hin ▸ unpadBytes_append hp ?_ hf hk hmatch)
  rwa [← hin, State.length_input]

theorem dataFault_unpadCommand_of_getLast? (hp : p ≠ .zero) {k : Byte}
    (hk : s.input.getLast? = some k)
    (hbad : ¬((1 ≤ k.toNat ∧ k.toNat ≤ 16) ∧ fillerMatches p k.toNat s.input = true)) :
    ∃ t, unpadCommand p s = .next t ∧ DataFault s t .padding :=
  dataFault_unpadCommand hcap
    (unpadBytes_error_of_getLast? hp (by rwa [State.length_input]) hk hbad)

end UnpadCommand

theorem exec_unpad {i : Instr} (hi : i ∈ [Instr.unpadZero, .unpadAnsi, .unpadPkcs7, .unpadIso])
    (s : State) : ∃ p, exec i s = unpadCommand p s := by
  simp only [List.mem_cons, List.not_mem_nil, or_false] at hi
  obtain rfl | rfl | rfl | rfl := hi
  exacts [⟨.zero, rfl⟩, ⟨.ansi, rfl⟩, ⟨.pkcs7, rfl⟩, ⟨.iso, rfl⟩]

theorem exec_unpad_trailer {i : Instr} (hi : i ∈ [Instr.unpadAnsi, .unpadPkcs7, .unpadIso])
    (s : State) : ∃ p, p ≠ .zero ∧ exec i s = unpadCommand p s := by
  simp only [List.mem_cons, List.not_mem_nil, or_false] at hi
  obtain rfl | rfl | rfl := hi
  exacts [⟨.ansi, by decide, rfl⟩, ⟨.pkcs7, by decide, rfl⟩, ⟨.iso, by decide, rfl⟩]

/-- Settles O35: each command is `unpadCommand` of its scheme, whose outcome is that of `unpadBytes`;
a trailer faults when one of its two tests fails. -/
theorem unpadCommands : Obligations.UnpadCommands := by
  refine ⟨fun s hcap hwhole => ⟨?_, fun d f k hin hf hk => ?_⟩,
    fun s hcap => ⟨fun hpart i hi => ?_, fun hempty i hi => ?_,
      fun k hwhole hlast => ⟨fun hrange i hi => ?_, ?_, ?_⟩⟩⟩
  · obtain ⟨n, hn⟩ := exists_eq_stripZeros_append s.input
    obtain ⟨t, ht, hdone⟩ := dataDone_unpadCommand_zero hcap hwhole
    exact ⟨t, _, n, ht, hdone, hn, getLast?_stripZeros _⟩
  · have hbefore : beforeTrailer k.toNat (d ++ f ++ [k]) = f := beforeTrailer_append hf
    have hdone {p : Scheme} (hp : p ≠ .zero) :=
      dataDone_unpadCommand_of_append hcap hwhole hp hin hf hk
    refine ⟨fun hzeros => hdone (p := .ansi) (by decide) (fillerMatches_ansi_iff.2 ?_),
      fun hks => hdone (p := .pkcs7) (by decide) (fillerMatches_pkcs7_iff.2 ?_),
      hdone (p := .iso) (by decide) rfl⟩
    · exact hbefore.symm ▸ List.eq_replicate_length.1 hzeros
    · exact hbefore.symm ▸ List.eq_replicate_length.1 hks
  · obtain ⟨p, hexec⟩ := exec_unpad hi s
    exact hexec ▸ dataFault_unpadCommand_of_part hcap p hpart
  · obtain ⟨p, hp, hexec⟩ := exec_unpad_trailer hi s
    exact hexec ▸ dataFault_unpadCommand_of_empty hcap hp hempty
  · obtain ⟨p, hp, hexec⟩ := exec_unpad_trailer hi s
    exact hexec ▸ dataFault_unpadCommand_of_getLast? hcap hwhole hp hlast
      fun ⟨hgood, _⟩ => by omega
  all_goals
    rintro - - ⟨j, b, hlo, hhi, hb, hne⟩
    have hmem : b ∈ beforeTrailer k.toNat s.input :=
      mem_beforeTrailer (by rwa [State.length_input]) (by rwa [State.length_input]) hb
  · exact dataFault_unpadCommand_of_getLast? (p := .ansi) hcap hwhole (by decide) hlast
      fun ⟨_, hmatch⟩ => hne (fillerMatches_ansi_iff.1 hmatch b hmem)
  · exact dataFault_unpadCommand_of_getLast? (p := .pkcs7) hcap hwhole (by decide) hlast
      fun ⟨_, hmatch⟩ => hne (fillerMatches_pkcs7_iff.1 hmatch b hmem)

end Sys2Proof.Machine
end

section
/-! PROOFS of the family spec/43_modes.md, the shared part: what the two ways to run the pieces of a
buffer deliver, piece by piece, and how a MODE command that runs them ends (R190 to R195, R232 to
R236). -/

namespace Sys2Proof.Machine

/-! ## Strings one after the other -/

theorem assemble_succ_left (n : Nat) (f : Nat → List Byte) :
    assemble (n + 1) f = f 0 ++ assemble n fun i => f (i + 1) := by
  simp [assemble, List.range_succ_eq_map, List.flatMap_map]

theorem length_assemble_le {n m : Nat} {f : Nat → List Byte} (h : ∀ i, (f i).length ≤ m) :
    (assemble n f).length ≤ m * n := by
  induction n with
  | zero => exact Nat.zero_le _
  | succ n ih =>
    rw [assemble_succ, List.length_append, Nat.mul_succ]
    exact Nat.add_le_add ih (h n)

/-! ## The sequential path -/

/-- The outputs of the loop, when `P i` holds of the mode state before piece `i` and determines what
the mode does with it. Nothing is asked of the mode state after the last piece. -/
theorem runBlocks_of_invariant {f : BlockStep} {P : Nat → ModeState → Prop} {n : Nat}
    {d O : Nat → List Byte}
    (h : ∀ i < n, ∀ m, P i m → (f m (d i)).1 = O i ∧
      (i + 1 < n → P (i + 1) { (f m (d i)).2 with blk := (f m (d i)).2.blk + 1 }))
    {m : ModeState} (hm : 0 < n → P 0 m) :
    (runBlocks f m ((List.range n).map d)).1 = assemble n O := by
  induction n generalizing P d O m with
  | zero => rfl
  | succ n ih =>
    obtain ⟨hout, hnext⟩ := h 0 n.succ_pos m (hm n.succ_pos)
    have hrest := ih (P := fun i => P (i + 1)) (d := fun i => d (i + 1)) (O := fun i => O (i + 1))
      (fun i hi m hP => (h (i + 1) (by omega) m hP).imp_right fun hn hlt => hn (by omega))
      (fun hn => hnext (by omega))
    rw [List.range_succ_eq_map, List.map_cons, List.map_map, assemble_succ_left, ← hout, ← hrest]
    rfl

/-- A mode without feedback. -/
theorem runBlocks_stateless {f : BlockStep} {n : Nat} {d O : Nat → List Byte}
    (h : ∀ i < n, ∀ m, (f m (d i)).1 = O i) (m : ModeState) :
    (runBlocks f m ((List.range n).map d)).1 = assemble n O :=
  runBlocks_of_invariant (P := fun _ _ => True)
    (fun i hi m _ => ⟨h i hi m, fun _ => trivial⟩) fun _ => trivial

/-- A mode with feedback, `R i` the register before piece `i`. -/
theorem runBlocks_feedback {f : BlockStep} {n : Nat} {d O R : Nat → List Byte}
    (h : ∀ i < n, ∀ m : ModeState, m.fb = R i →
      (f m (d i)).1 = O i ∧ (i + 1 < n → (f m (d i)).2.fb = R (i + 1))) :
    (runBlocks f (ModeState.withIv (R 0)) ((List.range n).map d)).1 = assemble n O :=
  runBlocks_of_invariant (P := fun i m => m.fb = R i) h fun _ => rfl

/-! ## The dispatched path (R234 to R236) -/

/-- After two moves a chunk every chunk is finished, whatever moves were chosen, so slot `k` holds the
transform of chunk `k`. -/
theorem Dispatcher.slots_run (X : ChunkTransform) (src : List (List Byte)) (choice : Nat → Nat)
    (c : Nat) {threads : Nat} (ht : 1 ≤ threads) :
    (Dispatcher.run X src choice (2 * src.length) c (Dispatcher.start threads src.length)).slots
      = src.mapIdx X := by
  obtain ⟨hok, hmoves⟩ := Dispatcher.ok_run choice (2 * src.length) c
    (Dispatcher.ok_start X src threads) ht (Nat.le_of_eq (Nat.zero_add _))
  generalize Dispatcher.run X src choice _ c _ = d at hok hmoves
  have hstart : (Dispatcher.start threads src.length).qnext
      + (Dispatcher.start threads src.length).qdone = 0 := rfl
  have hcount := hok.count
  have hle := hok.qnext
  have hall : d.qnext = src.length := by omega
  have hheld : d.held = [] := List.eq_nil_of_length_eq_zero (by omega)
  refine List.ext_getElem? fun k => ?_
  by_cases hk : k < src.length
  · rw [hok.slots k hk, hall, hheld]
    simp [hk]
  · rw [List.getElem?_eq_none (by rw [hok.nslots]; omega),
      List.getElem?_eq_none (by rw [List.length_mapIdx]; omega)]

theorem State.runDispatched_fst (X : ChunkTransform) (n : Nat) (d : Nat → List Byte) {s : State}
    (ht : 1 ≤ s.regs.threads.toNat) :
    (s.runDispatched X ((List.range n).map d)).1 = assemble n fun i => X i (d i) := by
  have hslots : ((List.range n).map d).mapIdx X = (List.range n).map fun i => X i (d i) :=
    List.ext_getElem (by simp) fun i _ _ => by simp
  rw [State.runDispatched]
  simp only [Dispatcher.slots_run X _ _ _ ht, hslots]
  rfl

/-- An independent mode delivers the same by both paths. -/
theorem State.runIndependent_fst {par : Bool} {X : ChunkTransform} {f : BlockStep} {m : ModeState}
    {n : Nat} {d O : Nat → List Byte} {s : State}
    (ht : par = true → 1 ≤ s.regs.threads.toNat) (hX : ∀ i, X i (d i) = O i)
    (hseq : (runBlocks f m ((List.range n).map d)).1 = assemble n O) :
    (s.runIndependent par X f m ((List.range n).map d)).1 = assemble n O := by
  cases par with
  | false => exact hseq
  | true => exact (State.runDispatched_fst X n d (ht rfl)).trans (assemble_congr fun i _ => hX i)

@[simp] theorem State.runIndependent_rngCursor (par : Bool) (X : ChunkTransform) (f : BlockStep)
    (m : ModeState) (ps : List (List Byte)) (s : State) :
    (s.runIndependent par X f m ps).2.ext.rngCursor = s.ext.rngCursor := by
  cases par <;> rfl

/-! ## How the work of a MODE command ends -/

section Ends

variable {s u : State} (hcap : s.regs.inlen.toNat ≤ s.conf.bufcap.val) (h : Transient s u)
include hcap h

/-- At most 16 bytes for each block of the padded input fit OUT. -/
theorem dataDone_of_padded {p : Scheme} {O : Nat → List Byte} (hO : ∀ i, (O i).length ≤ 16)
    (hrng : u.ext.rngCursor = s.ext.rngCursor + fillerCount p s.regs.inlen.toNat)
    {r : List Byte} (hr : r = assemble ((s.pd p).length / 16) O) :
    DataDone s (u.finishMode (.ok r)) (fillerCount p s.regs.inlen.toNat)
      (assemble ((s.pd p).length / 16) O) := by
  subst hr
  refine dataDone_finishMode h hrng ((length_assemble_le hO).trans ?_)
  obtain ⟨-, -, hout⟩ := s.conf.capacities
  obtain ⟨-, hpad⟩ := padLen_le s.regs.inlen.toNat
  rw [State.length_pd]
  omega

/-- At most `m` bytes for each of the `ceil(INLEN / m)` pieces fit OUT. -/
theorem dataDone_of_unpadded {m : Nat} (hm : m ≤ 16) {O : Nat → List Byte}
    (hO : ∀ i, (O i).length ≤ m) (hrng : u.ext.rngCursor = s.ext.rngCursor)
    {r : List Byte} (hr : r = assemble ((s.regs.inlen.toNat + (m - 1)) / m) O) :
    DataDone s (u.finishMode (.ok r)) 0 (assemble ((s.regs.inlen.toNat + (m - 1)) / m) O) := by
  subst hr
  refine dataDone_finishMode h hrng ((length_assemble_le hO).trans ?_)
  obtain ⟨-, -, hout⟩ := s.conf.capacities
  have hmul := Nat.mul_div_le (s.regs.inlen.toNat + (m - 1)) m
  omega

/-- A padded decrypt ends as unpad does: at most 16 bytes for each of the units of 16 or more bytes
fit OUT. -/
theorem outcome_of_unpad {o : Host.Outcome State Fault Refusal} {p : Scheme} {r : List Byte}
    (ho : o = .next (u.finishMode (unpadBytes p r))) (hrng : u.ext.rngCursor = s.ext.rngCursor)
    {n : Nat} (hn : 16 * n ≤ s.regs.inlen.toNat) {O : Nat → List Byte}
    (hO : ∀ i, (O i).length ≤ 16) (hr : r = assemble n O) :
    (∀ out, unpadBytes p (assemble n O) = .ok out → ∃ t, o = .next t ∧ DataDone s t 0 out) ∧
      ∀ e, unpadBytes p (assemble n O) = .error e → ∃ t, o = .next t ∧ DataFault s t e := by
  subst hr
  refine ⟨fun out hok => ⟨_, ho, ?_⟩, fun e herr => ⟨_, ho, ?_⟩⟩
  · rw [hok]
    obtain ⟨-, -, hout⟩ := s.conf.capacities
    have hshort := (length_unpadBytes_le hok).trans (length_assemble_le hO)
    exact dataDone_finishMode h hrng (by omega)
  · rw [herr]
    exact dataFault_finishMode h hrng

end Ends

end Sys2Proof.Machine
end

section
/-! PROOFS of the family spec/43_modes.md: what the checks establish, and the work each MODE command does
when they pass (R191). -/

namespace Sys2Proof.Machine

variable {s : State} {par : Bool}

theorem threads_pos_of_pass {m : Nat} {decrypt : Bool} (h : modeFault m decrypt par s = none)
    (hpar : par = true) : 1 ≤ s.regs.threads.toNat := by
  obtain ⟨-, -, hthreads, -⟩ := modeFault_none h
  obtain ⟨-, hpos, -⟩ := hthreads hpar
  exact hpos

/-- The checks of CFB do not depend on the direction. -/
theorem modeFault_cfb (decrypt par : Bool) (s : State) :
    modeFault 3 decrypt par s = modeFault 3 false par s := by
  cases decrypt with
  | false => rfl
  | true => exact (firstFault_cfbDec par s).symm.trans (firstFault_cfbEnc par s)

theorem exec_ecbEnc_of_pass (p : Scheme) (h : modeFault 0 false par s = none) :
    exec (.ecbEnc par p) s = .next
      (let r := (s.skipFiller p).runIndependent par (fun _ c => s.encBlock c) (ecbStep s.encBlock)
        ModeState.cleared (pieces 16 (s.paddedInput p))
      r.2.finishMode (.ok r.1)) := by
  rw [exec, execEcbEnc, modeCommand_pass ((firstFault_ecbEnc par s).trans h)]

theorem exec_ecbDec_of_pass (p : Scheme) (h : modeFault 0 true par s = none) :
    exec (.ecbDec par p) s = .next
      (let r := s.runIndependent par (fun _ c => s.decBlock c) (ecbStep s.decBlock)
        ModeState.cleared (pieces 16 s.input)
      r.2.finishMode (unpadBytes p r.1)) := by
  rw [exec, execEcbDec, modeCommand_pass ((firstFault_ecbDec par s).trans h)]

theorem exec_cbcEnc_of_pass (p : Scheme) (h : modeFault 1 false par s = none) :
    exec (.cbcEnc par p) s = .next
      (s.padThenRun p (cbcEncStep s.encBlock) (ModeState.withIv (s.ivBytes 16))) := by
  rw [exec, execCbcEnc, modeCommand_pass ((firstFault_cbcEnc par s).trans h)]

theorem exec_cbcDec_of_pass (p : Scheme) (h : modeFault 1 true par s = none) :
    exec (.cbcDec par p) s = .next
      (s.runThenUnpad p 16 (cbcDecStep s.decBlock) (ModeState.withIv (s.ivBytes 16))) := by
  rw [exec, execCbcDec, modeCommand_pass ((firstFault_cbcDec par s).trans h)]

theorem exec_pcbcEnc_of_pass (p : Scheme) (h : modeFault 2 false par s = none) :
    exec (.pcbcEnc par p) s = .next
      (s.padThenRun p (pcbcEncStep s.encBlock) (ModeState.withIv (s.ivBytes 16))) := by
  rw [exec, execPcbcEnc, modeCommand_pass ((firstFault_pcbcEnc par s).trans h)]

theorem exec_pcbcDec_of_pass (p : Scheme) (h : modeFault 2 true par s = none) :
    exec (.pcbcDec par p) s = .next
      (s.runThenUnpad p 16 (pcbcDecStep s.decBlock) (ModeState.withIv (s.ivBytes 16))) := by
  rw [exec, execPcbcDec, modeCommand_pass ((firstFault_pcbcDec par s).trans h)]

theorem exec_cfbEnc_of_pass (h : modeFault 3 false par s = none) :
    exec (.cfbEnc par) s = .next
      (s.runUnpadded s.regs.seg.toNat (cfbEncStep s.encBlock s.regs.seg.toNat)
        (ModeState.withIv (s.ivBytes 16))) := by
  rw [exec, execCfbEnc, modeCommand_pass ((firstFault_cfbEnc par s).trans h)]

theorem exec_cfbDec_of_pass (h : modeFault 3 true par s = none) :
    exec (.cfbDec par) s = .next
      (s.runUnpadded s.regs.seg.toNat (cfbDecStep s.encBlock s.regs.seg.toNat)
        (ModeState.withIv (s.ivBytes 16))) := by
  rw [exec, execCfbDec, modeCommand_pass ((firstFault_cfbDec par s).trans h)]

theorem exec_ofbEnc_of_pass (h : modeFault 4 false par s = none) :
    exec (.ofbEnc par) s = .next
      (s.runUnpadded 16 (ofbStep s.encBlock) (ModeState.withIv (s.ivBytes 16))) := by
  rw [exec, execOfbEnc, modeCommand_pass ((firstFault_ofbEnc par s).trans h)]

/-- OFB.DEC is OFB.ENC (R211). -/
theorem exec_ofbDec (par : Bool) (s : State) : exec (.ofbDec par) s = exec (.ofbEnc par) s := by
  rw [exec, exec, execOfbDec, execOfbEnc]

theorem exec_ctrEnc_of_pass (h : modeFault 5 false par s = none) :
    exec (.ctrEnc par) s = .next (s.runCtr par) := by
  rw [exec, execCtrEnc, modeCommand_pass ((firstFault_ctrEnc par s).trans h)]

/-- CTR.DEC is CTR.ENC (R216). -/
theorem exec_ctrDec (par : Bool) (s : State) : exec (.ctrDec par) s = exec (.ctrEnc par) s := by
  rw [exec, exec, execCtrDec, execCtrEnc]

theorem exec_rdEnc_of_pass (p : Scheme) (h : modeFault 6 false par s = none) :
    exec (.rdEnc par p) s = .next
      (let blocks := pieces 16 (s.paddedInput p)
      let masks := pieces 16 ((s.skipFiller p).drawn (16 * blocks.length))
      let r := ((s.skipFiller p).skipDraws (16 * blocks.length)).runSequential
        (rdEncStep s.encBlock) ModeState.cleared (rdUnits masks blocks)
      r.2.finishMode (.ok r.1)) := by
  rw [exec, execRdEnc, modeCommand_pass ((firstFault_rdEnc par s).trans h)]
  rfl

theorem exec_rdDec_of_pass (p : Scheme) (h : modeFault 6 true par s = none) :
    exec (.rdDec par p) s = .next
      (s.runThenUnpad p 32 (rdDecStep s.decBlock) ModeState.cleared) := by
  rw [exec, execRdDec, modeCommand_pass ((firstFault_rdDec par s).trans h)]

end Sys2Proof.Machine
end

section
/-! PROOFS of the family spec/43_modes.md: the padded modes ECB, CBC, PCBC and RandomDelta (R196 to R202,
R221, R222, R224). -/

namespace Sys2Proof.Machine

/-! ## The padded chained commands -/

section Chained

variable {s : State} (hcap : s.regs.inlen.toNat ≤ s.conf.bufcap.val)
include hcap

/-- Encrypt with feedback: `O i` the result and `R i` the register before block `i`. -/
theorem dataDone_padThenRun {p : Scheme} {f : BlockStep} {O R : Nat → List Byte}
    (hO : ∀ i, (O i).length ≤ 16)
    (hf : ∀ i m, m.fb = R i → f m (blockAt (s.pd p) i) = (O i, { m with fb := R (i + 1) })) :
    DataDone s (s.padThenRun p f (ModeState.withIv (R 0))) (fillerCount p s.regs.inlen.toNat)
      (assemble ((s.pd p).length / 16) O) := by
  refine dataDone_of_padded hcap ((transient_skipFiller p s).trans (transient_runSequential ..)) hO
    rfl ?_
  rw [State.runSequential_fst, pieces_paddedInput]
  exact runBlocks_feedback fun i _ m hm => by simp [hf i m hm]

/-- Decrypt with feedback, block by block. -/
theorem outcome_runThenUnpad {o : Host.Outcome State Fault Refusal} {p : Scheme} {f : BlockStep}
    {O R : Nat → List Byte} (ho : o = .next (s.runThenUnpad p 16 f (ModeState.withIv (R 0))))
    (hwhole : s.regs.inlen.toNat % 16 = 0) (hO : ∀ i, (O i).length ≤ 16)
    (hf : ∀ i m, m.fb = R i → f m (blockAt s.input i) = (O i, { m with fb := R (i + 1) })) :
    (∀ r, unpadBytes p (assemble (s.regs.inlen.toNat / 16) O) = .ok r →
        ∃ t, o = .next t ∧ DataDone s t 0 r) ∧
      ∀ e, unpadBytes p (assemble (s.regs.inlen.toNat / 16) O) = .error e →
        ∃ t, o = .next t ∧ DataFault s t e := by
  refine outcome_of_unpad hcap (transient_runSequential ..) ho rfl (Nat.mul_div_le ..) hO ?_
  rw [State.runSequential_fst, pieces_input hwhole]
  exact runBlocks_feedback fun i _ m hm => by simp [hf i m hm]

end Chained

/-! ## ECB (R196, R197) -/

/-- Settles O37: E or D of each block, by either path. -/
theorem ecbBlocks : Obligations.EcbBlocks := by
  refine ⟨fun par p s hpass => ?_, fun par p s hpass => ?_⟩
  all_goals obtain ⟨hcap, -, -, -, -, -, hwhole, -⟩ := modeFault_none hpass
  · refine ⟨_, exec_ecbEnc_of_pass p hpass, ?_⟩
    refine dataDone_of_padded hcap ((transient_skipFiller p s).trans (transient_runIndependent ..))
      (fun i => (length_encBlock s _).le) (State.runIndependent_rngCursor ..) ?_
    rw [pieces_paddedInput]
    exact State.runIndependent_fst (threads_pos_of_pass hpass) (fun _ => rfl)
      (runBlocks_stateless (fun _ _ _ => rfl) _)
  · refine outcome_of_unpad hcap (transient_runIndependent ..) (exec_ecbDec_of_pass p hpass)
      (State.runIndependent_rngCursor ..) (Nat.mul_div_le ..) (fun i => (length_decBlock s _).le) ?_
    rw [pieces_input (hwhole rfl (.inl rfl))]
    exact State.runIndependent_fst (threads_pos_of_pass hpass) (fun _ => rfl)
      (runBlocks_stateless (fun _ _ _ => rfl) _)

/-! ## CBC (R198, R199) -/

/-- CBC decrypt: FB before block `i`. -/
def cbcDecReg (iv c : List Byte) : Nat → List Byte
  | 0 => iv
  | i + 1 => blockAt c i

theorem cbcPlain_eq (D : List Byte → List Byte) (iv c : List Byte) (i : Nat) :
    cbcPlain D iv c i = xorBytes (D (blockAt c i)) (cbcDecReg iv c i) := by
  cases i <;> rfl

/-- Settles O38: the register before block `i` is the IV, then the ciphertext block before. -/
theorem cbcChains : Obligations.CbcChains := by
  refine ⟨fun p s hpass => ?_, fun p s hpass => ?_⟩
  all_goals obtain ⟨hcap, -, -, -, -, -, hwhole, -⟩ := modeFault_none hpass
  · refine ⟨_, exec_cbcEnc_of_pass p hpass, ?_⟩
    refine dataDone_padThenRun (R := cbcReg s.encBlock (s.ivBytes 16) (s.pd p)) hcap
      (fun i => (length_encBlock s _).le) fun i m hm => ?_
    rw [cbcEncStep, hm]
    rfl
  · refine outcome_runThenUnpad (R := cbcDecReg (s.ivBytes 16) s.input) hcap
      (exec_cbcDec_of_pass p hpass) (hwhole rfl (.inr (.inl rfl))) (fun i => ?_) fun i m hm => ?_
    · simp [cbcPlain_eq]
    · rw [cbcDecStep, cbcPlain_eq, hm]
      rfl

/-! ## PCBC (R200 to R202) -/

theorem pcbcChain_fst_succ (E : List Byte → List Byte) (iv pd : List Byte) (i : Nat) :
    (pcbcChain E iv pd (i + 1)).1 = xorBytes (blockAt pd i) (pcbcChain E iv pd i).2 :=
  rfl

theorem pcbcChain_snd (E : List Byte → List Byte) (iv pd : List Byte) (i : Nat) :
    (pcbcChain E iv pd i).2 = E (xorBytes (blockAt pd i) (pcbcChain E iv pd i).1) := by
  cases i <;> rfl

/-- PCBC decrypt: FB before block `i`. -/
def pcbcDecReg (D : List Byte → List Byte) (iv c : List Byte) : Nat → List Byte
  | 0 => iv
  | i + 1 => xorBytes (pcbcPlain D iv c i) (blockAt c i)

theorem pcbcPlain_eq (D : List Byte → List Byte) (iv c : List Byte) (i : Nat) :
    pcbcPlain D iv c i = xorBytes (D (blockAt c i)) (pcbcDecReg D iv c i) := by
  cases i <;> rfl

/-- Settles O39: the register before block `i` is the IV, then the XOR of the plaintext and the
ciphertext block before. -/
theorem pcbcChains : Obligations.PcbcChains := by
  refine ⟨fun p s hpass => ?_, fun p s hpass => ?_⟩
  all_goals obtain ⟨hcap, -, -, -, -, -, hwhole, -⟩ := modeFault_none hpass
  · refine ⟨_, exec_pcbcEnc_of_pass p hpass, ?_⟩
    refine dataDone_padThenRun (R := fun i => (pcbcChain s.encBlock (s.ivBytes 16) (s.pd p) i).1) hcap
      (fun i => ?_) fun i m hm => ?_
    · simp [pcbcChain_snd]
    · rw [pcbcEncStep, hm, pcbcChain_fst_succ, pcbcChain_snd]
  · refine outcome_runThenUnpad (R := pcbcDecReg s.decBlock (s.ivBytes 16) s.input) hcap
      (exec_pcbcDec_of_pass p hpass) (hwhole rfl (.inr (.inr rfl))) (fun i => ?_) fun i m hm => ?_
    · simp [pcbcPlain_eq]
    · rw [pcbcDecStep, hm, ← pcbcPlain_eq]
      rfl

/-! ## RandomDelta (R221, R222, R224) -/

/-- Block `i` of the bytes drawn for `n` blocks is the draws from `16 * i` on. -/
theorem blockAt_stream (f : Nat → Byte) (c : Nat) {n i : Nat} (hi : i < n) :
    blockAt (stream f c (16 * n)) i = stream f (c + 16 * i) 16 := by
  rw [blockAt, stream_eq, stream_eq]
  refine List.ext_getElem (by simp; omega) fun j _ _ => ?_
  simp [Nat.add_assoc]

theorem State.maskAt_eq (p : Scheme) (s : State) (i : Nat) : s.maskAt p i =
    stream Config.rng (s.ext.rngCursor + fillerCount p s.regs.inlen.toNat + 16 * i) 16 := by
  rw [State.maskAt, stream_eq]

theorem State.length_maskAt (p : Scheme) (s : State) (i : Nat) : (s.maskAt p i).length = 16 := by
  rw [State.maskAt_eq, length_stream]

/-- The masks are drawn after the filler, 16 bytes for each block in order (R221). -/
theorem pieces_masks (p : Scheme) (s : State) (n : Nat) :
    pieces 16 ((s.skipFiller p).drawn (16 * n)) = (List.range n).map (s.maskAt p) := by
  have hn : (16 * n + 15) / 16 = n := by omega
  rw [pieces_blocks, State.length_drawn, hn]
  refine List.map_congr_left fun i hi => ?_
  rw [State.drawn, blockAt_stream _ _ (List.mem_range.1 hi), State.maskAt_eq]
  rfl

theorem rdUnits_map (mask b : Nat → List Byte) (n : Nat) :
    rdUnits ((List.range n).map mask) ((List.range n).map b)
      = (List.range n).map fun i => mask i ++ b i :=
  List.ext_getElem (by simp [rdUnits]) fun i _ _ => by simp [rdUnits]

theorem rdEncStep_append (E : List Byte → List Byte) (m : ModeState) {mask b : List Byte}
    (h : mask.length = 16) : (rdEncStep E m (mask ++ b)).1 = mask ++ E (xorBytes b mask) := by
  rw [rdEncStep, List.take_left' h, List.drop_left' h]

/-- A unit of RandomDelta decrypt is two blocks, the mask first (R224). -/
theorem rdDecStep_segAt (D : List Byte → List Byte) (m : ModeState) (c : List Byte) (i : Nat) :
    (rdDecStep D m (segAt 32 c i)).1 = rdPlain D c i := by
  have hmask : (segAt 32 c i).take 16 = blockAt c (2 * i) := by
    rw [segAt, List.take_take, blockAt, ← Nat.mul_assoc]
    rfl
  have hblock : (segAt 32 c i).drop 16 = blockAt c (2 * i + 1) := by
    rw [segAt, List.drop_take, List.drop_drop, blockAt, Nat.mul_succ, ← Nat.mul_assoc]
  rw [rdDecStep, hmask, hblock, rdPlain]

/-- Mask and block, 32 bytes for each block of the padded input, just fit OUT. -/
theorem dataDone_execRdEnc {p : Scheme} {s : State} (hpass : modeFault 6 false false s = none) :
    ∃ t, exec (.rdEnc false p) s = .next t ∧
      DataDone s t (fillerCount p s.regs.inlen.toNat + 16 * ((s.pd p).length / 16))
        (assemble ((s.pd p).length / 16) (rdOut s.encBlock (s.maskAt p) (s.pd p))) := by
  obtain ⟨hcap, -⟩ := modeFault_none hpass
  have hO (i : Nat) : (rdOut s.encBlock (s.maskAt p) (s.pd p) i).length ≤ 32 := by
    simp [rdOut, State.length_maskAt]
  have hfits : (assemble ((s.pd p).length / 16) (rdOut s.encBlock (s.maskAt p) (s.pd p))).length
      ≤ s.conf.outcap := by
    obtain ⟨-, -, hout⟩ := s.conf.capacities
    obtain ⟨-, hpad⟩ := padLen_le s.regs.inlen.toNat
    refine (length_assemble_le hO).trans ?_
    rw [State.length_pd]
    omega
  refine ⟨_, exec_rdEnc_of_pass p hpass, ?_⟩
  simp only [State.runSequential_fst, pieces_paddedInput, List.length_map, List.length_range,
    pieces_masks, rdUnits_map]
  rw [runBlocks_stateless fun i _ m => rdEncStep_append _ m (s.length_maskAt p i)]
  exact dataDone_finishMode (((transient_skipFiller p s).trans (transient_skipDraws ..)).trans
    (transient_runSequential ..)) (Nat.add_assoc ..) hfits

/-- Settles O43: each unit is a mask and a block, and no unit depends on another. -/
theorem randomDeltaUnits : Obligations.RandomDeltaUnits := by
  refine ⟨fun p s hpass => dataDone_execRdEnc hpass, fun p s hpass => ?_⟩
  obtain ⟨hcap, -, -, -, -, -, -, hwhole⟩ := modeFault_none hpass
  have hunits : (s.regs.inlen.toNat + 31) / 32 = s.regs.inlen.toNat / 32 := by
    have := hwhole rfl rfl
    omega
  refine outcome_of_unpad hcap (transient_runSequential ..) (exec_rdDec_of_pass p hpass) rfl
    (by omega) (fun i => ?_) ?_
  · simp [rdPlain]
  · rw [State.runSequential_fst, pieces_eq, State.length_input, hunits]
    exact runBlocks_stateless (fun i _ m => rdDecStep_segAt _ m _ i) _

end Sys2Proof.Machine
end

section
/-! PROOFS of the family spec/43_modes.md: the modes without padding, CFB, OFB and CTR (R203 to R218). -/

namespace Sys2Proof.Machine

/-- A mode without padding in pieces of `m` bytes: `O i` the result and `R i` the register before
piece `i`. -/
theorem dataDone_runUnpadded {s : State} (hcap : s.regs.inlen.toNat ≤ s.conf.bufcap.val) {m : Nat}
    (hm : m ≤ 16) {f : BlockStep} {O R : Nat → List Byte} (hO : ∀ i, (O i).length ≤ m)
    (hf : ∀ i (st : ModeState), st.fb = R i → (f st (segAt m s.input i)).1 = O i ∧
      (i + 1 < (s.input.length + (m - 1)) / m → (f st (segAt m s.input i)).2.fb = R (i + 1))) :
    DataDone s (s.runUnpadded m f (ModeState.withIv (R 0))) 0
      (assemble ((s.regs.inlen.toNat + (m - 1)) / m) O) := by
  refine dataDone_of_unpadded hcap
    (transient_runSequential f (ModeState.withIv (R 0)) (pieces m s.input) s) hm hO rfl ?_
  rw [State.runSequential_fst, pieces_eq, ← State.length_input s]
  exact runBlocks_feedback fun i _ => hf i

/-! ## CFB (R203, R205, R206) -/

section Cfb

variable {E : List Byte → List Byte} (hE : ∀ b, (E b).length = 16) {n : Nat} (hn : n ≤ 16)
  {iv d : List Byte} {m : ModeState} {i : Nat}

/-- Every segment but the last is whole (R203). -/
theorem length_segAt_of_next (h : i + 1 < (d.length + (n - 1)) / n) : (segAt n d i).length = n := by
  have hpos : 0 < n := Nat.pos_of_ne_zero fun h0 => by simp [h0] at h
  have hle : (i + 2) * n ≤ d.length + (n - 1) := (Nat.le_div_iff_mul_le hpos).1 h
  rw [length_segAt, Nat.mul_comm n i]
  rw [Nat.add_mul] at hle
  omega

theorem shiftIn_of_whole {s : Nat} {fb cseg : List Byte} (h : cseg.length = s) :
    shiftIn s fb cseg = fb.drop s ++ cseg :=
  if_pos h

include hE hn

theorem length_cfbOut (reg : Nat → List Byte) :
    (cfbOut E n d reg i).length = (segAt n d i).length := by
  have hseg := length_segAt n d i
  rw [cfbOut, length_xorBytes, List.length_take, hE, hseg]
  omega

theorem cfbEncStep_segAt (hm : m.fb = cfbEncReg E n iv d i) :
    (cfbEncStep E n m (segAt n d i)).1 = cfbOut E n d (cfbEncReg E n iv d) i ∧
      (i + 1 < (d.length + (n - 1)) / n →
        (cfbEncStep E n m (segAt n d i)).2.fb = cfbEncReg E n iv d (i + 1)) := by
  have hlen := length_cfbOut hE hn (d := d) (i := i) (cfbEncReg E n iv d)
  rw [cfbEncStep, hm]
  exact ⟨rfl, fun h => shiftIn_of_whole (hlen.trans (length_segAt_of_next h))⟩

end Cfb

theorem cfbDecStep_segAt (E : List Byte → List Byte) {n : Nat} {iv d : List Byte} {m : ModeState}
    {i : Nat} (hm : m.fb = cfbDecReg n iv d i) :
    (cfbDecStep E n m (segAt n d i)).1 = cfbOut E n d (cfbDecReg n iv d) i ∧
      (i + 1 < (d.length + (n - 1)) / n →
        (cfbDecStep E n m (segAt n d i)).2.fb = cfbDecReg n iv d (i + 1)) := by
  rw [cfbDecStep, hm]
  exact ⟨rfl, fun h => shiftIn_of_whole (length_segAt_of_next h)⟩

/-- Settles O40: the register takes the segment of ciphertext, and only the last segment, after which
the register is not used, may be short. -/
theorem cfbSegments : Obligations.CfbSegments := by
  intro s hpass
  obtain ⟨hcap, -, -, hseg, -⟩ := modeFault_none hpass
  obtain ⟨-, hn⟩ := hseg rfl
  have hO (reg : Nat → List Byte) (i : Nat) :
      (cfbOut s.encBlock s.regs.seg.toNat s.input reg i).length ≤ s.regs.seg.toNat := by
    rw [length_cfbOut (length_encBlock s) hn, length_segAt]
    exact Nat.min_le_left ..
  have hdec : modeFault 3 true false s = none := (modeFault_cfb true false s).trans hpass
  refine ⟨⟨_, exec_cfbEnc_of_pass hpass, ?_⟩, ⟨_, exec_cfbDec_of_pass hdec, ?_⟩⟩
  · exact dataDone_runUnpadded
      (R := cfbEncReg s.encBlock s.regs.seg.toNat (s.ivBytes 16) s.input) hcap hn (hO _)
      fun _ _ => cfbEncStep_segAt (length_encBlock s) hn
  · exact dataDone_runUnpadded (R := cfbDecReg s.regs.seg.toNat (s.ivBytes 16) s.input) hcap hn
      (hO _) fun _ _ => cfbDecStep_segAt _

/-! ## OFB (R208, R210, R211) -/

/-- Data XORed with a keystream and cut to its length is no longer than a block. -/
theorem length_xorBytes_blockAt_le (d : List Byte) (i : Nat) (k : List Byte) :
    (xorBytes (blockAt d i) k).length ≤ 16 := by
  simp [length_blockAt]

/-- Settles O41: the register before block `i` is FB(i), and the data meets FB(i + 1). -/
theorem ofbKeystream : Obligations.OfbKeystream := by
  intro s hpass i hi
  have hexec : exec i s = exec (.ofbEnc false) s := by
    simp only [List.mem_cons, List.not_mem_nil, or_false] at hi
    obtain rfl | rfl := hi
    exacts [rfl, exec_ofbDec false s]
  obtain ⟨hcap, -⟩ := modeFault_none hpass
  refine ⟨_, hexec.trans (exec_ofbEnc_of_pass hpass), ?_⟩
  refine dataDone_runUnpadded (R := ofbReg s.encBlock (s.ivBytes 16)) hcap le_rfl
    (fun i => length_xorBytes_blockAt_le ..) fun i m hm => ?_
  rw [ofbStep, hm]
  exact ⟨rfl, fun _ => rfl⟩

/-! ## CTR (R213, R215, R216, R218) -/

/-- The counter before block `i` is `i`. -/
theorem runBlocks_ctr (E : List Byte → List Byte) (nonce d : List Byte) (n : Nat) :
    (runBlocks (ctrStep E) (ModeState.withNonce nonce) ((List.range n).map (blockAt d))).1
      = assemble n (ctrOut E nonce d) := by
  refine runBlocks_of_invariant (P := fun i m => m.nonce = nonce ∧ m.ctrv = BitVec.ofNat 64 i)
    (fun i _ m hm => ?_) fun _ => ⟨rfl, rfl⟩
  obtain ⟨hnonce, hctrv⟩ := hm
  refine ⟨?_, fun _ => ⟨hnonce, ?_⟩⟩
  · rw [ctrStep, hnonce, hctrv]
    rfl
  · show m.ctrv + 1 = _
    rw [hctrv, BitVec.ofNat_add]
    rfl

/-- Settles O42: the counter block of block `i` depends on `i` only, so both paths deliver the same. -/
theorem ctrKeystream : Obligations.CtrKeystream := by
  intro par s hpass i hi
  have hexec : exec i s = exec (.ctrEnc par) s := by
    simp only [List.mem_cons, List.not_mem_nil, or_false] at hi
    obtain rfl | rfl := hi
    exacts [rfl, exec_ctrDec par s]
  obtain ⟨hcap, -⟩ := modeFault_none hpass
  refine ⟨_, hexec.trans (exec_ctrEnc_of_pass hpass), ?_⟩
  refine dataDone_of_unpadded hcap (transient_runIndependent ..) le_rfl
    (fun i => length_xorBytes_blockAt_le ..) (State.runIndependent_rngCursor ..) ?_
  rw [pieces_blocks, State.length_input]
  exact State.runIndependent_fst (threads_pos_of_pass hpass) (fun _ => rfl) (runBlocks_ctr ..)

end Sys2Proof.Machine
end

section
/-! PROOFS of the family spec/44_dispatcher.md: only an independent mode may be dispatched (R230). -/

namespace Sys2Proof.Machine

/-- A MODE command with a check that fails ends with no result. -/
theorem dataFault_modeCommand {needs : ModeNeeds} {par : Bool} {s : State} {e : ErrCode}
    (h : firstFault (modeChecks needs par s) = some e) (work : State → State) :
    ∃ t, modeCommand needs par work s = .next t ∧ DataFault s t e :=
  ⟨_, modeCommand_fail h, dataFault_raise rfl rfl rfl rfl rfl rfl rfl⟩

/-- With `par = 1` a mode that is not independent fails the check of R230, which stands before those
of THREADS, SEG, IVLEN and the input length. -/
theorem firstFault_modeChecks_of_not_independent {needs : ModeNeeds} {s : State}
    (hdep : needs.independent = false) (hcap : s.regs.inlen.toNat ≤ s.conf.bufcap.val)
    (hready : s.status.keyReady = true) :
    firstFault (modeChecks needs true s) = some .config := by
  have hlen : s.inputTooLong = false := inputTooLong_of_le hcap
  simp [modeChecks, firstFault, hlen, hready, hdep]

/-- The commands of CBC, PCBC, CFB, OFB and RandomDelta share the checks, with needs that are not
independent (R230). -/
theorem exec_eq_modeCommand_of_chained {p : Scheme} {i : Instr}
    (hi : i ∈ [Instr.cbcEnc true p, .cbcDec true p, .pcbcEnc true p, .pcbcDec true p, .cfbEnc true,
      .cfbDec true, .ofbEnc true, .ofbDec true, .rdEnc true p, .rdDec true p]) :
    ∃ needs work, needs.independent = false ∧ exec i = modeCommand needs true work := by
  simp only [List.mem_cons, List.not_mem_nil, or_false] at hi
  obtain rfl | rfl | rfl | rfl | rfl | rfl | rfl | rfl | rfl | rfl := hi
  · exact ⟨cbcEncNeeds, _, rfl, rfl⟩
  · exact ⟨cbcDecNeeds, _, rfl, rfl⟩
  · exact ⟨pcbcEncNeeds, _, rfl, rfl⟩
  · exact ⟨pcbcDecNeeds, _, rfl, rfl⟩
  · exact ⟨cfbNeeds, _, rfl, rfl⟩
  · exact ⟨cfbNeeds, _, rfl, rfl⟩
  · exact ⟨ofbNeeds, _, rfl, rfl⟩
  · exact ⟨ofbNeeds, _, rfl, rfl⟩
  · exact ⟨rdEncNeeds, _, rfl, rfl⟩
  · exact ⟨rdDecNeeds, _, rfl, rfl⟩

/-- Settles O49: the ten commands are `modeCommand`s of modes that are not independent, and the first
check such a command fails is that of R230. -/
theorem chainedModesRefusePar : Obligations.ChainedModesRefusePar := by
  intro p s hcap hready i hi
  obtain ⟨needs, work, hdep, hexec⟩ := exec_eq_modeCommand_of_chained hi
  rw [hexec]
  exact dataFault_modeCommand (firstFault_modeChecks_of_not_independent hdep hcap hready) work

end Sys2Proof.Machine
end

section
/-! PROOFS of the family spec/45_system.md: SYS.RESET is the only command that clears FLT or writes
what the host sets up (R245). -/

namespace Sys2Proof.Machine

/-! ## What every command but SYS.RESET keeps -/

/-- From `s` to `t` a set FLT stays set, and what the host writes stays as it is: the six writable
registers other than CMD, and the KEY, IV and IN windows (R245). -/
structure KeepsHostSetup (s t : State) : Prop where
  flt : s.status.flt = true → t.status.flt = true
  mem : t.mem = s.mem
  poly : t.regs.poly = s.regs.poly
  threads : t.regs.threads = s.regs.threads
  seg : t.regs.seg = s.regs.seg
  keylen : t.regs.keylen = s.regs.keylen
  ivlen : t.regs.ivlen = s.regs.ivlen
  inlen : t.regs.inlen = s.regs.inlen

theorem KeepsHostSetup.trans {s u t : State} (h : KeepsHostSetup s u) (k : KeepsHostSetup u t) :
    KeepsHostSetup s t :=
  ⟨k.flt ∘ h.flt, k.mem.trans h.mem, k.poly.trans h.poly, k.threads.trans h.threads,
    k.seg.trans h.seg, k.keylen.trans h.keylen, k.ivlen.trans h.ivlen, k.inlen.trans h.inlen⟩

theorem Transient.keepsHostSetup {s u : State} (h : Transient s u) : KeepsHostSetup s u := by
  have hregs := h.regs
  exact ⟨fun hflt => h.status ▸ hflt, h.mem, by rw [hregs], by rw [hregs], by rw [hregs],
    by rw [hregs], by rw [hregs], by rw [hregs]⟩

/-! ## The ways a command ends (R256, R257) -/

/-- A fault sets FLT, and of the registers it writes at most OUTLEN. -/
theorem keepsHostSetup_raise (data : Bool) (e : ErrCode) (s : State) :
    KeepsHostSetup s (s.raise data e) := by
  cases data <;> exact ⟨fun _ => rfl, rfl, rfl, rfl, rfl, rfl, rfl, rfl⟩

theorem keepsHostSetup_endsWith (e : ErrCode) (s : State) : KeepsHostSetup s (s.endsWith e) :=
  ⟨fun hflt => by simp [State.endsWith, hflt], rfl, rfl, rfl, rfl, rfl, rfl, rfl⟩

/-- Completion clears ERR and leaves FLT; the result writes OUT and OUTLEN. -/
theorem keepsHostSetup_deliver (r : List Byte) (s : State) : KeepsHostSetup s (s.deliver r) :=
  ⟨id, rfl, rfl, rfl, rfl, rfl, rfl, rfl⟩

theorem DataEnds.keepsHostSetup {m : ModeState} {d : Option Dispatcher} {s t : State}
    (h : DataEnds m d s t) : KeepsHostSetup s t := by
  obtain ⟨u, hu, -, -, ⟨e, -, rfl⟩ | ⟨r, -, rfl⟩⟩ := h
  · exact hu.keepsHostSetup.trans (keepsHostSetup_raise true e u)
  · exact hu.keepsHostSetup.trans (keepsHostSetup_deliver r u)

/-! ## Command by command -/

theorem exec_data_keepsHostSetup {i : Instr} (hi : isDataCommand i = true) (s : State) :
    ∃ t, exec i s = .next t ∧ KeepsHostSetup s t := by
  obtain ⟨t, ht, hends⟩ := exec_data s hi
  split at hends <;> exact ⟨t, ht, hends.keepsHostSetup⟩

/-- FE.INIT reads POLY and writes POLYA. -/
theorem exec_feInit_keepsHostSetup (s : State) :
    ∃ t, exec .feInit s = .next t ∧ KeepsHostSetup s t := by
  cases h : s.conf.genOf s.regs.poly with
  | none => exact ⟨_, exec_feInit_of_none h, fun _ => rfl, rfl, rfl, rfl, rfl, rfl, rfl, rfl⟩
  | some g => exact ⟨_, exec_feInit_of_some h, id, rfl, rfl, rfl, rfl, rfl, rfl, rfl⟩

/-- A field operation writes RES and no other register. -/
theorem fieldCommand_keepsHostSetup (r : Except ErrCode Byte) (s : State) :
    ∃ t, fieldCommand r s = .next t ∧ KeepsHostSetup s t := by
  rw [fieldCommand.eq_def]
  split
  · exact ⟨_, rfl, keepsHostSetup_raise ..⟩
  · split
    · exact ⟨_, rfl, keepsHostSetup_raise ..⟩
    · exact ⟨_, rfl, id, rfl, rfl, rfl, rfl, rfl, rfl, rfl⟩

/-- KEY.SETUP reads KEYLEN and the KEY window and writes neither. -/
theorem exec_keySetup_keepsHostSetup (s : State) :
    ∃ t, exec .keySetup s = .next t ∧ KeepsHostSetup s t := by
  have hclear : KeepsHostSetup s { s with status := { s.status with keyReady := false } } :=
    ⟨id, rfl, rfl, rfl, rfl, rfl, rfl, rfl⟩
  cases hready : s.status.feReady with
  | false => exact ⟨_, exec_keySetup_of_notReady hready, hclear.trans (keepsHostSetup_endsWith ..)⟩
  | true =>
    by_cases hlen : s.regs.keylen.toNat ∈ [16, 24, 32]
    · exact ⟨_, exec_keySetup_of_legal hready hlen, id, rfl, rfl, rfl, rfl, rfl, rfl, rfl⟩
    · exact ⟨_, exec_keySetup_of_illegal hready hlen, hclear.trans (keepsHostSetup_endsWith ..)⟩

theorem exec_keepsHostSetup {i : Instr} (hi : i ≠ .sysReset) (s : State) :
    ∃ t, exec i s = .next t ∧ KeepsHostSetup s t := by
  cases i with
  | sysReset => exact absurd rfl hi
  | feInit => exact exec_feInit_keepsHostSetup s
  | feAdd | feSub | feMul | feDiv | fePow | feInv =>
    simp only [exec_feAdd, exec_feSub, exec_feMul, exec_feDiv, exec_fePow, exec_feInv]
    exact fieldCommand_keepsHostSetup _ s
  | keySetup => exact exec_keySetup_keepsHostSetup s
  | mode7Enc low => exact ⟨_, exec_mode7Enc low s, keepsHostSetup_endsWith ..⟩
  | mode7Dec low => exact ⟨_, exec_mode7Dec low s, keepsHostSetup_endsWith ..⟩
  | blkEnc | blkDec | padZero | padAnsi | padPkcs7 | padIso
  | unpadZero | unpadAnsi | unpadPkcs7 | unpadIso
  | ecbEnc | cbcEnc | pcbcEnc | cfbEnc | ofbEnc | ctrEnc | rdEnc
  | ecbDec | cbcDec | pcbcDec | cfbDec | ofbDec | ctrDec | rdDec =>
    exact exec_data_keepsHostSetup rfl s

/-! ## The statement -/

/-- The word of SYS.RESET with a must-be-zero bit set (R245). -/
theorem decode_sysReset_nonzero_low : ∃ e, decode 0x01000001 = .error e := ⟨_, rfl⟩

/-- Settles O15: SYS.RESET is `State.resetBlock`, every other command keeps what the host set up and
a set FLT, and a word that does not decode is an illegal command. -/
theorem sysReset : Obligations.SysReset := by
  refine ⟨rfl, fun s => ⟨_, exec_sysReset s, s.resetBlock_atReset⟩, fun i s t hi ht => ?_,
    fun s => ?_⟩
  · obtain ⟨t', ht', hkeep⟩ := exec_keepsHostSetup hi s
    obtain rfl : t' = t := by injection ht'.symm.trans ht
    obtain ⟨hflt, hmem, hpoly, hthreads, hseg, hkeylen, hivlen, hinlen⟩ := hkeep
    exact ⟨hflt, hmem, hpoly, hthreads, hseg, hkeylen, hivlen, hinlen⟩
  · obtain ⟨e, he⟩ := decode_sysReset_nonzero_low
    exact runWord_of_decode_error he s

end Sys2Proof.Machine
end

section
/-! PROOFS of the family spec/60_exceptions.md: every command but SYS.RESET ends in a completion or in
one fault, decided without ERR and FLT (R256 to R259). -/

namespace Sys2Proof.Machine

/-! ## The shape in which commands end -/

/-- `s` with `e` in ERR and `f` in FLT: what the command before may have left there. -/
def State.withFlags (e : ErrCode) (f : Bool) (s : State) : State :=
  { s with status := { s.status with err := e, flt := f } }

/-- The end of a command, `data` for a data command: the fault `o`, or completion (R256, R257). -/
def State.endCommand (data : Bool) (o : Option ErrCode) (u : State) : State :=
  match o with
  | none => u.complete
  | some e => u.raise data e

/-- The command `run` goes from `s` by way of `u` to the fault or completion `o`, whatever ERR and FLT
hold. On a fault `u` is `s₀` but for transient state, and no free byte is used up; `unready` says when
the fault is NotReadyError. -/
structure EndsBy (run : State → Host.Outcome State Fault Refusal) (data : Bool) (unready : Prop)
    (s s₀ u : State) (o : Option ErrCode) : Prop where
  next : ∀ e f, run (s.withFlags e f) = .next ((u.withFlags e f).endCommand data o)
  ne_none : o ≠ some .none
  notReady : o = some .notReady ↔ unready
  transient : o ≠ none → Transient s₀ u
  freeCursor : o ≠ none → u.ext.freeCursor = s.ext.freeCursor

/-- `EndsBy` for some intermediate state and outcome. -/
def Ends (run : State → Host.Outcome State Fault Refusal) (data : Bool) (unready : Prop)
    (s s₀ : State) : Prop :=
  ∃ u o, EndsBy run data unready s s₀ u o

section Ends

variable {run : State → Host.Outcome State Fault Refusal} {data : Bool} {unready : Prop}
  {s s₀ t : State}

theorem Ends.of_complete (u : State)
    (h : ∀ e f, run (s.withFlags e f) = .next (u.withFlags e f).complete) (hready : ¬unready) :
    Ends run data unready s s₀ :=
  ⟨u, none, h, nofun, iff_of_false nofun hready, fun ho => absurd rfl ho, fun ho => absurd rfl ho⟩

theorem Ends.of_raise (u : State) {c : ErrCode}
    (h : ∀ e f, run (s.withFlags e f) = .next ((u.withFlags e f).raise data c)) (hc : c ≠ .none)
    (hunready : c = .notReady ↔ unready) (htransient : Transient s₀ u)
    (hfree : u.ext.freeCursor = s.ext.freeCursor) : Ends run data unready s s₀ :=
  ⟨u, some c, h, fun ho => hc (Option.some.inj ho), Option.some_inj.trans hunready, fun _ => htransient,
    fun _ => hfree⟩

/-! ## What the shape says about the state a command leaves -/

theorem EndsBy.next_self {u : State} {o : Option ErrCode} (h : EndsBy run data unready s s₀ u o) :
    run s = .next ((u.withFlags s.status.err s.status.flt).endCommand data o) :=
  h.next s.status.err s.status.flt

theorem State.endCommand_cmd (o : Option ErrCode) (u : State) :
    (u.endCommand data o).cmd = none := by
  cases o with
  | none => rfl
  | some e => exact u.raise_cmd data e

theorem State.endCommand_err (o : Option ErrCode) (u : State) :
    (u.endCommand data o).status.err = o.getD .none := by
  cases o with
  | none => rfl
  | some e => rw [State.endCommand, State.raise_status]; rfl

/-- A fault overwrites both ERR and FLT. -/
theorem State.raise_withFlags (c e : ErrCode) (f : Bool) (u : State) :
    (u.withFlags e f).raise data c = u.raise data c := by
  cases data <;> rfl

/-- The end overwrites ERR, so of what ERR and FLT held before at most FLT stays. -/
theorem State.endCommand_withFlags (o : Option ErrCode) (u : State) (e e' : ErrCode) (f f' : Bool) :
    (u.withFlags e f).endCommand data o =
      { (u.withFlags e' f').endCommand data o with
        status := { ((u.withFlags e' f').endCommand data o).status with
          flt := ((u.withFlags e f).endCommand data o).status.flt } } := by
  cases o with
  | none => rfl
  | some c => simp only [State.endCommand, State.raise_withFlags]

/-- A command that ends so has a next state, with NotReadyError in ERR exactly when `unready`. -/
theorem Ends.exists_next (h : Ends run data unready s s₀) :
    ∃ t, run s = .next t ∧ (t.status.err = .notReady ↔ unready) := by
  obtain ⟨u, o, h⟩ := h
  refine ⟨_, h.next_self, ?_⟩
  rw [State.endCommand_err, ← h.notReady]
  cases o <;> simp

theorem Ends.idle (h : Ends run data unready s s₀) (ht : run s = .next t) : t.cmd = none := by
  obtain ⟨u, o, h⟩ := h
  cases h.next_self.symm.trans ht
  exact State.endCommand_cmd o _

/-- Nothing but FLT depends on what ERR and FLT held before (R256, R257). -/
theorem Ends.ignores_flags (h : Ends run data unready s s₀) (ht : run s = .next t) (e : ErrCode)
    (f : Bool) : ∃ u, run (s.withFlags e f) = .next u ∧
      t = { u with status := { u.status with flt := t.status.flt } } := by
  obtain ⟨u, o, h⟩ := h
  cases h.next_self.symm.trans ht
  exact ⟨_, h.next e f, State.endCommand_withFlags o u _ e _ f⟩

/-- ERR is 0 after a completion only, which leaves FLT (R257). -/
theorem Ends.flt_of_completed (h : Ends run data unready s s₀) (ht : run s = .next t)
    (herr : t.status.err = .none) : t.status.flt = s.status.flt := by
  obtain ⟨u, o, h⟩ := h
  cases h.next_self.symm.trans ht
  rw [State.endCommand_err] at herr
  cases o with
  | none => rfl
  | some c => exact absurd (congrArg some herr) h.ne_none

/-- With a non-zero ERR the command ended in `raise` on the state `s₀`, transient state apart. -/
theorem Ends.exists_raise (h : Ends run data unready s s₀) (ht : run s = .next t)
    (herr : t.status.err ≠ .none) :
    ∃ u c, Transient s₀ u ∧ u.ext.freeCursor = s.ext.freeCursor ∧ t = u.raise data c := by
  obtain ⟨u, o, h⟩ := h
  cases h.next_self.symm.trans ht
  cases o with
  | none => exact absurd rfl herr
  | some c =>
    exact ⟨u, c, h.transient nofun, h.freeCursor nofun, State.raise_withFlags ..⟩

end Ends

/-! ## The checks (R258, R259) -/

/-- The checks of BLK and MODE commands begin with the length and the key; no other check reports
NotReadyError. -/
theorem firstFault_eq_notReady_iff {long unready : Bool} {cs : List (Bool × ErrCode)}
    (hcs : ∀ c ∈ cs, c.2 ≠ .notReady) :
    firstFault ((long, .illegalCommand) :: (unready, .notReady) :: cs) = some .notReady ↔
      long = false ∧ unready = true := by
  cases long with
  | true => simp [firstFault]
  | false =>
    cases unready with
    | true => simp [firstFault]
    | false =>
      simpa [firstFault] using fun h => hcs _ (firstFault_some h) rfl

/-- The check of KEY_READY fails, and is reached, as the check of INLEN before it passes. -/
def State.KeyUnready (s : State) : Prop :=
  s.status.keyReady = false ∧ s.regs.inlen.toNat ≤ s.conf.bufcap.val

theorem keyUnready_iff (s : State) :
    (s.inputTooLong = false ∧ (!s.status.keyReady) = true) ↔ s.KeyUnready := by
  simp [State.inputTooLong, State.KeyUnready, and_comm]

theorem firstFault_blockChecks_eq_notReady_iff (s : State) :
    firstFault (blockChecks s) = some .notReady ↔ s.KeyUnready :=
  (firstFault_eq_notReady_iff (by simp)).trans (keyUnready_iff s)

theorem firstFault_modeChecks_eq_notReady_iff (needs : ModeNeeds) (par : Bool) (s : State) :
    firstFault (modeChecks needs par s) = some .notReady ↔ s.KeyUnready :=
  (firstFault_eq_notReady_iff (by simp)).trans (keyUnready_iff s)

/-! ## The shared shapes of the commands -/

theorem ends_raise {c : ErrCode} (hc : c ≠ .none) (hc' : c ≠ .notReady) (s : State) :
    Ends (fun s => .next (s.raise false c)) false False s s :=
  .of_raise s (fun _ _ => rfl) hc (iff_false_intro hc') (.refl s) rfl

theorem gfDiv_error {T : Tables} {a b : Byte} {c : ErrCode} (h : gfDiv T a b = .error c) :
    c = .divideByZero := by
  unfold gfDiv at h
  split at h
  · cases h
    rfl
  · split at h <;> cases h

theorem gfInv_error {T : Tables} {a : Byte} {c : ErrCode} (h : gfInv T a = .error c) :
    c = .divideByZero := by
  unfold gfInv at h
  split at h <;> cases h
  rfl

/-- The operation's own fault is DivideByZero. -/
theorem ends_fieldCommand {r : Tables → Except ErrCode Byte}
    (hr : ∀ T c, r T = .error c → c = .divideByZero) (s : State) :
    Ends (fun s => fieldCommand (r s.tab) s) false (s.status.feReady = false) s s := by
  cases hready : s.status.feReady with
  | false =>
    refine .of_raise s (c := .notReady) (fun e f => ?_) (by decide) (by simp) (.refl s) rfl
    rw [fieldCommand.eq_def, State.withFlags, hready]
    rfl
  | true =>
    cases hres : r s.tab with
    | error c =>
      obtain rfl := hr _ _ hres
      refine .of_raise s (c := .divideByZero) (fun e f => ?_) (by decide) (by simp) (.refl s) rfl
      simp only [State.withFlags, fieldCommand, hready, hres]
      rfl
    | ok v =>
      refine .of_complete { s with regs := { s.regs with res := v.setWidth 32 } } (fun e f => ?_)
        (by simp)
      simp only [State.withFlags, fieldCommand, hready, hres]
      rfl

theorem ends_blockCommand {F : State → List Byte → List Byte}
    (hF : ∀ s e f, F (s.withFlags e f) = F s) (s : State) :
    Ends (fun s => blockCommand (F s) s) true s.KeyUnready s s := by
  have hiff := firstFault_blockChecks_eq_notReady_iff s
  cases hcheck : firstFault (blockChecks s) with
  | some c =>
    rw [hcheck, Option.some_inj] at hiff
    have hfail : ∀ e f, firstFault (blockChecks (s.withFlags e f)) = some c := fun _ _ => hcheck
    exact .of_raise s (fun e f => by rw [blockCommand, hfail])
      (firstFault_blockChecks_ne_none hcheck) hiff (.refl s) rfl
  | none =>
    rw [hcheck] at hiff
    have hpass : ∀ e f, firstFault (blockChecks (s.withFlags e f)) = none := fun _ _ => hcheck
    exact .of_complete (s.setOut (F s s.input))
      (fun e f => by rw [blockCommand_of_none (hpass e f), hF]; rfl) fun hm => nomatch hiff.2 hm

theorem ends_padCommand (p : Scheme) (s : State) : Ends (padCommand p) true False s s := by
  cases hlong : s.inputTooLong with
  | true =>
    exact .of_raise s (fun e f => if_pos hlong) (by decide) (by simp) (.refl s) rfl
  | false =>
    exact .of_complete ((s.skipFiller p).setOut (s.paddedInput p))
      (fun e f => if_neg (Bool.eq_false_iff.1 hlong)) id

/-- What unpad can raise is LengthError or PaddingError (R177). -/
theorem unpadBytes_error_ne {p : Scheme} {d : List Byte} {c : ErrCode}
    (h : unpadBytes p d = .error c) : c ≠ .none ∧ c ≠ .notReady := by
  obtain rfl | rfl := unpadBytes_error h <;> decide

theorem ends_unpadCommand (p : Scheme) (s : State) : Ends (unpadCommand p) true False s s := by
  cases hlong : s.inputTooLong with
  | true =>
    exact .of_raise s (fun e f => if_pos hlong) (by decide) (by simp) (.refl s) rfl
  | false =>
    have hlong' : ∀ e f, (s.withFlags e f).inputTooLong = false := fun _ _ => hlong
    cases hr : unpadBytes p s.input with
    | error c =>
      obtain ⟨hc, hc'⟩ := unpadBytes_error_ne hr
      have hr' : ∀ e f, unpadBytes p (s.withFlags e f).input = .error c := fun _ _ => hr
      exact .of_raise s (fun e f => by rw [unpadCommand, hlong', hr']; rfl) hc (iff_false_intro hc')
        (.refl s) rfl
    | ok r =>
      have hr' : ∀ e f, unpadBytes p (s.withFlags e f).input = .ok r := fun _ _ => hr
      exact .of_complete (s.setOut r) (fun e f => by rw [unpadCommand, hlong', hr']; rfl) id

/-! ## The work of the MODE commands -/

/-- The work of a MODE command from `s` goes by way of `u` to the result or unpad error `r`, whatever
ERR and FLT hold; `u` is `s` but for transient state, and no free byte is used up. -/
structure WorksBy (work : State → State) (s u : State) (r : Except ErrCode (List Byte)) : Prop where
  eq : ∀ e f, work (s.withFlags e f) = (u.withFlags e f).finishMode r
  transient : Transient s u
  freeCursor : u.ext.freeCursor = s.ext.freeCursor
  error : ∀ c, r = .error c → c ≠ .none ∧ c ≠ .notReady

/-- `WorksBy` for some intermediate state and result. -/
def Works (work : State → State) (s : State) : Prop := ∃ u r, WorksBy work s u r

theorem ends_modeCommand (needs : ModeNeeds) (par : Bool) {work : State → State} {s : State}
    (hwork : Works work s) : Ends (modeCommand needs par work) true s.KeyUnready s s := by
  have hiff := firstFault_modeChecks_eq_notReady_iff needs par s
  cases hcheck : firstFault (modeChecks needs par s) with
  | some c =>
    rw [hcheck, Option.some_inj] at hiff
    exact .of_raise s.endMode (fun e f => modeCommand_fail hcheck)
      (firstFault_modeChecks_ne_none hcheck) hiff (transient_endMode s) rfl
  | none =>
    rw [hcheck] at hiff
    have hready : ¬s.KeyUnready := fun hm => nomatch hiff.2 hm
    obtain ⟨u, r, h⟩ := hwork
    have hrun : ∀ e f, modeCommand needs par work (s.withFlags e f)
        = .next ((u.withFlags e f).finishMode r) := fun e f => by
      have hcheck' : firstFault (modeChecks needs par (s.withFlags e f)) = none := hcheck
      rw [modeCommand_pass hcheck', h.eq]
    cases r with
    | ok out => exact .of_complete (u.endMode.setOut out) hrun hready
    | error c =>
      obtain ⟨hc, hc'⟩ := h.error c rfl
      exact .of_raise u.endMode hrun hc (iff_of_false hc' hready)
        (h.transient.trans (transient_endMode u)) h.freeCursor

/-- A work that runs the pieces of a buffer and ends with the result, unpadded or not. -/
theorem works_of_run {g : State → List Byte × State} {r : List Byte → Except ErrCode (List Byte)}
    {s : State} (hg : ∀ e f, g (s.withFlags e f) = ((g s).1, (g s).2.withFlags e f))
    (htransient : Transient s (g s).2) (hfree : (g s).2.ext.freeCursor = s.ext.freeCursor)
    (hr : ∀ d c, r d = .error c → c ≠ .none ∧ c ≠ .notReady) :
    Works (fun s => (g s).2.finishMode (r (g s).1)) s :=
  ⟨(g s).2, r (g s).1, fun e f => by rw [hg], htransient, hfree, hr _⟩

theorem State.runIndependent_withFlags (par : Bool) (X : ChunkTransform) (F : BlockStep)
    (m : ModeState) (ps : List (List Byte)) (s : State) (e : ErrCode) (f : Bool) :
    (s.withFlags e f).runIndependent par X F m ps =
      ((s.runIndependent par X F m ps).1, (s.runIndependent par X F m ps).2.withFlags e f) := by
  cases par <;> rfl

@[simp] theorem State.runIndependent_freeCursor (par : Bool) (X : ChunkTransform) (F : BlockStep)
    (m : ModeState) (ps : List (List Byte)) (s : State) :
    (s.runIndependent par X F m ps).2.ext.freeCursor = s.ext.freeCursor := by
  cases par <;> rfl

section Sequential

variable {F : State → BlockStep} {M : State → ModeState}
  (hF : ∀ s e f, F (s.withFlags e f) = F s) (hM : ∀ s e f, M (s.withFlags e f) = M s)
include hF hM

theorem works_padThenRun (p : Scheme) (s : State) :
    Works (fun s => s.padThenRun p (F s) (M s)) s :=
  works_of_run (r := .ok)
    (g := fun s => (s.skipFiller p).runSequential (F s) (M s) (pieces 16 (s.paddedInput p)))
    (fun e f => by rw [hF, hM]; rfl) ((transient_skipFiller p s).trans (transient_runSequential ..))
    rfl nofun

theorem works_runThenUnpad (p : Scheme) (n : Nat) (s : State) :
    Works (fun s => s.runThenUnpad p n (F s) (M s)) s :=
  works_of_run (r := unpadBytes p)
    (g := fun s => s.runSequential (F s) (M s) (pieces n s.input))
    (fun e f => by rw [hF, hM]; rfl) (transient_runSequential ..) rfl
    (fun _ _ => unpadBytes_error_ne)

theorem works_runUnpadded {n : State → Nat} (hn : ∀ s e f, n (s.withFlags e f) = n s) (s : State) :
    Works (fun s => s.runUnpadded (n s) (F s) (M s)) s :=
  works_of_run (r := .ok)
    (g := fun s => s.runSequential (F s) (M s) (pieces (n s) s.input))
    (fun e f => by rw [hF, hM, hn]; rfl) (transient_runSequential ..) rfl nofun

end Sequential

theorem ends_execEcbEnc (par : Bool) (p : Scheme) (s : State) :
    Ends (execEcbEnc par p) true s.KeyUnready s s :=
  ends_modeCommand ecbEncNeeds par <| works_of_run (r := .ok)
    (g := fun s => (s.skipFiller p).runIndependent par (fun _ c => s.encBlock c) (ecbStep s.encBlock)
      ModeState.cleared (pieces 16 (s.paddedInput p)))
    (fun e f => State.runIndependent_withFlags _ _ _ _ _ (s.skipFiller p) e f)
    ((transient_skipFiller p s).trans (transient_runIndependent ..))
    (State.runIndependent_freeCursor ..) nofun

theorem ends_execEcbDec (par : Bool) (p : Scheme) (s : State) :
    Ends (execEcbDec par p) true s.KeyUnready s s :=
  ends_modeCommand ecbDecNeeds par <| works_of_run (r := unpadBytes p)
    (g := fun s => s.runIndependent par (fun _ c => s.decBlock c) (ecbStep s.decBlock)
      ModeState.cleared (pieces 16 s.input))
    (fun _ _ => State.runIndependent_withFlags ..) (transient_runIndependent ..)
    (State.runIndependent_freeCursor ..) (fun _ _ => unpadBytes_error_ne)

theorem ends_runCtr (par : Bool) (s : State) :
    Ends (modeCommand ctrNeeds par (State.runCtr par)) true s.KeyUnready s s :=
  ends_modeCommand ctrNeeds par <| works_of_run (r := .ok)
    (g := fun s => s.runIndependent par (ctrChunk s.encBlock (s.ivBytes 8)) (ctrStep s.encBlock)
      (ModeState.withNonce (s.ivBytes 8)) (pieces 16 s.input))
    (fun _ _ => State.runIndependent_withFlags ..) (transient_runIndependent ..)
    (State.runIndependent_freeCursor ..) nofun

/-- The run of RD.ENC, which follows the draws of the filler and of the masks (R221). -/
def State.runRdEnc (p : Scheme) (s : State) : List Byte × State :=
  let blocks := pieces 16 (s.paddedInput p)
  let s1 := s.skipFiller p
  let s2 := s1.skipDraws (16 * blocks.length)
  s2.runSequential (rdEncStep s2.encBlock) ModeState.cleared
    (rdUnits (pieces 16 (s1.drawn (16 * blocks.length))) blocks)

theorem ends_execRdEnc (par : Bool) (p : Scheme) (s : State) :
    Ends (execRdEnc par p) true s.KeyUnready s s :=
  ends_modeCommand rdEncNeeds par <| works_of_run (g := State.runRdEnc p) (r := .ok)
    (fun _ _ => rfl) (((transient_skipFiller p s).trans (transient_skipDraws ..)).trans
      (transient_runSequential ..)) rfl nofun

/-! ## FE.INIT and KEY.SETUP, which clear a ready flag before they fault (R113, R141) -/

/-- The state from which the fault of a command is raised. -/
def faultBase (i : Instr) (s : State) : State :=
  match i with
  | .feInit =>
    { s with
      status := { s.status with feReady := false, keyReady := false }
      regs := { s.regs with polya := 0 } }
  | .keySetup => { s with status := { s.status with keyReady := false } }
  | _ => s

theorem ends_feInit (s : State) : Ends (exec .feInit) false False s (faultBase .feInit s) := by
  cases hgen : s.conf.genOf s.regs.poly with
  | none =>
    exact .of_raise (faultBase .feInit s) (fun e f => exec_feInit_of_none hgen) (by decide)
      (by simp) (.refl _) rfl
  | some g =>
    exact .of_complete
      { s with
        tab := buildTables g (s.regs.poly.setWidth 9) s.tab
        regs := { s.regs with polya := s.regs.poly }
        status := { s.status with feReady := true, keyReady := false } }
      (fun e f => exec_feInit_of_some hgen) id

theorem ends_keySetup (s : State) :
    Ends (exec .keySetup) false (s.status.feReady = false) s (faultBase .keySetup s) := by
  cases hready : s.status.feReady with
  | false =>
    exact .of_raise (c := .notReady) (faultBase .keySetup s)
      (fun e f => by
        rw [exec_keySetup_of_notReady (s := s.withFlags e f) hready,
          ← State.raise_false_eq_endsWith (by decide)]
        rfl) (by decide) (by simp) (.refl _) rfl
  | true =>
    by_cases hlen : s.regs.keylen.toNat ∈ [16, 24, 32]
    · exact .of_complete
        { s with
          key := setupKey s.conf.cipher s.tab s.keyBytes
          status := { s.status with keyReady := true } }
        (fun e f => exec_keySetup_of_legal hready hlen) (by simp)
    · exact .of_raise (c := .keyLength) (faultBase .keySetup s)
        (fun e f => by
          rw [exec_keySetup_of_illegal (s := s.withFlags e f) hready hlen,
            ← State.raise_false_eq_endsWith (by decide)]
          rfl) (by decide) (by simp) (.refl _) rfl

/-! ## Every command but SYS.RESET -/

/-- What the command needs is not ready (R258); the check of INLEN comes first (R259). -/
def Unready (i : Instr) (s : State) : Prop :=
  match i with
  | .feAdd _ _ | .feSub _ _ | .feMul _ _ | .feDiv _ _ | .fePow _ _ | .feInv _ | .keySetup =>
    s.status.feReady = false
  | .sysReset | .feInit | .mode7Enc _ | .mode7Dec _
  | .padZero | .padAnsi | .padPkcs7 | .padIso
  | .unpadZero | .unpadAnsi | .unpadPkcs7 | .unpadIso => False
  | .blkEnc | .blkDec
  | .ecbEnc _ _ | .cbcEnc _ _ | .pcbcEnc _ _ | .cfbEnc _ | .ofbEnc _ | .ctrEnc _ | .rdEnc _ _
  | .ecbDec _ _ | .cbcDec _ _ | .pcbcDec _ _ | .cfbDec _ | .ofbDec _ | .ctrDec _ | .rdDec _ _ =>
    s.KeyUnready

theorem unready_iff (i : Instr) (s : State) :
    Unready i s ↔ ((isFieldOp i = true ∨ i = .keySetup) ∧ s.status.feReady = false) ∨
      ((i = .blkEnc ∨ i = .blkDec ∨ (modeOf i).isSome = true) ∧ s.KeyUnready) := by
  cases i <;> simp [Unready, isFieldOp, modeOf]

theorem ends_exec {i : Instr} (hi : i ≠ .sysReset) (s : State) :
    Ends (exec i) (isDataCommand i) (Unready i s) s (faultBase i s) := by
  cases i with
  | sysReset => exact absurd rfl hi
  | feInit => exact ends_feInit s
  | keySetup => exact ends_keySetup s
  | feAdd a b | feSub a b => exact ends_fieldCommand (r := fun _ => .ok (a ^^^ b)) nofun s
  | feMul a b => exact ends_fieldCommand (r := fun T => .ok (gfMul T a b)) nofun s
  | feDiv a b => exact ends_fieldCommand (r := fun T => gfDiv T a b) (fun _ _ => gfDiv_error) s
  | fePow a n => exact ends_fieldCommand (r := fun T => .ok (gfPow T a n)) nofun s
  | feInv a => exact ends_fieldCommand (r := fun T => gfInv T a) (fun _ _ => gfInv_error) s
  | mode7Enc | mode7Dec => exact ends_raise (c := .config) (by decide) (by decide) s
  | blkEnc | blkDec => exact ends_blockCommand (fun _ _ _ => rfl) s
  | padZero | padAnsi | padPkcs7 | padIso => exact ends_padCommand _ s
  | unpadZero | unpadAnsi | unpadPkcs7 | unpadIso => exact ends_unpadCommand _ s
  | ecbEnc => exact ends_execEcbEnc _ _ s
  | ecbDec => exact ends_execEcbDec _ _ s
  | ctrEnc | ctrDec => exact ends_runCtr _ s
  | rdEnc => exact ends_execRdEnc _ _ s
  | cbcEnc | pcbcEnc =>
    exact ends_modeCommand _ _ (works_padThenRun (fun _ _ _ => rfl) (fun _ _ _ => rfl) _ s)
  | cbcDec | pcbcDec | rdDec =>
    exact ends_modeCommand _ _ (works_runThenUnpad (fun _ _ _ => rfl) (fun _ _ _ => rfl) _ _ s)
  | cfbEnc | cfbDec | ofbEnc | ofbDec =>
    exact ends_modeCommand _ _
      (works_runUnpadded (fun _ _ _ => rfl) (fun _ _ _ => rfl) (fun _ _ _ => rfl) s)

/-- A word that names no command ends as mode number 7 does, with its own code (R92, R93). -/
theorem ends_runWord_of_decode_error {w : Word} {d : DecodeError} (hw : decode w = .error d)
    (s : State) : Ends (runWord w) false False s s := by
  have hrun : runWord w = illegalWord := funext fun s => by rw [runWord, hw]
  exact hrun ▸ ends_raise (c := .illegalCommand) (by decide) (by decide) s

/-- Settles O23: SYS.RESET clears ERR; every other command ends with NotReadyError exactly when
what it needs is not ready. -/
theorem notReadyFaults : Obligations.NotReadyFaults := by
  intro i s
  obtain rfl | hi := eq_or_ne i .sysReset
  · exact ⟨_, exec_sysReset s, by simp [isFieldOp, modeOf, Status.reset]⟩
  · obtain ⟨t, ht, hiff⟩ := (ends_exec hi s).exists_next
    exact ⟨t, ht, hiff.trans (unready_iff i s)⟩

end Sys2Proof.Machine
end

section
/-! PROOFS of the family spec/60_exceptions.md: the state a command word leaves (R256, R257). -/

namespace Sys2Proof.Machine

/-! ## The words whose effect is told apart -/

/-- SYS.RESET, FE.INIT and KEY.SETUP have no operand bits: one word names each. -/
theorem decode_eq_ok_iff {w : Word} {i : Instr} (hmask : rowMask i = 0xFFFFFFFF)
    (hrow : decode (rowMatch i) = .ok i) : decode w = .ok i ↔ w = rowMatch i := by
  refine ⟨fun h => ?_, fun h => h ▸ hrow⟩
  have hw := and_rowMask_of_decode h
  rwa [hmask, show w &&& 0xFFFFFFFF = w from BitVec.and_allOnes] at hw

theorem decode_sysReset_iff {w : Word} : decode w = .ok .sysReset ↔ w = 0x01000000 :=
  decode_eq_ok_iff rfl rfl

theorem decode_feInit_iff {w : Word} : decode w = .ok .feInit ↔ w = 0x10000000 :=
  decode_eq_ok_iff rfl rfl

theorem decode_keySetup_iff {w : Word} : decode w = .ok .keySetup ↔ w = 0x20000000 :=
  decode_eq_ok_iff rfl rfl

/-! ## The state from which the fault of a word is raised -/

/-- `s`, with what FE.INIT and KEY.SETUP clear when `w` is their word (R113, R141). -/
def State.clearedBy (w : Word) (s : State) : State :=
  { s with
    status := { s.status with
      feReady := if w = 0x10000000 then false else s.status.feReady
      keyReady := if w = 0x10000000 ∨ w = 0x20000000 then false else s.status.keyReady }
    regs := { s.regs with polya := if w = 0x10000000 then 0 else s.regs.polya } }

theorem State.clearedBy_of_ne {w : Word} (hfe : w ≠ 0x10000000) (hkey : w ≠ 0x20000000) (s : State) :
    s.clearedBy w = s := by
  rw [State.clearedBy, if_neg hfe, if_neg (not_or.2 ⟨hfe, hkey⟩), if_neg hfe]

theorem faultBase_of_ne {i : Instr} (hfe : i ≠ .feInit) (hkey : i ≠ .keySetup) (s : State) :
    faultBase i s = s := by
  unfold faultBase
  split
  · exact absurd rfl hfe
  · exact absurd rfl hkey
  · rfl

theorem faultBase_of_decode {w : Word} {i : Instr} (hw : decode w = .ok i) (s : State) :
    faultBase i s = s.clearedBy w := by
  by_cases hfe : i = .feInit
  · subst hfe
    obtain rfl := decode_feInit_iff.1 hw
    rfl
  by_cases hkey : i = .keySetup
  · subst hkey
    obtain rfl := decode_keySetup_iff.1 hw
    rfl
  have hne : ∀ {j}, i ≠ j → decode w ≠ .ok j := fun hij hj => hij (Except.ok.inj (hw.symm.trans hj))
  rw [faultBase_of_ne hfe hkey, State.clearedBy_of_ne (fun h => hne hfe (decode_feInit_iff.2 h))
    fun h => hne hkey (decode_keySetup_iff.2 h)]

/-- Neither FE.INIT nor KEY.SETUP is a data command. -/
theorem clearedBy_of_isDataCommand {w : Word} {i : Instr} (hw : decode w = .ok i)
    (hi : isDataCommand i = true) (s : State) : s.clearedBy w = s := by
  rw [← faultBase_of_decode hw, faultBase_of_ne]
  · rintro rfl
    cases hi
  · rintro rfl
    cases hi

/-- A word ends as the command it names, and as no data command when it names none. -/
theorem ends_runWord {w : Word} (hw : w ≠ 0x01000000) (s : State) :
    ∃ data unready, Ends (runWord w) data unready s (s.clearedBy w) ∧
      (data = true ↔ ∃ i, decode w = .ok i ∧ isDataCommand i = true) := by
  cases hdecode : decode w with
  | error d =>
    have hne : ∀ i, decode w ≠ .ok i := fun i hi => nomatch hdecode.symm.trans hi
    have hclear : s.clearedBy w = s := State.clearedBy_of_ne
      (fun h => hne _ (decode_feInit_iff.2 h)) (fun h => hne _ (decode_keySetup_iff.2 h)) s
    exact ⟨false, False, hclear.symm ▸ ends_runWord_of_decode_error hdecode s, by simp⟩
  | ok i =>
    have hi : i ≠ .sysReset := fun h => hw (decode_sysReset_iff.1 (h ▸ hdecode))
    have hrun : runWord w = exec i := funext (runWord_of_decode_ok hdecode)
    rw [hrun, ← faultBase_of_decode hdecode]
    exact ⟨isDataCommand i, Unready i s, ends_exec hi s, by simp⟩

/-! ## The statement -/

/-- After the fault of a data command every byte of OUT is a free one (log entry 8). -/
theorem State.readByte_raise_true (c : ErrCode) (u : State) {k : Nat} (hk : k < u.conf.outcap) :
    (u.raise true c).readByte (outBase + k) = Config.freeByte (u.ext.freeCursor + k) := by
  rw [State.readByte, State.raise_conf, if_pos (by omega), State.raise_true_out, Nat.add_sub_cancel_left]
  exact if_neg (Nat.not_lt_zero k)

/-- Settles O56: SYS.RESET leaves the reset state; every other word ends in a completion or in `raise`
on the state that FE.INIT and KEY.SETUP have cleared, transient state apart. -/
theorem faultAndCompletion : Obligations.FaultAndCompletion := by
  intro w s t ht
  obtain rfl | hw := eq_or_ne w 0x01000000
  · cases ht
    exact ⟨rfl, fun _ _ => ⟨_, rfl, rfl⟩, fun _ hw => absurd rfl hw, fun herr => absurd rfl herr⟩
  obtain ⟨data, unready, hends, hdata⟩ := ends_runWord hw s
  refine ⟨hends.idle ht, hends.ignores_flags ht, fun herr _ => hends.flt_of_completed ht herr,
    fun herr => ⟨hw, ?_⟩⟩
  obtain ⟨u, c, hu, hfree, rfl⟩ := hends.exists_raise ht herr
  rw [State.raise_status, hu.status, State.raise_mem, State.raise_tab, State.raise_key]
  refine ⟨rfl, rfl, rfl, hu.mem, hu.tab, hu.key, fun i hi hidata => ?_, fun hother => ?_⟩
  · obtain rfl := hdata.2 ⟨i, hi, hidata⟩
    refine ⟨?_, fun k hk => ?_⟩
    · rw [State.raise_true_regs, hu.regs, clearedBy_of_isDataCommand hi hidata]
    · rw [← hfree]
      exact State.readByte_raise_true c u (hu.conf ▸ hk)
  · obtain rfl : data = false := Bool.eq_false_iff.2 fun htrue => by
      obtain ⟨i, hi, hidata⟩ := hdata.1 htrue
      exact Bool.false_ne_true ((hother i hi).symm.trans hidata)
    exact ⟨hu.regs, hu.out⟩

end Sys2Proof.Machine
end

section
/-! PROOFS over spec/30_encoding.md: decode and encode undo each other, and a row's mask and match decide
what decodes to it (R81, R86, R89, R97). -/

namespace Sys2Proof

/-! ## Decoding the word of a command, format by format -/

/-- Settles O1: the opcode of each format's word selects the command's arm, the must-be-zero bits are
clear, and each field reads back its operand; a 16-bit exponent loses nothing. -/
theorem decodeEncode : Obligations.DecodeEncode := by
  intro i hwf
  cases i with
  | fePow a n => exact Machine.decode_fePow a (of_decide_eq_true hwf)
  | mode7Enc low | mode7Dec low => simp [encode, decode]
  | sysReset | feInit | keySetup | blkEnc | blkDec
  | padZero | padAnsi | padPkcs7 | padIso | unpadZero | unpadAnsi | unpadPkcs7 | unpadIso =>
    simp [encode, decode, requireZero]
  | feAdd a b | feSub a b | feMul a b | feDiv a b => simp [encode, decode, requireZero]
  | feInv a => exact Machine.decode_feInv a
  | ecbEnc par p | cbcEnc par p | pcbcEnc par p | rdEnc par p
  | ecbDec par p | cbcDec par p | pcbcDec par p | rdDec par p =>
    simp [encode, decode, requireZero]
  | cfbEnc par | ofbEnc par | ctrEnc par | cfbDec par | ofbDec par | ctrDec par =>
    simp [encode, decode, requireZero]

/-! ## Encoding the command a word decodes to -/

theorem ofNat_eq_fieldOp {w : Word} {n : Nat} (h : (fieldOp w).toNat = n) :
    BitVec.ofNat 8 n = fieldOp w := by
  rw [← h, BitVec.ofNat_toNat, BitVec.setWidth_eq]

/-- Settles O2: the command's word has the opcode that selected the arm, zeros where the arm demands
them, and the word's own fields everywhere else. -/
theorem encodeDecode : Obligations.EncodeDecode := by
  intro w i h
  unfold decode at h
  split at h
  -- format FP, of which no bit must be zero
  case h_7 hnum =>
    cases h
    exact ⟨(congrArg (wordFP · _ _) (ofNat_eq_fieldOp hnum)).trans (wordFP_fields w),
      decide_eq_true (BitVec.isLt _)⟩
  -- mode number 7
  case h_27 hnum | h_35 hnum =>
    cases h
    exact ⟨(congrArg (wordM7 · _) (ofNat_eq_fieldOp hnum)).trans (wordM7_fields w), rfl⟩
  case h_36 => cases h
  -- format F2
  case h_3 hnum | h_4 hnum | h_5 hnum | h_6 hnum =>
    obtain ⟨hzero, rfl⟩ := requireZero_eq_ok_iff.1 h
    exact ⟨(congrArg (wordF2 · _ _) (ofNat_eq_fieldOp hnum)).trans (wordF2_fields w hzero), rfl⟩
  -- format F1
  case h_8 hnum =>
    obtain ⟨hzero, rfl⟩ := requireZero_eq_ok_iff.1 h
    exact ⟨(congrArg (wordF1 · _) (ofNat_eq_fieldOp hnum)).trans (wordF1_fields w hzero), rfl⟩
  -- format MP
  case h_20 hnum | h_21 hnum | h_22 hnum | h_26 hnum
    | h_28 hnum | h_29 hnum | h_30 hnum | h_34 hnum =>
    obtain ⟨hzero, rfl⟩ := requireZero_eq_ok_iff.1 h
    exact ⟨(congrArg (wordMP · _ _) (ofNat_eq_fieldOp hnum)).trans (wordMP_fields w hzero), rfl⟩
  -- format MU
  case h_23 hnum | h_24 hnum | h_25 hnum | h_31 hnum | h_32 hnum | h_33 hnum =>
    obtain ⟨hzero, rfl⟩ := requireZero_eq_ok_iff.1 h
    exact ⟨(congrArg (wordMU · _) (ofNat_eq_fieldOp hnum)).trans (wordMU_fields w hzero), rfl⟩
  -- format Z
  all_goals
    next hnum =>
    obtain ⟨hzero, rfl⟩ := requireZero_eq_ok_iff.1 h
    exact ⟨(congrArg wordZ (ofNat_eq_fieldOp hnum)).trans (wordZ_fields w hzero), rfl⟩

/-! ## Rows -/

/-- The match value of a row is itself a word of the row, so it determines the mask. -/
theorem rowMask_eq_of_rowMatch_eq {i j : Instr} (h : rowMatch i = rowMatch j) :
    rowMask i = rowMask j := by
  have hrow : ∀ k : Instr, ∃ l, decode (rowMatch k) = .ok l ∧ rowMask l = rowMask k := by
    intro k
    cases k <;> simp only [rowMatch, rowMask] <;> exact ⟨_, rfl, rfl⟩
  obtain ⟨a, ha, hai⟩ := hrow i
  obtain ⟨b, hb, hbj⟩ := hrow j
  obtain rfl : a = b := Except.ok.inj (ha.symm.trans (h ▸ hb))
  exact hai.symm.trans hbj

/-- Settles O3: a word that meets a row decodes, to a command whose row it also meets, and no word meets
two rows. -/
theorem rowsDecideDecoding : Obligations.RowsDecideDecoding := by
  refine ⟨fun w i h => and_rowMask_of_decode h, fun w i hrow => ?_⟩
  obtain ⟨j, hj⟩ := exists_decode_of_and_rowMask hrow
  have hmatch := rowMatch_eq_of_and_rowMask (and_rowMask_of_decode hj) hrow
  exact ⟨j, hj, hmatch, rowMask_eq_of_rowMatch_eq hmatch⟩

/-- Settles O4: by evaluation of the decoder and the encoder. -/
theorem sampleWords : Obligations.SampleWords :=
  ⟨rfl, rfl, rfl, rfl, rfl, rfl, rfl, rfl, rfl, rfl⟩

end Sys2Proof
end

section
/-! PROOFS over the whole machine: what a command that is not a data command can do, said once, and the
frame of every command (R20, R27 to R47, R69, R245). -/

namespace Sys2Proof.Machine

/-! ## Commands that are no data command -/

/-- How a command that is neither a data command nor SYS.RESET ends in `t` from `s`: in a fault, in the
result of a field operation, or in what FE.INIT and KEY.SETUP write (R92, R113, R125, R141). -/
inductive ControlEnds (s : State) : Instr → State → Prop where
  | fault (i : Instr) (e : ErrCode) : ControlEnds s i (s.raise false e)
  | result {i : Instr} (hi : isFieldOp i = true) (v : Byte) : ControlEnds s i (s.fieldResult v)
  | feInit (g : Byte) (hg : s.conf.genOf s.regs.poly = some g) :
    ControlEnds s .feInit
      { s with
        cmd := none
        tab := buildTables g (s.regs.poly.setWidth 9) s.tab
        regs := { s.regs with polya := s.regs.poly }
        status := { s.status with feReady := true, keyReady := false, err := .none } }
  | feInitFault : ControlEnds s .feInit
      { s with
        cmd := none
        regs := { s.regs with polya := 0 }
        status := { feReady := false, keyReady := false, flt := true, err := .config } }
  | keySetup (hready : s.status.feReady = true) (hlen : s.regs.keylen.toNat ∈ [16, 24, 32]) :
    ControlEnds s .keySetup
      { s with
        cmd := none
        key := setupKey s.conf.cipher s.tab s.keyBytes
        status := { s.status with keyReady := true, err := .none } }
  | keySetupFault (e : ErrCode) : ControlEnds s .keySetup
      (State.endsWith { s with status := { s.status with keyReady := false } } e)

theorem controlEnds_fieldCommand {i : Instr} (hi : isFieldOp i = true) (r : Except ErrCode Byte)
    (s : State) : ∃ t, fieldCommand r s = .next t ∧ ControlEnds s i t := by
  rw [fieldCommand.eq_def]
  split
  · exact ⟨_, rfl, .fault i .notReady⟩
  · split
    · next e => exact ⟨_, rfl, .fault i e⟩
    · next v => exact ⟨_, rfl, .result hi v⟩

theorem controlEnds_feInit (s : State) : ∃ t, exec .feInit s = .next t ∧ ControlEnds s .feInit t := by
  cases hgen : s.conf.genOf s.regs.poly with
  | none => exact ⟨_, exec_feInit_of_none hgen, .feInitFault⟩
  | some g => exact ⟨_, exec_feInit_of_some hgen, .feInit g hgen⟩

theorem controlEnds_keySetup (s : State) :
    ∃ t, exec .keySetup s = .next t ∧ ControlEnds s .keySetup t := by
  cases hready : s.status.feReady with
  | false => exact ⟨_, exec_keySetup_of_notReady hready, .keySetupFault .notReady⟩
  | true =>
    by_cases hlen : s.regs.keylen.toNat ∈ [16, 24, 32]
    · exact ⟨_, exec_keySetup_of_legal hready hlen, .keySetup hready hlen⟩
    · exact ⟨_, exec_keySetup_of_illegal hready hlen, .keySetupFault .keyLength⟩

theorem exec_control {i : Instr} (hdata : isDataCommand i = false) (hreset : i ≠ .sysReset)
    (s : State) : ∃ t, exec i s = .next t ∧ ControlEnds s i t := by
  cases i with
  | sysReset => exact absurd rfl hreset
  | feInit => exact controlEnds_feInit s
  | keySetup => exact controlEnds_keySetup s
  | feAdd a b | feSub a b => exact controlEnds_fieldCommand (by rfl) (.ok (a ^^^ b)) s
  | feMul a b => exact controlEnds_fieldCommand (by rfl) (.ok (gfMul s.tab a b)) s
  | feDiv a b => exact controlEnds_fieldCommand (by rfl) (gfDiv s.tab a b) s
  | fePow a n => exact controlEnds_fieldCommand (by rfl) (.ok (gfPow s.tab a n)) s
  | feInv a => exact controlEnds_fieldCommand (by rfl) (gfInv s.tab a) s
  | mode7Enc low => exact ⟨_, rfl, .fault _ .config⟩
  | mode7Dec low => exact ⟨_, rfl, .fault _ .config⟩
  | _ => cases hdata

theorem controlEnds_of_exec {i : Instr} {s t : State} (hdata : isDataCommand i = false)
    (hreset : i ≠ .sysReset) (h : exec i s = .next t) : ControlEnds s i t := by
  obtain ⟨t', ht', hends⟩ := exec_control hdata hreset s
  obtain rfl : t' = t := by injection ht'.symm.trans h
  exact hends

/-! ## Data commands -/

theorem dataEnds_of_exec {i : Instr} {s t : State} (hi : isDataCommand i = true)
    (h : exec i s = .next t) :
    if (modeOf i).isSome then DataEnds ModeState.cleared none s t else DataEnds s.mode s.disp s t := by
  obtain ⟨t', ht', hends⟩ := exec_data s hi
  obtain rfl : t' = t := by injection ht'.symm.trans h
  exact hends

/-- A MODE command is a data command. -/
theorem isDataCommand_of_modeOf {i : Instr} (h : (modeOf i).isSome = true) :
    isDataCommand i = true := by
  cases i with
  | ecbEnc | cbcEnc | pcbcEnc | cfbEnc | ofbEnc | ctrEnc | rdEnc => rfl
  | ecbDec | cbcDec | pcbcDec | cfbDec | ofbDec | ctrDec | rdDec => rfl
  | _ => cases h

/-- What a data command leaves in each piece of state but OUT, as a whole (R69, R182, R191). -/
structure DataFrame (m : ModeState) (d : Option Dispatcher) (s t : State) : Prop where
  regs : t.regs = { s.regs with outlen := t.regs.outlen }
  feReady : t.status.feReady = s.status.feReady
  keyReady : t.status.keyReady = s.status.keyReady
  tab : t.tab = s.tab
  key : t.key = s.key
  mem : t.mem = s.mem
  mode : t.mode = m
  disp : t.disp = d
  conf : t.conf = s.conf
  pending : t.ext.pending = s.ext.pending
  rdata : t.ext.rdata = s.ext.rdata

theorem DataEnds.frame {m : ModeState} {d : Option Dispatcher} {s t : State} (h : DataEnds m d s t) :
    DataFrame m d s t := by
  obtain ⟨u, hu, hm, hd, ⟨e, -, rfl⟩ | ⟨r, -, rfl⟩⟩ := h
  · exact ⟨by simp [hu.regs], by simp [hu.status], by simp [hu.status], hu.tab, hu.key, hu.mem, hm, hd,
      hu.conf, hu.pending, hu.rdata⟩
  · exact ⟨by simp [hu.regs], by simp [hu.status], by simp [hu.status], hu.tab, hu.key, hu.mem, hm, hd,
      hu.conf, hu.pending, hu.rdata⟩

/-- The mode and dispatcher state a command leaves: none after a MODE command, else the old one. -/
theorem dataFrame_of_exec {i : Instr} {s t : State} (hi : isDataCommand i = true)
    (h : exec i s = .next t) :
    DataFrame (if (modeOf i).isSome then ModeState.cleared else s.mode)
      (if (modeOf i).isSome then none else s.disp) s t := by
  have hends := dataEnds_of_exec hi h
  split at hends
  · next hm => rw [if_pos hm, if_pos hm]; exact hends.frame
  · next hm => rw [if_neg hm, if_neg hm]; exact hends.frame

/-- Settles O48: a MODE command is a data command that ends with the mode state cleared. -/
theorem modeStateDiscarded : Obligations.ModeStateDiscarded := by
  intro i c s t hc h
  have hmode : (modeOf i).isSome = true := by rw [hc]; rfl
  have hframe := dataFrame_of_exec (isDataCommand_of_modeOf hmode) h
  rw [if_pos hmode, if_pos hmode] at hframe
  rw [hframe.mode]
  exact ⟨rfl, rfl, rfl, rfl, hframe.disp⟩

/-- Settles O52: outside OUT a byte is a byte of the windows the host writes. -/
theorem dataCommandFrame : Obligations.DataCommandFrame := by
  intro i s t hi h
  have hframe := dataFrame_of_exec hi h
  refine ⟨fun a ha => ?_, hframe.tab, hframe.key, hframe.regs, hframe.feReady, hframe.keyReady,
    hframe.pending, hframe.rdata, hframe.conf⟩
  have houtside : ¬(outBase ≤ a ∧ a < outBase + s.conf.outcap) := ha
  rw [State.readByte, State.readByte, hframe.conf, hframe.mem, if_neg houtside, if_neg houtside]

/-! ## OUT -/

/-- A MODE command draws its free bytes from where its work finds them. -/
theorem draw_modeCommand {needs : ModeNeeds} {par : Bool} {work : State → State} {s t : State}
    (h : modeCommand needs par work s = .next t) (hwork : (work s).out.draw = s.ext.freeCursor) :
    t.out.draw = s.ext.freeCursor := by
  unfold modeCommand at h
  split at h <;> cases h
  · rfl
  · exact hwork

@[simp] theorem State.finishMode_draw (r : Except ErrCode (List Byte)) (u : State) :
    (u.finishMode r).out.draw = u.ext.freeCursor := by
  cases r <;> rfl

theorem draw_blockCommand {f : List Byte → List Byte} {s t : State}
    (h : blockCommand f s = .next t) : t.out.draw = s.ext.freeCursor := by
  unfold blockCommand at h
  split at h <;> cases h <;> rfl

theorem draw_padCommand {p : Scheme} {s t : State} (h : padCommand p s = .next t) :
    t.out.draw = s.ext.freeCursor := by
  unfold padCommand at h
  split at h <;> cases h <;> rfl

theorem draw_unpadCommand {p : Scheme} {s t : State} (h : unpadCommand p s = .next t) :
    t.out.draw = s.ext.freeCursor := by
  unfold unpadCommand at h
  split at h
  · cases h; rfl
  · split at h <;> cases h <;> rfl

/-- The bytes of OUT that a data command leaves unspecified are the next free bytes (log entry 8). -/
theorem draw_of_exec {i : Instr} {s t : State} (hi : isDataCommand i = true) (h : exec i s = .next t) :
    t.out.draw = s.ext.freeCursor := by
  cases i with
  | blkEnc | blkDec => exact draw_blockCommand h
  | padZero | padAnsi | padPkcs7 | padIso => exact draw_padCommand h
  | unpadZero | unpadAnsi | unpadPkcs7 | unpadIso => exact draw_unpadCommand h
  | ecbEnc par p =>
    rw [exec, execEcbEnc] at h
    exact draw_modeCommand h (by simp)
  | ecbDec par p =>
    rw [exec, execEcbDec] at h
    exact draw_modeCommand h (by simp)
  | ctrEnc par | ctrDec par =>
    simp only [exec, execCtrEnc, execCtrDec] at h
    exact draw_modeCommand h (by simp [State.runCtr])
  | cbcEnc par p | pcbcEnc par p =>
    simp only [exec, execCbcEnc, execPcbcEnc] at h
    exact draw_modeCommand h (by simp [State.padThenRun])
  | cbcDec par p | pcbcDec par p | rdDec par p =>
    simp only [exec, execCbcDec, execPcbcDec, execRdDec] at h
    exact draw_modeCommand h (by simp [State.runThenUnpad])
  | cfbEnc par | cfbDec par | ofbEnc par | ofbDec par =>
    simp only [exec, execCfbEnc, execCfbDec, execOfbEnc, execOfbDec] at h
    exact draw_modeCommand h (by simp [State.runUnpadded])
  | rdEnc par p =>
    rw [exec, execRdEnc] at h
    exact draw_modeCommand h (by simp)
  | _ => cases hi

/-- OUT lists what a data command delivered, and OUTLEN is its length. -/
theorem DataEnds.start_eq {m : ModeState} {d : Option Dispatcher} {s t : State}
    (h : DataEnds m d s t) : t.out.start = t.regs.outlen.toNat := by
  obtain ⟨u, -, -, -, ⟨e, -, rfl⟩ | ⟨r, hr, rfl⟩⟩ := h
  · rfl
  · obtain ⟨-, hcap, hout⟩ := s.conf.capacities
    have hlt : r.length < 2 ^ 32 := by omega
    exact (Nat.mod_eq_of_lt hlt).symm

theorem start_of_exec {i : Instr} {s t : State} (hi : isDataCommand i = true)
    (h : exec i s = .next t) : t.out.start = t.regs.outlen.toNat := by
  have hends := dataEnds_of_exec hi h
  split at hends <;> exact hends.start_eq

theorem State.readByte_out {s : State} {k : Nat} (hk : k < s.conf.outcap) :
    s.readByte (outBase + k) = OutWindow.read s.out k := by
  rw [State.readByte, if_pos (by omega), Nat.add_sub_cancel_left]

/-! ## Which command writes what -/

theorem ControlEnds.out {i : Instr} {s t : State} (h : ControlEnds s i t) :
    t.out = s.out ∧ t.regs.outlen = s.regs.outlen := by
  cases h <;> exact ⟨rfl, rfl⟩

theorem ControlEnds.conf {i : Instr} {s t : State} (h : ControlEnds s i t) : t.conf = s.conf := by
  cases h <;> rfl

/-- Settles O53: OUT from OUTLEN on is drawn from the free bytes, and a command that is no data command
has OUT as it was. -/
theorem outBeyondLength : Obligations.OutBeyondLength := by
  intro i s t h
  refine ⟨fun hi k hlen hk => ?_, fun hi hreset k hk => ?_⟩
  · have hconf := (dataFrame_of_exec hi h).conf
    refine (State.readByte_out (hconf ▸ hk)).trans ?_
    rw [OutWindow.read, start_of_exec hi h, if_neg (Nat.not_lt.2 hlen), draw_of_exec hi h]
  · have hends := controlEnds_of_exec hi hreset h
    obtain ⟨hout, -⟩ := hends.out
    refine (State.readByte_out (hends.conf ▸ hk)).trans ((congrArg (OutWindow.read · k) hout).trans ?_)
    exact (State.readByte_out hk).symm

theorem exec_conf {i : Instr} {s t : State} (h : exec i s = .next t) : t.conf = s.conf := by
  obtain rfl | hreset := eq_or_ne i .sysReset
  · cases h; rfl
  cases hdata : isDataCommand i with
  | true => exact (dataFrame_of_exec hdata h).conf
  | false => exact (controlEnds_of_exec hdata hreset h).conf

/-- Settles O54: a data command keeps to its frame, and every other command writes what its way to end
says. -/
theorem onlyWriters : Obligations.OnlyWriters := by
  intro i s t h
  refine ⟨exec_conf h, fun hreset => ?_⟩
  cases hdata : isDataCommand i with
  | true =>
    obtain ⟨hregs, hfe, hkey, htab, hkeymat, hmem, hmode, hdisp, -⟩ := dataFrame_of_exec hdata h
    refine ⟨fun _ => ⟨htab, by rw [hregs], hfe⟩, fun _ => hkeymat, fun _ _ => hkey,
      fun _ => by rw [hregs], nofun, hmem, by rw [hregs], by rw [hregs], by rw [hregs], by rw [hregs],
      by rw [hregs], by rw [hregs], hmode, hdisp⟩
  | false =>
    have hmode : (modeOf i).isSome = false :=
      Bool.eq_false_iff.2 fun hm => by rw [isDataCommand_of_modeOf hm] at hdata; cases hdata
    have hends := controlEnds_of_exec hdata hreset h
    rw [hmode]
    cases hends with
    | fault i e => simp
    | result hi v => simp [hi, State.fieldResult]
    | feInit g hg => simp
    | feInitFault => simp
    | keySetup hready hlen => simp
    | keySetupFault e => simp [State.endsWith]

/-! ## Every word ends idle (R22, R284) -/

/-- Settles O55: SYS.RESET leaves the reset state, and every other word ends in a completion or a fault,
either of which clears BUSY. -/
theorem everyCommandEndsIdle : Obligations.EveryCommandEndsIdle := by
  intro w s
  obtain rfl | hw := eq_or_ne w 0x01000000
  · exact ⟨s.resetBlock, rfl, rfl⟩
  · obtain ⟨data, unready, hends, -⟩ := ends_runWord hw s
    obtain ⟨t, ht, -⟩ := hends.exists_next
    exact ⟨t, ht, by rw [State.busy, hends.idle ht]; rfl⟩

end Sys2Proof.Machine
end

section
/-! PROOFS over spec/10_state.md section 5: every step keeps a legal state legal (R27, R35 to R45, R69),
and the reset state is legal (R50). -/

namespace Sys2Proof.Machine

/-! ## Reset -/

theorem State.inv_resetBlock {s : State} (hP : s.conf.Legal) : s.resetBlock.Inv := by
  have hmem : s.resetBlock.MemOk := ⟨⟨.nil, nofun⟩, nofun⟩
  have hout : s.resetBlock.OutOk := ⟨⟨.nil, nofun⟩, nofun, Nat.zero_le _, le_rfl⟩
  have hres : s.resetBlock.ResOk := Nat.zero_lt_succ _
  exact ⟨hP, hmem, hout, hres, ⟨rfl, rfl⟩, nofun, .inl rfl, nofun⟩

/-- Settles O60: the default parameters are legal. -/
theorem resetIsLegal : Obligations.ResetIsLegal :=
  State.inv_resetBlock (s := State.reset) default_legal

/-! ## Host accesses -/

/-- RES, POLYA and OUTLEN are the registers the invariant speaks of, and no host write reaches them. -/
theorem State.Inv.writeReg {r : RegName} {v : Word} {s t : State} (h : s.Inv)
    (ht : s.writeReg r v = some t) : t.Inv := by
  obtain ⟨heq, hres, hpolya, houtlen⟩ := writeReg_some ht
  obtain ⟨hP, hmem, hout, hresOk, hmode, hfield, hkey⟩ := h
  rw [heq]
  refine ⟨hP, hmem, ?_, ?_, hmode, ?_, hkey⟩
  · obtain ⟨hwf, hin, hlen, hcap⟩ := hout
    exact ⟨hwf, hin, by rwa [houtlen], hcap⟩
  · rwa [State.ResOk, hres]
  · rwa [State.FieldOk, hpolya]

theorem State.MemOk.write {s : State} (h : s.MemOk) {off : Nat}
    (hplace : placeAt s.conf off = .key ∨ placeAt s.conf off = .iv ∨ placeAt s.conf off = .inWin)
    (b : Byte) : State.MemOk { s with mem := Memory.write s.mem off b } := by
  obtain ⟨hwf, hin⟩ := h
  refine ⟨Memory.wf_write hwf off b, fun c hc => ?_⟩
  obtain ⟨rfl, -⟩ | hc := Memory.mem_write hc
  · exact hplace
  · exact hin c hc

theorem State.Inv.hostAccess {a : Access} {s t : State} (h : s.Inv) (ht : hostAccess a s = .next t) :
    t.Inv ∧ t.conf = s.conf := by
  obtain ⟨v, rfl⟩ | ⟨r, v, hw⟩ | ⟨off, b, hplace, rfl⟩ := hostAccess_next ht
  · exact ⟨h, rfl⟩
  · obtain ⟨heq, -⟩ := writeReg_some hw
    exact ⟨h.writeReg hw, by rw [heq]⟩
  · obtain ⟨hP, hmem, hrest⟩ := h
    exact ⟨⟨hP, hmem.write hplace b, hrest⟩, rfl⟩

/-! ## Data commands -/

theorem State.Inv.of_transient {s u : State} (h : s.Inv) (hu : Transient s u) (hmode : u.ModeOk) :
    u.Inv := by
  obtain ⟨hP, hmem, hout, hres, -, hfield, hkey⟩ := h
  refine ⟨hu.conf ▸ hP, ?_, ?_, ?_, hmode, ?_, ?_⟩
  · rwa [State.MemOk, hu.mem, hu.conf]
  · rwa [State.OutOk, hu.out, hu.regs, hu.conf]
  · rwa [State.ResOk, hu.regs]
  · rwa [State.FieldOk, hu.status, hu.conf, hu.regs, hu.tab]
  · rwa [State.KeyOk, hu.status, hu.conf, hu.key, hu.tab]

theorem State.Inv.setOut {u : State} (h : u.Inv) {r : List Byte} (hr : r.length ≤ u.conf.outcap) :
    (u.setOut r).Inv := by
  obtain ⟨hP, hmem, -, hrest⟩ := h
  obtain ⟨-, hcap, hout⟩ := u.conf.capacities
  have hlt : r.length < 2 ^ 32 := by omega
  refine ⟨hP, hmem, ⟨Memory.wf_ofBytes outBase r, fun c hc => ?_, ?_, hr⟩, hrest⟩
  · obtain ⟨hlo, hhi, -⟩ := Memory.mem_ofBytes hc
    exact ⟨hlo, hhi⟩
  · exact (Nat.mod_eq_of_lt hlt).le

/-- Neither ERR, FLT nor the word in execution is part of the invariant, so a data command needs it of
the state with the new OUT only. -/
theorem State.Inv.dataEnds {m : ModeState} {d : Option Dispatcher} {s t : State} (h : s.Inv)
    (hends : DataEnds m d s t) (hm : m = ModeState.cleared) (hd : d = none) : t.Inv := by
  obtain ⟨u, hu, hmode, hdisp, ⟨e, -, rfl⟩ | ⟨r, hr, rfl⟩⟩ := hends
  all_goals have hInv := h.of_transient hu ⟨hmode.trans hm, hdisp.trans hd⟩
  · exact hInv.setOut (r := []) (Nat.zero_le _)
  · exact hInv.setOut (hu.conf.symm ▸ hr)

theorem State.Inv.exec_data {i : Instr} {s t : State} (h : s.Inv) (hi : isDataCommand i = true)
    (ht : exec i s = .next t) : t.Inv := by
  have hends := dataEnds_of_exec hi ht
  split at hends
  · exact h.dataEnds hends rfl rfl
  · obtain ⟨-, -, -, -, ⟨hmode, hdisp⟩, -, -⟩ := id h
    exact h.dataEnds hends hmode hdisp

/-! ## The other commands -/

/-- The key material KEY.SETUP writes is what R141 to R148 compute from its own N, ME and MO. -/
theorem keyOk_setupKey {s : State} (hlen : s.regs.keylen.toNat ∈ [16, 24, 32]) {st : Status}
    (hst : st.feReady = true) :
    State.KeyOk { s with key := setupKey s.conf.cipher s.tab s.keyBytes, status := st } := by
  obtain ⟨n, hkeylen, hn⟩ := exists_keyWords_of_legal hlen
  have hkey : s.keyBytes.length = 8 * n := s.length_keyBytes.trans hkeylen
  have hN : n = 2 ∨ n = 3 ∨ n = 4 := by
    simp only [hkeylen, List.mem_cons, List.not_mem_nil, or_false] at hlen
    omega
  simp only [State.KeyOk, setupKey_n _ _ hkey, setupKey_take_me _ _ hkey hn,
    setupKey_take_mo _ _ hkey hn]
  exact ⟨.inr hN, fun _ => ⟨hst, by omega, by rw [setupKey_eq _ _ hkey], by rw [setupKey_eq _ _ hkey]⟩⟩

theorem State.Inv.controlEnds {i : Instr} {s t : State} (h : s.Inv) (hends : ControlEnds s i t) :
    t.Inv := by
  obtain ⟨hP, hmem, hout, hres, hmode, hfield, hkey⟩ := id h
  obtain ⟨hn, -⟩ := id hkey
  cases hends with
  | fault i e => exact h
  | result hi v =>
    refine ⟨hP, hmem, hout, ?_, hmode, hfield, hkey⟩
    have hv := v.isLt
    simp only [State.ResOk, State.fieldResult, BitVec.toNat_setWidth]
    omega
  | feInit g hg =>
    obtain ⟨-, -, horder⟩ := hP.order hg
    have hpow := powers_buildTables horder s.tab
    refine ⟨hP, hmem, hout, hres, hmode, fun _ => ?_, hn, nofun⟩
    simp only [hg]
    exact ⟨hpow.expOk, hpow.logOk⟩
  | feInitFault => exact ⟨hP, hmem, hout, hres, hmode, nofun, hn, nofun⟩
  | keySetup hready hlen =>
    exact ⟨hP, hmem, hout, hres, hmode, hfield, keyOk_setupKey hlen hready⟩
  | keySetupFault e => exact ⟨hP, hmem, hout, hres, hmode, hfield, hn, nofun⟩

theorem State.Inv.exec {i : Instr} {s t : State} (h : s.Inv) (ht : exec i s = .next t) : t.Inv := by
  obtain rfl | hreset := eq_or_ne i .sysReset
  · obtain ⟨hP, -⟩ := h
    cases ht
    exact State.inv_resetBlock hP
  cases hdata : isDataCommand i with
  | true => exact h.exec_data hdata ht
  | false => exact h.controlEnds (controlEnds_of_exec hdata hreset ht)

/-! ## Every step -/

theorem State.Inv.sequencerStep {s t : State} (h : s.Inv) (ht : sequencerStep s = .next t) :
    t.Inv ∧ t.conf = s.conf := by
  obtain rfl | rfl | ⟨i, hi⟩ := sequencerStep_next ht
  · exact ⟨h, rfl⟩
  · exact ⟨h, rfl⟩
  · exact ⟨h.exec hi, exec_conf hi⟩

/-- Settles O59: an event consumed is no part of the invariant, and each of the three kinds of step keeps
it. -/
theorem stepKeepsInvariant : Obligations.StepKeepsInvariant := by
  intro s t h ht
  obtain ⟨es, hseq⟩ | ⟨a, es, hacc⟩ | ⟨es, rfl⟩ := step_next ht
  · exact State.Inv.sequencerStep (s := s.withPending es) h hseq
  · exact State.Inv.hostAccess (s := s.withPending es) h hacc
  · obtain ⟨hP, -⟩ := h
    exact ⟨State.inv_resetBlock (s := s.withPending es) hP, rfl⟩

end Sys2Proof.Machine
end

section
/-! PROOFS over spec/10_state.md and spec/20_memory.md: what one step is, and what a host access reads and
stores (R22 to R24, R44, R60 to R66). -/

namespace Sys2Proof.Machine

/-! ## Steps (R22, R23, R93) -/

theorem step_of_no_event {s : State} (h : s.ext.pending = []) : step s = sequencerStep s := by
  rw [step, h]

theorem step_of_sequencer {s : State} {es : List Event} (h : s.ext.pending = .sequencer :: es) :
    step s = sequencerStep (s.withPending es) := by
  rw [step, h]

theorem step_of_access {s : State} {a : Access} {es : List Event}
    (h : s.ext.pending = .access a :: es) : step s = busAccess a (s.withPending es) := by
  rw [step, h]

theorem sequencerStep_of_some {s : State} {w : Word} (h : s.cmd = some w) :
    sequencerStep s = runWord w s := by
  rw [sequencerStep, h]

theorem sequencerStep_of_none {s : State} (h : s.cmd = none) : sequencerStep s = .next s := by
  rw [sequencerStep, h]

theorem busAccess_of_lt {a : Access} {s : State} (h : accessOffset a < s.conf.coreBase) :
    busAccess a s = .fault (.belowBase (accessOffset a)) :=
  if_pos h

/-- Settles O7: with each kind of event, or none, in front, `step` is the sequencer's turn or the access,
on the state with the event consumed. -/
theorem stepRunsDecoded : Obligations.StepRunsDecoded := by
  refine ⟨fun w s hw => ⟨fun hp => ?_, fun es hp => ?_⟩,
    fun w s => ⟨fun i hi => runWord_of_decode_ok hi s, fun e he => runWord_of_decode_error he s⟩,
    fun s hnone => ⟨fun hp => ?_, fun es hp => ?_⟩,
    fun a s es => ⟨fun hp => ?_, fun hp hlt => ?_⟩⟩
  · rw [step_of_no_event hp, sequencerStep_of_some hw]
  · rw [step_of_sequencer hp, sequencerStep_of_some (s := s.withPending es) hw]
  · rw [step_of_no_event hp, sequencerStep_of_none hnone]
  · rw [step_of_sequencer hp, sequencerStep_of_none (s := s.withPending es) hnone]
  · rw [step_of_access hp]
    exact busAccess_coreBase a (s.withPending es)
  · rw [step_of_access hp]
    exact busAccess_of_lt hlt

/-! ## Accesses while BUSY is 0 (R66) -/

section Idle

variable {s : State} (h : s.busy = false)
include h

theorem hostAccess_readWord_of_idle (off : Nat) :
    hostAccess (.readWord off) s = hostReadWord off s := by
  simp [hostAccess, h]

theorem hostAccess_readByte_of_idle (off : Nat) :
    hostAccess (.readByte off) s = hostReadByte off s := by
  simp [hostAccess, h]

theorem hostAccess_writeWord_of_idle (off : Nat) (v : Word) :
    hostAccess (.writeWord off v) s = hostWriteWord off v s := by
  simp [hostAccess, h]

theorem hostAccess_writeByte_of_idle (off : Nat) (b : Byte) :
    hostAccess (.writeByte off b) s = hostWriteByte off b s := by
  simp [hostAccess, h]

/-- A four-byte read at a register's offset returns the register. -/
theorem hostAccess_readWord {r : RegName} {v : Word} (hv : s.readReg r = some v) :
    hostAccess (.readWord r.offset) s = .next (s.withRead v) := by
  rw [hostAccess_readWord_of_idle h]
  exact hostReadWord_eq_next_iff.2 ⟨r, v, placeAt_offset s.conf r, hv, rfl⟩

/-- A four-byte write at a register's offset is the write of the register. -/
theorem hostAccess_writeWord {r : RegName} {v : Word} {t : State} (ht : s.writeReg r v = some t) :
    hostAccess (.writeWord r.offset v) s = .next t := by
  rw [hostAccess_writeWord_of_idle h]
  exact hostWriteWord_eq_next_iff.2 ⟨r, placeAt_offset s.conf r, ht⟩

theorem hostAccess_readWord_cmd :
    hostAccess (.readWord 0x000) s = .refused (.readOfWriteOnly 0x000) := by
  rw [hostAccess_readWord_of_idle h]
  rfl

theorem hostAccess_readByte {off : Nat} (hoff : (Access.readByte off).legalIdle s.conf) :
    hostAccess (.readByte off) s = .next (s.withRead ((s.readByte off).setWidth 32)) := by
  obtain ⟨t, ht⟩ := exists_hostReadByte_next_iff.2 hoff
  obtain ⟨-, rfl⟩ := hostReadByte_eq_next_iff.1 ht
  rwa [hostAccess_readByte_of_idle h]

theorem hostAccess_writeByte {off : Nat} {b : Byte} (hoff : (Access.writeByte off b).legalIdle s.conf) :
    hostAccess (.writeByte off b) s = .next { s with mem := Memory.write s.mem off b } := by
  obtain ⟨t, ht⟩ := exists_hostWriteByte_next_iff.2 hoff
  obtain ⟨-, rfl⟩ := hostWriteByte_eq_next_iff.1 ht
  rwa [hostAccess_writeByte_of_idle h]

end Idle

/-- Settles O8: CMD is the register at offset 0, every word ends idle, and CMD reads as nothing. -/
theorem cmdWriteIssues : Obligations.CmdWriteIssues := by
  intro w s h
  obtain ⟨t, ht, hidle⟩ := everyCommandEndsIdle w { s with cmd := some w }
  exact ⟨hostAccess_writeWord h (r := .cmd) rfl, rfl,
    ⟨t, ht, Option.isSome_eq_false_iff.1 hidle |> Option.isNone_iff_eq_none.1⟩,
    hostAccess_readWord_cmd h⟩

/-- Settles O13: each register is read at its offset, and a byte where its window lies. -/
theorem readsReturn : Obligations.ReadsReturn := by
  intro s h
  have hreg (r : RegName) (v : Word) (hv : s.readReg r = some v) := hostAccess_readWord h hv
  exact ⟨⟨hreg .res _ rfl, hreg .poly _ rfl, hreg .polya _ rfl, hreg .threads _ rfl, hreg .seg _ rfl,
    hreg .keylen _ rfl, hreg .ivlen _ rfl, hreg .inlen _ rfl, hreg .outlen _ rfl⟩,
    fun off => hostAccess_readByte h⟩

/-- Settles O12: a register write is `State.writeReg`, and a byte is written in KEY, IV or IN, none of
which overlaps OUT. -/
theorem writesOnlyStore : Obligations.WritesOnlyStore := by
  intro s h
  have hreg (r : RegName) (v : Word) (t : State) (ht : s.writeReg r v = some t) :=
    hostAccess_writeWord h ht
  refine ⟨fun v => ⟨hreg .poly v _ rfl, hreg .threads v _ rfl, hreg .seg v _ rfl, hreg .keylen v _ rfl,
    hreg .ivlen v _ rfl, hreg .inlen v _ rfl⟩, fun off b hmem hoff => ?_⟩
  refine ⟨_, hostAccess_writeByte h hoff, rfl, fun a => ?_⟩
  obtain ⟨hwf, -⟩ := hmem
  obtain ⟨-, hcap, hout⟩ := s.conf.capacities
  have hbelow : off < outBase := by
    simp only [Access.legalIdle] at hoff
    unfold outBase
    omega
  simp only [State.readByte, Memory.read_write hwf]
  by_cases ha : outBase ≤ a ∧ a < outBase + s.conf.outcap
  · rw [if_pos ha, if_pos ha, if_neg (by omega)]
  · rw [if_neg ha, if_neg ha]

/-! ## Reads change nothing (R65) -/

/-- No register reads as what the read before it returned. -/
theorem State.readReg_withRead (r : RegName) (v : Word) (s : State) :
    (s.withRead v).readReg r = s.readReg r := by
  cases r <;> rfl

theorem hostReadWord_idempotent {off : Nat} {s t : State} (h : hostReadWord off s = .next t) :
    (∃ v, t = s.withRead v) ∧ hostReadWord off t = .next t := by
  obtain ⟨r, v, hplace, hv, rfl⟩ := hostReadWord_eq_next_iff.1 h
  exact ⟨⟨v, rfl⟩,
    hostReadWord_eq_next_iff.2 ⟨r, v, hplace, (State.readReg_withRead ..).trans hv, rfl⟩⟩

theorem hostReadByte_idempotent {off : Nat} {s t : State} (h : hostReadByte off s = .next t) :
    (∃ v, t = s.withRead v) ∧ hostReadByte off t = .next t := by
  obtain ⟨hplace, rfl⟩ := hostReadByte_eq_next_iff.1 h
  exact ⟨⟨_, rfl⟩, hostReadByte_eq_next_iff.2 ⟨hplace, rfl⟩⟩

/-- Any access but a write, while BUSY is 0 or 1. -/
theorem hostAccess_read_idempotent {a : Access} {s t : State} (h : hostAccess a s = .next t)
    (hword : ∀ off v, a ≠ .writeWord off v) (hbyte : ∀ off b, a ≠ .writeByte off b) :
    (∃ v, t = s.withRead v) ∧ hostAccess a t = .next t := by
  unfold hostAccess at h ⊢
  split at h
  · cases h
  next hallowed =>
  cases a with
  | readWord off =>
    obtain ⟨⟨v, rfl⟩, hagain⟩ := hostReadWord_idempotent h
    exact ⟨⟨v, rfl⟩, (if_neg hallowed).trans hagain⟩
  | readByte off =>
    obtain ⟨⟨v, rfl⟩, hagain⟩ := hostReadByte_idempotent h
    exact ⟨⟨v, rfl⟩, (if_neg hallowed).trans hagain⟩
  | writeWord off v => exact absurd rfl (hword off v)
  | writeByte off b => exact absurd rfl (hbyte off b)
  | readOther off n | writeOther off n => exact absurd h hostOther_ne_next

/-- Settles O11: a read that has a step sets the number read and nothing else. -/
theorem readsHaveNoEffect : Obligations.ReadsHaveNoEffect := by
  intro a s t h hword hbyte
  obtain ⟨⟨v, rfl⟩, hagain⟩ := hostAccess_read_idempotent h hword hbyte
  exact ⟨rfl, rfl, hagain⟩

/-! ## STATUS (R24, R250) -/

theorem getLsbD_append_ofBool {w : Nat} (x : BitVec w) (b : Bool) (i : Nat) :
    (x ++ BitVec.ofBool b).getLsbD i = if i < 1 then b else x.getLsbD (i - 1) := by
  rw [BitVec.getLsbD_append]
  by_cases hi : i < 1
  · obtain rfl : i = 0 := by omega
    simp
  · simp [hi]

theorem State.getLsbD_statusWord (s : State) (i : Nat) :
    s.statusWord.getLsbD i =
      if i < 1 then s.busy else if i - 1 < 1 then s.status.feReady
      else if i - 1 - 1 < 1 then s.status.keyReady else if i - 1 - 1 - 1 < 1 then s.status.flt
      else (0#24 ++ s.status.err.code).getLsbD (i - 1 - 1 - 1 - 1) := by
  simp only [← getLsbD_append_ofBool]
  rfl

theorem State.extract_err_statusWord (s : State) :
    s.statusWord.extractLsb' 4 4 = s.status.err.code := by
  ext i hi
  rw [BitVec.getElem_extractLsb', State.getLsbD_statusWord, if_neg (by omega), if_neg (by omega),
    if_neg (by omega), if_neg (by omega), BitVec.getLsbD_append, if_pos (by omega),
    ← BitVec.getLsbD_eq_getElem]
  congr 1
  omega

theorem State.extract_high_statusWord (s : State) : s.statusWord.extractLsb' 8 24 = 0 := by
  ext i hi
  rw [BitVec.getElem_extractLsb', State.getLsbD_statusWord, if_neg (by omega), if_neg (by omega),
    if_neg (by omega), if_neg (by omega), BitVec.getLsbD_append, if_neg (by omega)]
  simp

/-- Settles O10: bit by bit, and code by code. -/
theorem statusLayout : Obligations.StatusLayout := by
  intro s
  refine ⟨s.getLsbD_statusWord 0, s.getLsbD_statusWord 1, s.getLsbD_statusWord 2,
    s.getLsbD_statusWord 3, fun c hc herr => ?_, s.extract_high_statusWord, hostAccess_statusRead s⟩
  rw [State.extract_err_statusWord, herr]
  simp only [List.mem_cons, List.not_mem_nil, or_false] at hc
  obtain rfl | rfl | rfl | rfl | rfl | rfl | rfl | rfl | rfl | rfl := hc <;> rfl

end Sys2Proof.Machine
end

section
/-! PROOFS over spec/40_field_engine.md: the table laws and field axioms of every legal state with FE_READY
(R123, R126, R127). -/

namespace Sys2Proof.Machine

/-! ## Laws of multiply-reduce with an element of order 255 -/

section Order

variable {g : Byte} {p : BitVec 9} (h : hasOrder255 g p)
include h

/-- A power of the generator times a power of the generator is never 0. -/
theorem pmulred_ne_zero {a b : Byte} (ha : a ≠ 0) (hb : b ≠ 0) : pmulred a b p ≠ 0 := by
  obtain ⟨i, -, rfl⟩ := (exists_polyPow_iff h a).2 ha
  obtain ⟨j, -, rfl⟩ := (exists_polyPow_iff h b).2 hb
  rw [← polyPow_add, ← polyPow_mod h]
  exact polyPow_ne_zero h (Nat.mod_lt _ (by decide))

theorem pmulred_right_cancel {a b c : Byte} (hc : c ≠ 0) (he : pmulred a c p = pmulred b c p) :
    a = b := by
  have hzero : pmulred (a ^^^ b) c p = 0 := by
    rw [pmulred_xor_left, he]
    exact BitVec.xor_self
  by_contra hne
  exact pmulred_ne_zero h (fun hx => hne (BitVec.xor_eq_zero_iff.1 hx)) hc hzero

end Order

/-! ## The table laws (R127) -/

section Powers

variable {T : Tables} {p : BitVec 9} {g : Byte} (P : T.Powers p g)
include P

theorem Tables.Powers.expAt_logAt {x : Byte} (hx : x ≠ 0) : expAt T (logAt T x) = x := by
  obtain ⟨hlt, hlog⟩ := P.exp_log hx
  rw [P.exp _ (by omega), hlog]

theorem Tables.Powers.logAt_expAt {i : Nat} (hi : i < 255) : logAt T (expAt T i) = i := by
  rw [P.exp _ (by omega), P.log i hi]

theorem Tables.Powers.expAt_add_period {i : Nat} (hi : i + 255 < 512) :
    expAt T (i + 255) = expAt T i := by
  rw [P.exp _ hi, P.exp _ (by omega), polyPow_add, P.order.1, pmulred_one_right]

theorem Tables.Powers.expAt_zero : expAt T 0 = 1 := P.exp 0 (by omega)

theorem Tables.Powers.expAt_one : expAt T 1 = g :=
  (P.exp 1 (by omega)).trans (pmulred_one_left ..)

theorem Tables.Powers.expAt_ne_zero {i : Nat} (hi : i < 512) : expAt T i ≠ 0 := by
  rw [P.exp i hi, ← polyPow_mod P.order]
  exact polyPow_ne_zero P.order (Nat.mod_lt _ (by decide))

/-- EXP[0..254] lists every non-zero byte once. -/
theorem Tables.Powers.existsUnique_expAt {x : Byte} (hx : x ≠ 0) :
    ∃! i, i < 255 ∧ expAt T i = x := by
  obtain ⟨hlt, -⟩ := P.exp_log hx
  refine ⟨logAt T x, ⟨hlt, P.expAt_logAt hx⟩, fun i hi => ?_⟩
  obtain ⟨hi, rfl⟩ := hi
  exact (P.logAt_expAt hi).symm

/-- LOG is a bijection of the non-zero bytes onto 0 to 254. -/
theorem Tables.Powers.existsUnique_logAt {i : Nat} (hi : i < 255) :
    ∃! x : Byte, x ≠ 0 ∧ logAt T x = i := by
  refine ⟨expAt T i, ⟨P.expAt_ne_zero (by omega), P.logAt_expAt hi⟩, fun x hx => ?_⟩
  obtain ⟨hx, rfl⟩ := hx
  exact (P.expAt_logAt hx).symm

/-! ## The field axioms (R126) -/

theorem Tables.Powers.exists_gfInv {a : Byte} (ha : a ≠ 0) :
    ∃ v, gfInv T a = .ok v ∧ gfMul T a v = 1 :=
  ⟨_, gfInv_nonzero T ha, by rw [P.gfMul_eq, P.mul_inv ha]⟩

theorem Tables.Powers.gfMul_comm (a b : Byte) : gfMul T a b = gfMul T b a := by
  rw [P.gfMul_eq, P.gfMul_eq, pmulred_comm]

/-- The quotient is the one byte whose product with the divisor is the dividend. -/
theorem Tables.Powers.gfDiv_gfMul (a : Byte) {b : Byte} (hb : b ≠ 0) :
    gfDiv T (gfMul T a b) b = .ok a := by
  obtain ⟨q, hq, hmul⟩ := P.gfDiv_ok (gfMul T a b) hb
  rw [P.gfMul_eq] at hmul
  rw [hq, pmulred_right_cancel P.order hb hmul]

end Powers

/-! ## The statements -/

theorem State.Inv.powers {s : State} (h : s.Inv) (hready : s.status.feReady = true) :
    ∃ g, s.conf.genOf s.regs.polya = some g ∧ s.tab.Powers (s.regs.polya.setWidth 9) g := by
  obtain ⟨hP, -, -, -, -, hfield, -⟩ := h
  exact hfield.powers hP hready

/-- Settles O24: the tables of a legal state hold the powers of a generator. -/
theorem tablesAgreeWithMultiplyReduce : Obligations.TablesAgreeWithMultiplyReduce := by
  intro s h hready a b
  obtain ⟨g, -, P⟩ := h.powers hready
  exact P.gfMul_eq a b

/-- Settles O25: inverse and quotient are found among the exponents. -/
theorem fieldAxioms : Obligations.FieldAxioms := by
  intro s h hready
  obtain ⟨g, -, P⟩ := h.powers hready
  exact ⟨fun a => P.exists_gfInv, P.gfMul_comm, fun a b => P.gfDiv_gfMul a⟩

/-- Settles O26: EXP and LOG are the powers of the generator and their exponents. -/
theorem tableLaws : Obligations.TableLaws := by
  intro s h hready
  obtain ⟨g, hg, P⟩ := h.powers hready
  have h255 : expAt s.tab 255 = expAt s.tab 0 := P.expAt_add_period (i := 0) (by omega)
  have h510 : expAt s.tab 510 = expAt s.tab 255 := P.expAt_add_period (i := 255) (by omega)
  have h256 : expAt s.tab 256 = expAt s.tab 1 := P.expAt_add_period (i := 1) (by omega)
  have h511 : expAt s.tab 511 = expAt s.tab 256 := P.expAt_add_period (i := 256) (by omega)
  refine ⟨fun x => P.expAt_logAt, fun i hlo hhi => ?_, ?_, ?_, fun x => P.existsUnique_expAt, ?_,
    P.logAt_expAt (by omega), fun x hx => (P.exp_log hx).1, fun i => P.existsUnique_logAt,
    fun i => P.expAt_ne_zero⟩
  · rw [← P.expAt_add_period (i := i - 255) (by omega), Nat.sub_add_cancel hlo]
  · rw [h510, h255, P.expAt_zero]
    exact ⟨rfl, rfl, rfl⟩
  · rw [h511, h256, P.expAt_one, hg]
    exact ⟨rfl, rfl, rfl⟩
  · rw [← P.expAt_zero, P.logAt_expAt (by omega)]

end Sys2Proof.Machine
end

section
/-! PROOFS over spec/40_field_engine.md section 2: the allow-list and its generators (R114, R115). -/

namespace Sys2Proof.Machine

/-! ## Multiply-reduce is the product of polynomials, reduced (R110, R112) -/

/-- The `n` lowest bits of a polynomial, reduced modulo `p`: bit `k` counts as the `k`-fold doubling
of 1. -/
def reduceBelow (p : BitVec 9) (v : BitVec 16) : Nat → Byte
  | 0 => 0
  | n + 1 => reduceBelow p v n ^^^ if v.getLsbD n then (fun v => xtime v p)^[n] 1 else 0

/-- A polynomial of degree below 16, reduced modulo `p`. -/
def reduce (p : BitVec 9) (v : BitVec 16) : Byte := reduceBelow p v 16

theorem reduceBelow_xor (p : BitVec 9) (v w : BitVec 16) (n : Nat) :
    reduceBelow p (v ^^^ w) n = reduceBelow p v n ^^^ reduceBelow p w n := by
  induction n with
  | zero => simp [reduceBelow]
  | succ n ih =>
    rw [reduceBelow, reduceBelow, reduceBelow, ih, byte_xor_swap, BitVec.getLsbD_xor]
    cases v.getLsbD n <;> cases w.getLsbD n <;> simp

theorem reduce_xor (p : BitVec 9) (v w : BitVec 16) : reduce p (v ^^^ w) = reduce p v ^^^ reduce p w :=
  reduceBelow_xor p v w 16

theorem reduce_bit (p : BitVec 9) {k : Nat} (hk : k < 16) :
    reduce p (1#16 <<< k) = (fun v => xtime v p)^[k] 1 := by
  interval_cases k <;> simp [reduce, reduceBelow]

/-- A shifted byte reduces to the repeated doubling of the byte. -/
theorem reduce_shift (p : BitVec 9) {j : Nat} (hj : j < 8) (a : Byte) :
    reduce p (a.setWidth 16 <<< j) = (fun v => xtime v p)^[j] a := by
  rw [← pmulred_bit a p hj]
  refine linear_ext (f := fun a => reduce p (a.setWidth 16 <<< j))
    (g := fun a => pmulred a (1#8 <<< j) p)
    (fun a b => by simp only [BitVec.setWidth_xor, BitVec.shiftLeft_xor_distrib, reduce_xor])
    (fun _ _ => pmulred_xor_left ..) (fun i hi => ?_) a
  have hbit : (1#8 <<< i).setWidth 16 <<< j = 1#16 <<< (j + i) := by
    interval_cases i <;> interval_cases j <;> rfl
  simp only [hbit, reduce_bit p (show j + i < 16 by omega), pmulred_bits p hi hj]

/-- The sum of the shifts of `a` for the bits below `n` of `b`. -/
def polyMulBelow (a b : Byte) (n : Nat) : BitVec 16 :=
  (List.range n).foldl (fun r i => if b.getLsbD i then r ^^^ (a.setWidth 16 <<< i) else r) 0

theorem polyMulBelow_succ (a b : Byte) (n : Nat) :
    polyMulBelow a b (n + 1) =
      polyMulBelow a b n ^^^ if b.getLsbD n then a.setWidth 16 <<< n else 0 := by
  rw [polyMulBelow, List.range_succ, List.foldl_append]
  simp only [List.foldl_cons, List.foldl_nil]
  split
  · rfl
  · exact BitVec.xor_zero.symm

theorem polyMulBelow_xor_right (a b c : Byte) (n : Nat) :
    polyMulBelow a (b ^^^ c) n = polyMulBelow a b n ^^^ polyMulBelow a c n := by
  induction n with
  | zero => simp [polyMulBelow]
  | succ n ih =>
    have swap (x y u v : BitVec 16) : (x ^^^ y) ^^^ (u ^^^ v) = (x ^^^ u) ^^^ (y ^^^ v) := by ac_rfl
    rw [polyMulBelow_succ, polyMulBelow_succ, polyMulBelow_succ, ih, swap, BitVec.getLsbD_xor]
    cases b.getLsbD n <;> cases c.getLsbD n <;> simp

theorem polyMul_xor_right (a b c : Byte) : polyMul a (b ^^^ c) = polyMul a b ^^^ polyMul a c :=
  polyMulBelow_xor_right a b c 8

theorem polyMul_zero_left (b : Byte) : polyMul 0 b = 0 := by
  simp [polyMul]

theorem polyMul_bit (a : Byte) {j : Nat} (hj : j < 8) :
    polyMul a (1#8 <<< j) = a.setWidth 16 <<< j := by
  interval_cases j <;> simp [polyMul, List.range_succ]

theorem reduce_polyMul (p : BitVec 9) (a b : Byte) : reduce p (polyMul a b) = pmulred a b p :=
  linear_ext (f := fun b => reduce p (polyMul a b)) (g := fun b => pmulred a b p)
    (fun _ _ => by simp only [polyMul_xor_right, reduce_xor]) (fun _ _ => pmulred_xor_right ..)
    (fun j hj => by simp only [polyMul_bit a hj, reduce_shift p hj, pmulred_bit a p hj]) b

/-- A modulus of degree 8 reduces to 0. -/
theorem reduce_self {p : BitVec 9} (hp : p.getLsbD 8 = true) : reduce p (p.setWidth 16) = 0 := by
  have hsplit : p.setWidth 16 = (p.setWidth 8).setWidth 16 <<< 0 ^^^ 1#16 <<< 8 := by
    revert p
    decide +kernel
  have htop : (fun v => xtime v p)^[8] 1 = p.setWidth 8 := by
    rw [Function.iterate_succ_apply', ← bit_eq_iterate p (by decide), xtime_eq]
    simp
  rw [hsplit, reduce_xor, reduce_shift p (by decide), reduce_bit p (by decide), htop]
  exact BitVec.xor_self

/-- No product of bytes other than 0 is the modulus: reduced it would be 0 (R114). -/
theorem irreducible_of_hasOrder255 {g : Byte} {p : BitVec 9} (hp : p.getLsbD 8 = true)
    (h : hasOrder255 g p) : irreducible p := by
  refine ⟨hp, fun a b hprod => ?_⟩
  have hzero : pmulred a b p = 0 := by rw [← reduce_polyMul, hprod, reduce_self hp]
  have hne : p.setWidth 16 ≠ 0 := fun h0 => by
    have hbit : (p.setWidth 16).getLsbD 8 = p.getLsbD 8 := by simp
    rw [h0, hp] at hbit
    cases hbit
  have ha : a ≠ 0 := by
    rintro rfl
    exact hne (hprod.symm.trans (polyMul_zero_left b))
  have hb : b ≠ 0 := by
    rintro rfl
    exact hne (hprod.symm.trans rfl)
  exact pmulred_ne_zero h ha hb hzero

/-- Members of a legal allow-list have degree 8. -/
theorem Params.Legal.irreducible {P : Params} (hP : P.Legal) {p : Word} {g : Byte}
    (h : P.genOf p = some g) : irreducible (p.setWidth 9) := by
  obtain ⟨hlo, hhi, horder⟩ := hP.order h
  refine irreducible_of_hasOrder255 ?_ horder
  have hbit : p.toNat.testBit 8 = true := by
    rw [Nat.testBit_eq_decide_div_mod_eq, decide_eq_true_iff]
    omega
  rw [BitVec.getLsbD_setWidth, BitVec.getLsbD, hbit]
  rfl

/-! ## Every other polynomial of degree 8 is a product -/

/-- The quotient of `v` by the polynomial `a` of degree `d`, bits `n - 1` to 0 of it. -/
def quotient (a : Byte) (d : Nat) : Nat → BitVec 16 → Byte
  | 0, _ => 0
  | n + 1, v =>
    if v.getLsbD (d + n) then 1#8 <<< n ^^^ quotient a d n (v ^^^ a.setWidth 16 <<< n)
    else quotient a d n v

/-- `p` is a polynomial of degree 1 to 4 times its quotient. -/
def hasSmallFactor (p : Nat) : Bool :=
  [1, 2, 3, 4].any fun d => (List.range (2 ^ d)).any fun i =>
    let a := BitVec.ofNat 8 (2 ^ d + i)
    polyMul a (quotient a d (9 - d) (BitVec.ofNat 16 p)) == BitVec.ofNat 16 p

set_option Elab.async false in
theorem listed_or_hasSmallFactor : (List.range 256).all (fun k =>
    (polyTable.lookup (256 + k)).isSome || hasSmallFactor (256 + k)) = true := by decide +kernel

theorem not_irreducible_of_hasSmallFactor {p : BitVec 9} {n : Nat} (hn : p.setWidth 16 = BitVec.ofNat 16 n)
    (h : hasSmallFactor n = true) : ¬irreducible p := by
  simp only [hasSmallFactor, List.any_eq_true, beq_iff_eq] at h
  obtain ⟨d, -, i, -, hprod⟩ := h
  rintro ⟨-, hirr⟩
  exact hirr _ _ (hprod.trans hn.symm)

theorem genOf_default_of_irreducible {p : Word} (hlt : p.toNat < 512) (h : irreducible (p.setWidth 9)) :
    (Params.default.genOf p).isSome = true := by
  obtain ⟨hbit, -⟩ := id h
  have hlo : 256 ≤ p.toNat := by
    by_contra hsmall
    have hfalse : p.toNat.testBit 8 = false := Nat.testBit_lt_two_pow (by omega)
    rw [BitVec.getLsbD_setWidth, BitVec.getLsbD, hfalse] at hbit
    cases hbit
  obtain ⟨k, hk⟩ := Nat.exists_eq_add_of_le hlo
  have hall := List.all_eq_true.1 listed_or_hasSmallFactor k (List.mem_range.2 (by omega))
  rw [Bool.or_eq_true, ← hk] at hall
  obtain hlisted | hfactor := hall
  · exact hlisted
  · refine absurd h (not_irreducible_of_hasSmallFactor ?_ hfactor)
    refine BitVec.eq_of_toNat_eq ?_
    simp
    omega

/-! ## The default generators are the least ones (R115) -/

/-- The power of `g` whose exponent has these binary digits, the lowest first, by repeated squaring. -/
def squarePow (g : Byte) (p : BitVec 9) : List Bool → Byte
  | [] => 1
  | b :: bs =>
    let r := squarePow g p bs
    if b then pmulred (pmulred r r p) g p else pmulred r r p

theorem squarePow_eq (g : Byte) (p : BitVec 9) (bs : List Bool) :
    squarePow g p bs = polyPow g p (bs.foldr Nat.bit 0) := by
  induction bs with
  | nil => rfl
  | cons b bs ih =>
    rw [squarePow, ih, ← polyPow_add, ← Nat.two_mul]
    cases b <;> rfl

/-- Every byte from 2 up to the row's generator has a power 51, 85 or 15 that is 1. -/
def leastRow (e : Nat × Byte) : Bool :=
  (List.range e.2.toNat).all fun h =>
    let one (bs : List Bool) := squarePow (BitVec.ofNat 8 h) (BitVec.ofNat 9 e.1) bs == 1
    h < 2 || one [true, true, false, false, true, true] ||
      one [true, false, true, false, true, false, true] || one [true, true, true, true]

set_option Elab.async false in
theorem leastRow_all : polyTable.all leastRow = true := by decide +kernel

theorem not_hasOrder255_of_lt {e : Nat × Byte} (he : e ∈ polyTable) {h : Byte} (hlo : 2 ≤ h.toNat)
    (hlt : h.toNat < e.2.toNat) : ¬hasOrder255 h (BitVec.ofNat 9 e.1) := by
  rintro ⟨-, hmin⟩
  have hrow := List.all_eq_true.1 (List.all_eq_true.1 leastRow_all e he) h.toNat (List.mem_range.2 hlt)
  simp only [squarePow_eq, BitVec.ofNat_toNat, BitVec.setWidth_eq, Bool.or_eq_true, beq_iff_eq,
    decide_eq_true_eq] at hrow
  obtain ((hsmall | h51) | h85) | h15 := hrow
  · omega
  · exact hmin 51 (by decide) (by decide) h51
  · exact hmin 85 (by decide) (by decide) h85
  · exact hmin 15 (by decide) (by decide) h15

theorem two_le_gen {e : Nat × Byte} (he : e ∈ polyTable) : 2 ≤ e.2.toNat := by
  revert e
  decide

/-- Settles O16: an element of order 255 makes a product of two bytes other than 0 not 0, so a modulus that
has one is irreducible; every polynomial of degree 8 that is not listed has a factor of degree 1 to 4. -/
theorem allowListAndGenerators : Obligations.AllowListAndGenerators := by
  refine ⟨fun p => ⟨fun h => ?_, fun ⟨hlt, hirr⟩ => genOf_default_of_irreducible hlt hirr⟩,
    fun p g hg => ?_, fun P p g hP hg => ?_⟩
  · obtain ⟨g, hg⟩ := Option.isSome_iff_exists.1 h
    exact ⟨(default_legal.order hg).2.1, default_legal.irreducible hg⟩
  · have he : (p.toNat, g) ∈ polyTable := lookup_mem hg
    have hp : BitVec.ofNat 9 p.toNat = p.setWidth 9 := rfl
    exact ⟨two_le_gen he, (default_legal.order hg).2.2,
      fun h hlo hlt => hp ▸ not_hasOrder255_of_lt he hlo hlt⟩
  · obtain ⟨-, hlt, horder⟩ := hP.order hg
    exact ⟨hlt, hP.irreducible hg, horder⟩

end Sys2Proof.Machine
end

section
/-! PROOFS over spec/41_cipher_core.md: words and bytes, the S-box key material, the h-function, the rounds
and the block round trip (R144 to R155). -/

namespace Sys2Proof.Machine

/-! ## Words and their bytes (R12, R61) -/

theorem getLsbD_le32 (b0 b1 b2 b3 : Byte) (i : Nat) :
    (le32 b0 b1 b2 b3).getLsbD i =
      if i < 8 then b0.getLsbD i else if i - 8 < 8 then b1.getLsbD (i - 8)
      else if i - 8 - 8 < 8 then b2.getLsbD (i - 8 - 8) else b3.getLsbD (i - 8 - 8 - 8) := by
  simp only [← BitVec.getLsbD_append]
  rfl

theorem getElem_byteOf (w : Word) (j : Nat) {i : Nat} (hi : i < 8) :
    (byteOf w j)[i] = w.getLsbD (8 * j + i) :=
  BitVec.getElem_extractLsb' hi

/-- Byte `j` of four bytes in a word. -/
theorem byteOf_le32 (b : Fin 4 → Byte) (j : Fin 4) :
    byteOf (le32 (b 0) (b 1) (b 2) (b 3)) j = b j := by
  ext i hi
  rw [getElem_byteOf, getLsbD_le32, ← BitVec.getLsbD_eq_getElem]
  obtain ⟨j, hj⟩ := j
  interval_cases j
  all_goals dsimp only
  · rw [if_pos (by omega), Nat.mul_zero, Nat.zero_add]
    rfl
  · rw [if_neg (by omega), if_pos (by omega), show 8 * 1 + i - 8 = i by omega]
    rfl
  · rw [if_neg (by omega), if_neg (by omega), if_pos (by omega), show 8 * 2 + i - 8 - 8 = i by omega]
    rfl
  · rw [if_neg (by omega), if_neg (by omega), if_neg (by omega),
      show 8 * 3 + i - 8 - 8 - 8 = i by omega]
    rfl

theorem le32Inv_le32 (b0 b1 b2 b3 : Byte) : le32Inv (le32 b0 b1 b2 b3) = [b0, b1, b2, b3] := by
  have hbyte := byteOf_le32 ![b0, b1, b2, b3]
  exact congrArg₂ List.cons (hbyte 0) (congrArg₂ List.cons (hbyte 1)
    (congrArg₂ List.cons (hbyte 2) (congrArg₂ List.cons (hbyte 3) rfl)))

/-- A word is put together again from its bytes. -/
theorem le32_byteOf (w : Word) : le32 (byteOf w 0) (byteOf w 1) (byteOf w 2) (byteOf w 3) = w := by
  refine BitVec.eq_of_getLsbD_eq fun i hi => ?_
  have hbit (j k : Nat) (hk : k < 8) : (byteOf w j).getLsbD k = w.getLsbD (8 * j + k) := by
    rw [BitVec.getLsbD_eq_getElem hk, getElem_byteOf w j hk]
  rw [getLsbD_le32]
  split_ifs with h0 h1 h2
  · rw [hbit 0 i h0, Nat.mul_zero, Nat.zero_add]
  · rw [hbit 1 _ h1, show 8 * 1 + (i - 8) = i by omega]
  · rw [hbit 2 _ h2, show 8 * 2 + (i - 8 - 8) = i by omega]
  · rw [hbit 3 _ (by omega), show 8 * 3 + (i - 8 - 8 - 8) = i by omega]

/-! ## The S-box key material (R144) -/

/-- Settles O28: the default is `interleave`, whose row `j` is made of the two words of `j`. -/
theorem sboxKeyMaterial : Obligations.SboxKeyMaterial := by
  refine ⟨rfl, length_skey, fun P n me mo hskey j hj => ?_⟩
  have hdefault : P.cipher.skey n me mo = interleave n me mo := by
    rw [Params.cipher, hskey]
    rfl
  rw [hdefault, interleave]
  exact ⟨getD_flatMap_range (m := 2) (j := 0) (fun _ => rfl) hj (by decide) 0,
    getD_flatMap_range (m := 2) (j := 1) (fun _ => rfl) hj (by decide) 0⟩

/-! ## The h-function (R145, R146) -/

/-- Q0 stands at the even positions. -/
theorem qp_fin (P : CipherParams) (j : Fin 4) (v : Byte) :
    qp P j v = if j = 0 ∨ j = 2 then P.q0 v else P.q1 v := by
  fin_cases j <;> rfl

theorem hByte_append (P : CipherParams) (j : Nat) (x : Byte) (L : List Word) (l : Word) :
    hByte P j x (L ++ [l]) = qp P j (hByte P j x L ^^^ byteOf l j) := by
  simp [hByte, List.foldl_append]

/-- Byte `j` after the first application and those of the first `t` words. -/
def hColumn (P : CipherParams) (X : Word) (L : List Word) (t : Nat) (j : Fin 4) : Byte :=
  hByte P j (byteOf X j) (L.take t)

theorem hColumn_succ (P : CipherParams) (X : Word) {L : List Word} {t : Nat} {l : Word}
    (hl : L[t]? = some l) (j : Fin 4) :
    hColumn P X L (t + 1) j = qp P j (hColumn P X L t j ^^^ byteOf l j) := by
  rw [hColumn, List.take_add_one, hl]
  exact hByte_append ..

theorem byteOf_hFun (P : CipherParams) (T : Tables) (X : Word) (L : List Word) (r : Fin 4) :
    byteOf (hFun P T X L) r = mdsRow P T r (hColumn P X L L.length 0) (hColumn P X L L.length 1)
      (hColumn P X L L.length 2) (hColumn P X L L.length 3) := by
  simp only [hColumn, List.take_length]
  exact byteOf_le32 (fun r => mdsRow P T r _ _ _ _) r

/-! ## The h-function under TI-A -/

theorem byteOf_xor (x y : Word) (j : Nat) : byteOf (x ^^^ y) j = byteOf x j ^^^ byteOf y j :=
  BitVec.extractLsb'_xor

theorem hByte_paramsTIA (j : Nat) (X : Word) (L : List Word) :
    hByte paramsTIA j (byteOf X j) L = byteOf (L.foldl (fun x l => x ^^^ l) X) j := by
  have hqp (v : Byte) : qp paramsTIA j v = v := by
    unfold qp
    split <;> rfl
  simp only [hByte, hqp]
  induction L generalizing X with
  | nil => rfl
  | cons l L ih => rw [List.foldl_cons, List.foldl_cons, ← byteOf_xor, ih]

/-- The identity matrix keeps a column. -/
theorem mdsRow_paramsTIA {T : Tables} {p : BitVec 9} {g : Byte} (P : T.Powers p g) (y : Fin 4 → Byte)
    (r : Fin 4) : mdsRow paramsTIA T r (y 0) (y 1) (y 2) (y 3) = y r := by
  have hone (v : Byte) : gfMul T 1#8 v = v := (P.gfMul_eq 1 v).trans (pmulred_one_left v p)
  have hzero (v : Byte) : gfMul T 0#8 v = 0#8 := (P.gfMul_eq 0 v).trans (pmulred_zero_left v p)
  fin_cases r <;> simp [mdsRow, paramsTIA, hone, hzero]

/-- Settles O29: the column after `t` words of L is that of the first `t` words, and under TI-A every step
is an XOR. -/
theorem hFunction : Obligations.HFunction := by
  refine ⟨fun P T X L => ⟨hColumn P X L, fun j => qp_fin P j _, fun t l hl j => ?_,
    fun r => byteOf_hFun P T X L r⟩, fun s hP hs hready X L => ?_⟩
  · rw [hColumn_succ P X hl, qp_fin]
  · obtain ⟨g, -, P⟩ := hs.powers hP hready
    have hrow := mdsRow_paramsTIA P
      fun j => byteOf (L.foldl (fun x l => x ^^^ l) X) j
    simp only [hFun, hByte_paramsTIA]
    refine Eq.trans ?_ (le32_byteOf (L.foldl (fun x l => x ^^^ l) X))
    exact congr (congr (congr (congrArg le32 (hrow 0)) (hrow 1)) (hrow 2)) (hrow 3)

/-! ## The rounds (R149, R150, R152) -/

theorem getElem?_roundKeys (K : List Word) {r : Nat} (hr : r < 16) :
    (roundKeys K)[r]? = some (K.getD (2 * r + 8) 0, K.getD (2 * r + 9) 0) := by
  simp [roundKeys, hr]

/-- The four words after the first `r` rounds. -/
def roundState (P : CipherParams) (T : Tables) (S K : List Word) (b : List Byte) (r : Nat) : Quad :=
  ((roundKeys K).take r).foldl (encRound P T S) ((Quad.load b).whiten K 0)

theorem roundState_succ (P : CipherParams) (T : Tables) (S K : List Word) (b : List Byte) {r : Nat}
    (hr : r < 16) : roundState P T S K b (r + 1) =
      encRound P T S (roundState P T S K b r) (K.getD (2 * r + 8) 0, K.getD (2 * r + 9) 0) := by
  rw [roundState, List.take_add_one, getElem?_roundKeys K hr, List.foldl_append]
  rfl

theorem encryptBlock_eq (P : CipherParams) (T : Tables) (S K : List Word) (b : List Byte) :
    encryptBlock P T S K b = ((roundState P T S K b 16).swap.whiten K 4).store := by
  have hall : (roundKeys K).take 16 = roundKeys K := List.take_of_length_le (by simp [roundKeys])
  rw [roundState, hall]
  rfl

/-- Settles O30: each round is `encRound` with its two subkeys. -/
theorem encryptRounds : Obligations.EncryptRounds := by
  intro P T S K b
  refine ⟨roundState P T S K b, ⟨rfl, rfl, rfl, rfl⟩, fun r hr => ?_, encryptBlock_eq P T S K b⟩
  rw [roundState_succ P T S K b hr]
  exact ⟨rfl, rfl, rfl, rfl⟩

/-! ## The block round trip (R155) -/

theorem rotateLeft_rotateRight_one (w : Word) : (w.rotateRight 1).rotateLeft 1 = w := by
  ext i hi
  rw [BitVec.getElem_rotateLeft]
  obtain rfl | hpos := Nat.eq_zero_or_pos i
  · rw [dif_pos Nat.zero_lt_one, BitVec.getElem_rotateRight, dif_neg (by omega)]
  · rw [dif_neg (by omega), BitVec.getElem_rotateRight, dif_pos (by omega)]
    congr 1
    omega

theorem rotateRight_rotateLeft_one (w : Word) : (w.rotateLeft 1).rotateRight 1 = w := by
  ext i hi
  rw [BitVec.getElem_rotateRight]
  obtain rfl | hlt := Nat.eq_or_lt_of_le (Nat.le_of_lt_succ hi)
  · rw [dif_neg (by omega), BitVec.getElem_rotateLeft, dif_pos (by omega)]
  · rw [dif_pos (by omega), BitVec.getElem_rotateLeft, dif_neg (by omega)]
    congr 1
    omega

/-- The round function has the same operands in both directions, so each round undoes the other. -/
theorem decRound_encRound (P : CipherParams) (T : Tables) (S : List Word) (q : Quad) (k : Word × Word) :
    decRound P T S (encRound P T S q k) k = q := by
  simp only [decRound, encRound, rotateLeft_rotateRight_one]
  simp [rotateRight_rotateLeft_one]

theorem encRound_decRound (P : CipherParams) (T : Tables) (S : List Word) (q : Quad) (k : Word × Word) :
    encRound P T S (decRound P T S q k) k = q := by
  simp only [decRound, encRound, rotateLeft_rotateRight_one]
  simp [rotateRight_rotateLeft_one]

/-- Steps undone one by one, in the reverse order. -/
theorem foldl_reverse_cancel {α β : Type} {f g : α → β → α} (h : ∀ a b, g (f a b) b = a) (l : List β)
    (a : α) : l.reverse.foldl g (l.foldl f a) = a := by
  induction l generalizing a with
  | nil => rfl
  | cons b l ih => simp [List.foldl_append, ih, h]

theorem Quad.swap_swap (q : Quad) : q.swap.swap = q := rfl

theorem Quad.whiten_whiten (K : List Word) (i : Nat) (q : Quad) : (q.whiten K i).whiten K i = q := by
  simp [Quad.whiten]

theorem Quad.load_store (q : Quad) : Quad.load q.store = q := by
  have hword (w : Word) : le32 (byteOf w 0) (byteOf w 1) (byteOf w 2) (byteOf w 3) = w := le32_byteOf w
  exact congr (congr (congr (congrArg Quad.mk (hword q.r0)) (hword q.r1)) (hword q.r2)) (hword q.r3)

theorem Quad.store_load {b : List Byte} (hb : b.length = 16) : (Quad.load b).store = b := by
  match b, hb with
  | [b0, b1, b2, b3, b4, b5, b6, b7, b8, b9, b10, b11, b12, b13, b14, b15], _ =>
    simp only [Quad.load, Quad.store, wordAt, le32Inv_le32]
    rfl

/-- Settles O31: whitening undoes itself, and so do the rounds in the reverse order. -/
theorem blockRoundTrip : Obligations.BlockRoundTrip := by
  intro P T S K b hb
  constructor
  · simp only [encryptBlock, decryptBlock, Quad.load_store, Quad.whiten_whiten, Quad.swap_swap,
      foldl_reverse_cancel (decRound_encRound P T S), Quad.store_load hb]
  · have hrounds := foldl_reverse_cancel (encRound_decRound P T S) (roundKeys K).reverse
    rw [List.reverse_reverse] at hrounds
    simp only [encryptBlock, decryptBlock, Quad.load_store, Quad.whiten_whiten, hrounds,
      Quad.swap_swap, Quad.store_load hb]

end Sys2Proof.Machine
end

section
/-! PROOFS over spec/42_padding.md section 4: unpad takes pad back (R183). -/

namespace Sys2Proof.Machine

/-! ## Trailing zero bytes -/

theorem stripZeros_replicate (k : Nat) : stripZeros (List.replicate k 0) = [] := by
  induction k with
  | zero => rfl
  | succ k ih => rw [List.replicate_succ, stripZeros_cons, ih, if_pos ⟨rfl, rfl⟩]

theorem stripZeros_append_zeros (d : List Byte) (k : Nat) :
    stripZeros (d ++ List.replicate k 0) = stripZeros d := by
  induction d with
  | nil => exact stripZeros_replicate k
  | cons b d ih => rw [List.cons_append, stripZeros_cons, stripZeros_cons, ih]

theorem stripZeros_eq_self_iff {d : List Byte} : stripZeros d = d ↔ d.getLast? ≠ some 0 := by
  refine ⟨fun h => h ▸ getLast?_stripZeros d, fun h => ?_⟩
  obtain ⟨k, hk⟩ := exists_eq_stripZeros_append d
  cases k with
  | zero => simpa using hk.symm
  | succ k =>
    rw [hk, List.replicate_succ', ← List.append_assoc] at h
    exact absurd List.getLast?_concat h

/-! ## Unpad of pad -/

theorem toNat_ofNat_padLen (n : Nat) : (BitVec.ofNat 8 (padLen n)).toNat = padLen n := by
  obtain ⟨-, hle⟩ := padLen_le n
  rw [BitVec.toNat_ofNat]
  omega

/-- Schemes 1 to 3 write bytes their own unpad accepts, then the pad length; only scheme 3 uses the
filler. -/
theorem padBytes_trailer {p : Scheme} (hp : p ≠ .zero) {filler d : List Byte}
    (h : p = .iso → filler.length = padLen d.length - 1) :
    ∃ f, padBytes p filler d = d ++ f ++ [BitVec.ofNat 8 (padLen d.length)] ∧
      f.length + 1 = padLen d.length ∧
      fillerMatches p (BitVec.ofNat 8 (padLen d.length)).toNat
        (d ++ f ++ [BitVec.ofNat 8 (padLen d.length)]) = true := by
  obtain ⟨hpos, -⟩ := padLen_le d.length
  obtain ⟨m, hm⟩ : ∃ m, padLen d.length = m + 1 := ⟨padLen d.length - 1, by omega⟩
  have hbefore {f : List Byte} (hf : f.length + 1 = padLen d.length) := beforeTrailer_append (d := d)
    (k := BitVec.ofNat 8 (padLen d.length)) (hf.trans (toNat_ofNat_padLen d.length).symm)
  cases p with
  | zero => exact absurd rfl hp
  | ansi =>
    have hf : (List.replicate m (0 : Byte)).length + 1 = padLen d.length := by simp [hm]
    refine ⟨List.replicate m 0, by simp [padBytes, hm], hf, fillerMatches_ansi_iff.2 ?_⟩
    rw [hbefore hf]
    exact fun b => List.eq_of_mem_replicate
  | pkcs7 =>
    have hf : (List.replicate m (BitVec.ofNat 8 (padLen d.length))).length + 1 = padLen d.length := by
      simp [hm]
    refine ⟨List.replicate m (BitVec.ofNat 8 (padLen d.length)), ?_, hf, fillerMatches_pkcs7_iff.2 ?_⟩
    · rw [padBytes, List.append_assoc, ← List.replicate_succ', hm]
    · rw [hbefore hf]
      exact fun b => List.eq_of_mem_replicate
  | iso =>
    have hfiller := h rfl
    exact ⟨filler, rfl, by omega, rfl⟩

theorem unpadBytes_padBytes {p : Scheme} (hp : p ≠ .zero) {filler d : List Byte}
    (h : p = .iso → filler.length = padLen d.length - 1) : unpadBytes p (padBytes p filler d) = .ok d := by
  obtain ⟨f, heq, hlen, hmatch⟩ := padBytes_trailer hp h
  obtain ⟨-, hle⟩ := padLen_le d.length
  have hk := toNat_ofNat_padLen d.length
  have hwhole := add_padLen_mod d.length
  rw [heq]
  refine unpadBytes_append hp ?_ (hlen.trans hk.symm) (hk.trans_le hle) hmatch
  simp only [List.length_append, List.length_singleton]
  omega

theorem unpadBytes_padBytes_zero (filler d : List Byte) :
    unpadBytes .zero (padBytes .zero filler d) = .ok (stripZeros d) := by
  have hwhole : (d ++ List.replicate (padLen d.length) (0 : Byte)).length % 16 = 0 := by
    rw [List.length_append, List.length_replicate]
    exact add_padLen_mod d.length
  exact (unpadBytes_zero hwhole).trans (congrArg _ (stripZeros_append_zeros d _))

/-- Settles O36: a trailer counts the bytes it was written with, and scheme 0 takes away the zeros it added
with those that were there. -/
theorem padRoundTrip : Obligations.PadRoundTrip := by
  intro d filler h
  rw [unpadBytes_padBytes_zero]
  refine ⟨fun p hp => unpadBytes_padBytes hp fun _ => h, ?_, ?_⟩
  · obtain ⟨k, hk⟩ := exists_eq_stripZeros_append d
    exact ⟨_, k, rfl, hk, getLast?_stripZeros d⟩
  · rw [Except.ok.injEq, stripZeros_eq_self_iff]
    refine ⟨.inr, ?_⟩
    rintro (rfl | hlast)
    · exact nofun
    · exact hlast

/-- Unpad of the padded input of an encrypt command is the input, for scheme 0 without its trailing zeros. -/
theorem State.unpadBytes_pd (p : Scheme) (s : State) :
    unpadBytes p (s.pd p) = .ok (if p = .zero then stripZeros s.input else s.input) := by
  split
  · next hp =>
    subst hp
    exact unpadBytes_padBytes_zero ..
  · next hp =>
    refine unpadBytes_padBytes hp fun hiso => ?_
    simp [hiso, fillerCount]

end Sys2Proof.Machine
end

section
/-! PROOFS over spec/44_dispatcher.md: every interleaving ends with every chunk in its slot (R234 to R236),
and the state a command ends in does not depend on the path (R238). -/

namespace Sys2Proof.Machine

/-! ## Every interleaving (R234 to R236) -/

/-- Workers that hold no chunk are idle. -/
theorem Dispatcher.workers_of_held_nil {d : Dispatcher} (h : d.held = []) :
    d.workers = List.replicate d.workers.length none :=
  List.eq_replicate_length.2 fun w hw => by
    cases w with
    | none => rfl
    | some k =>
      have hmem : k ∈ d.held := List.mem_filterMap.2 ⟨some k, hw, rfl⟩
      rw [h] at hmem
      cases hmem

/-- Two moves for each chunk take it and finish it, so none is held at the end. -/
theorem Dispatcher.run_finished (X : ChunkTransform) (src : List (List Byte)) (choice : Nat → Nat)
    (c : Nat) {threads : Nat} (ht : 1 ≤ threads) :
    let d := Dispatcher.run X src choice (2 * src.length) c (Dispatcher.start threads src.length)
    d.Ok X src threads ∧ d.qnext = src.length ∧ d.qdone = src.length ∧ d.held = [] := by
  obtain ⟨hok, hmoves⟩ := Dispatcher.ok_run choice (2 * src.length) c
    (Dispatcher.ok_start X src threads) ht (Nat.le_of_eq (Nat.zero_add _))
  have hstart : (Dispatcher.start threads src.length).qnext
      + (Dispatcher.start threads src.length).qdone = 0 := rfl
  have hcount := hok.count
  have hle := hok.qnext
  exact ⟨hok, by omega, by omega, List.eq_nil_of_length_eq_zero (by omega)⟩

/-- Settles O50: the invariant of the moves, with every chunk finished. -/
theorem dispatcherEveryInterleaving : Obligations.DispatcherEveryInterleaving := by
  intro X src choice c threads ht
  obtain ⟨hok, hnext, hdone, hheld⟩ := Dispatcher.run_finished X src choice c ht
  refine ⟨hnext, hdone, ?_, Dispatcher.slots_run X src choice c ht⟩
  rw [Dispatcher.workers_of_held_nil hheld, hok.workers]

/-! ## The two paths (R238) -/

/-- `s` with the position in the free choices of the workers that `u` has (log entry 9). -/
def State.withPoolOf (s u : State) : State :=
  { s with ext := { s.ext with poolCursor := u.ext.poolCursor } }

/-- The checks of ECB and CTR tell the two forms apart by THREADS only (R230). -/
theorem modeFault_par {m : Nat} (hm : m = 0 ∨ m = 5) (decrypt : Bool) {s : State}
    (hpos : 1 ≤ s.regs.threads.toNat) (hmax : s.regs.threads.toNat ≤ s.conf.maxWorkers.val) :
    modeFault m decrypt true s = modeFault m decrypt false s := by
  obtain rfl | rfl := hm <;> simp [modeFault, hpos, hmax]

/-- The states after the two runs differ in the mode and dispatcher state, which the end of the command
discards, and in the pool's position. -/
theorem finishMode_runDispatched (X : ChunkTransform) (f : BlockStep) (m : ModeState)
    (ps : List (List Byte)) (r : Except ErrCode (List Byte)) (s : State) :
    ((s.runDispatched X ps).2.finishMode r).withPoolOf ((s.runSequential f m ps).2.finishMode r) =
      (s.runSequential f m ps).2.finishMode r := by
  cases r <;> rfl

/-- The work of an independent mode: run the pieces by either path, and end with `r` of the output. -/
def State.independentWork (X : ChunkTransform) (f : BlockStep) (m : ModeState) (ps : List (List Byte))
    (r : List Byte → Except ErrCode (List Byte)) (par : Bool) (s : State) : State :=
  (s.runIndependent par X f m ps).2.finishMode (r (s.runIndependent par X f m ps).1)

theorem independentWork_parallel {X : ChunkTransform} {f : BlockStep} {m : ModeState} {n : Nat}
    {d O : Nat → List Byte} {s : State} (ht : 1 ≤ s.regs.threads.toNat) (hX : ∀ i, X i (d i) = O i)
    (hseq : (runBlocks f m ((List.range n).map d)).1 = assemble n O)
    (r : List Byte → Except ErrCode (List Byte)) :
    (s.independentWork X f m ((List.range n).map d) r true).withPoolOf
        (s.independentWork X f m ((List.range n).map d) r false) =
      s.independentWork X f m ((List.range n).map d) r false := by
  have hout (par : Bool) := State.runIndependent_fst (par := par) (fun _ => ht) hX hseq
  rw [State.independentWork, State.independentWork, hout, hout]
  exact finishMode_runDispatched ..

/-- Both forms fault with the same check, or do the same work. -/
theorem modeCommand_parallel {needs : ModeNeeds} {work : Bool → State → State} {s : State}
    (hfault : firstFault (modeChecks needs true s) = firstFault (modeChecks needs false s))
    (hwork : (work true s).withPoolOf (work false s) = work false s) :
    ∃ t u, modeCommand needs true (work true) s = .next t ∧
      modeCommand needs false (work false) s = .next u ∧ t.withPoolOf u = u := by
  cases hcheck : firstFault (modeChecks needs false s) with
  | some e => exact ⟨_, _, modeCommand_fail (hfault.trans hcheck), modeCommand_fail hcheck, rfl⟩
  | none => exact ⟨_, _, modeCommand_pass (hfault.trans hcheck), modeCommand_pass hcheck, hwork⟩

section Forms

variable {s : State} (hpos : 1 ≤ s.regs.threads.toNat)
  (hmax : s.regs.threads.toNat ≤ s.conf.maxWorkers.val)
include hpos hmax

theorem execEcbEnc_parallel (p : Scheme) : ∃ t u, execEcbEnc true p s = .next t ∧
    execEcbEnc false p s = .next u ∧ t.withPoolOf u = u := by
  refine modeCommand_parallel (work := fun par s => (s.skipFiller p).independentWork
    (fun _ c => s.encBlock c) (ecbStep s.encBlock) ModeState.cleared (pieces 16 (s.paddedInput p)) .ok par)
    ?_ ?_
  · rw [firstFault_ecbEnc, firstFault_ecbEnc, modeFault_par (.inl rfl) false hpos hmax]
  · simp only [pieces_paddedInput]
    exact independentWork_parallel (s := s.skipFiller p) hpos (fun _ => rfl)
      (runBlocks_stateless (fun _ _ _ => rfl) _) .ok

theorem execEcbDec_parallel (p : Scheme) : ∃ t u, execEcbDec true p s = .next t ∧
    execEcbDec false p s = .next u ∧ t.withPoolOf u = u := by
  refine modeCommand_parallel (work := fun par s => s.independentWork
    (fun _ c => s.decBlock c) (ecbStep s.decBlock) ModeState.cleared (pieces 16 s.input) (unpadBytes p) par)
    ?_ ?_
  · rw [firstFault_ecbDec, firstFault_ecbDec, modeFault_par (.inl rfl) true hpos hmax]
  · simp only [pieces_blocks]
    exact independentWork_parallel hpos (fun _ => rfl) (runBlocks_stateless (fun _ _ _ => rfl) _) _

theorem execCtrEnc_parallel : ∃ t u, execCtrEnc true s = .next t ∧ execCtrEnc false s = .next u ∧
    t.withPoolOf u = u := by
  refine modeCommand_parallel (work := State.runCtr) ?_ ?_
  · rw [firstFault_ctrEnc, firstFault_ctrEnc, modeFault_par (.inr rfl) false hpos hmax]
  · have hpar := independentWork_parallel (s := s) (X := ctrChunk s.encBlock (s.ivBytes 8)) hpos
      (fun _ => rfl) (runBlocks_ctr s.encBlock (s.ivBytes 8) s.input ((s.input.length + 15) / 16)) .ok
    rw [← pieces_blocks] at hpar
    exact hpar

end Forms

/-- Settles O51: an independent mode delivers the same by both paths, whatever is done with the output. -/
theorem parallelEqualsSequential : Obligations.ParallelEqualsSequential := by
  intro p s hpos hmax c hc
  simp only [List.mem_cons, List.not_mem_nil, or_false] at hc
  obtain rfl | rfl | rfl | rfl := hc
  · exact execEcbEnc_parallel hpos hmax p
  · exact execEcbDec_parallel hpos hmax p
  · exact execCtrEnc_parallel hpos hmax
  · simp only [exec_ctrDec]
    exact execCtrEnc_parallel hpos hmax

end Sys2Proof.Machine
end

section
/-! PROOFS over spec/43_modes.md: every MODE command ends with the fault of its checks or with a result that
the bytes it reads determine (R191, R226). -/

namespace Sys2Proof.Machine

/-! ## The checks (R191) -/

/-- Every MODE command is its checks and a work. -/
theorem exec_eq_modeCommand {i : Instr} {m : Nat} {decrypt par : Bool}
    (hi : modeOf i = some (m, decrypt, par)) :
    ∃ needs work, exec i = modeCommand needs par work ∧
      ∀ s, firstFault (modeChecks needs par s) = modeFault m decrypt par s := by
  cases i with
  | ecbEnc par p => cases hi; exact ⟨_, _, rfl, firstFault_ecbEnc par⟩
  | ecbDec par p => cases hi; exact ⟨_, _, rfl, firstFault_ecbDec par⟩
  | cbcEnc par p => cases hi; exact ⟨_, _, rfl, firstFault_cbcEnc par⟩
  | cbcDec par p => cases hi; exact ⟨_, _, rfl, firstFault_cbcDec par⟩
  | pcbcEnc par p => cases hi; exact ⟨_, _, rfl, firstFault_pcbcEnc par⟩
  | pcbcDec par p => cases hi; exact ⟨_, _, rfl, firstFault_pcbcDec par⟩
  | cfbEnc par => cases hi; exact ⟨_, _, rfl, firstFault_cfbEnc par⟩
  | cfbDec par => cases hi; exact ⟨_, _, rfl, firstFault_cfbDec par⟩
  | ofbEnc par => cases hi; exact ⟨_, _, rfl, firstFault_ofbEnc par⟩
  | ofbDec par => cases hi; exact ⟨_, _, rfl, firstFault_ofbDec par⟩
  | ctrEnc par => cases hi; exact ⟨_, _, rfl, firstFault_ctrEnc par⟩
  | ctrDec par => cases hi; exact ⟨_, _, rfl, firstFault_ctrDec par⟩
  | rdEnc par p => cases hi; exact ⟨_, _, rfl, firstFault_rdEnc par⟩
  | rdDec par p => cases hi; exact ⟨_, _, rfl, firstFault_rdDec par⟩
  | _ => cases hi

/-- Settles O44: the checks of the 14 commands are those of `modeFault`, and a failing one ends the
command. -/
theorem modeChecksInOrder : Obligations.ModeChecksInOrder := by
  intro i m decrypt par s e hi hfault
  obtain ⟨needs, work, hexec, hchecks⟩ := exec_eq_modeCommand hi
  rw [hexec]
  exact dataFault_modeCommand ((hchecks s).trans hfault) work

/-! ## The result of a MODE command whose checks pass -/

/-- What a MODE command delivers, or the error of unpad, when its checks pass (R196 to R222). -/
def modeResult (i : Instr) (s : State) : Except ErrCode (List Byte) :=
  match i with
  | .ecbEnc _ p => .ok (assemble ((s.pd p).length / 16) fun i => s.encBlock (blockAt (s.pd p) i))
  | .cbcEnc _ p => .ok (assemble ((s.pd p).length / 16) fun i =>
      cbcReg s.encBlock (s.ivBytes 16) (s.pd p) (i + 1))
  | .pcbcEnc _ p => .ok (assemble ((s.pd p).length / 16) fun i =>
      (pcbcChain s.encBlock (s.ivBytes 16) (s.pd p) i).2)
  | .rdEnc _ p => .ok (assemble ((s.pd p).length / 16) (rdOut s.encBlock (s.maskAt p) (s.pd p)))
  | .ecbDec _ p => unpadBytes p (s.deciphered 0)
  | .cbcDec _ p => unpadBytes p (s.deciphered 1)
  | .pcbcDec _ p => unpadBytes p (s.deciphered 2)
  | .rdDec _ p => unpadBytes p (s.deciphered 6)
  | .cfbEnc _ =>
    let n := s.regs.seg.toNat
    .ok (assemble ((s.regs.inlen.toNat + (n - 1)) / n)
      (cfbOut s.encBlock n s.input (cfbEncReg s.encBlock n (s.ivBytes 16) s.input)))
  | .cfbDec _ =>
    let n := s.regs.seg.toNat
    .ok (assemble ((s.regs.inlen.toNat + (n - 1)) / n)
      (cfbOut s.encBlock n s.input (cfbDecReg n (s.ivBytes 16) s.input)))
  | .ofbEnc _ | .ofbDec _ =>
    .ok (assemble ((s.regs.inlen.toNat + 15) / 16) (ofbOut s.encBlock (s.ivBytes 16) s.input))
  | .ctrEnc _ | .ctrDec _ =>
    .ok (assemble ((s.regs.inlen.toNat + 15) / 16) (ctrOut s.encBlock (s.ivBytes 8) s.input))
  | _ => .ok []

/-- The outcome `o` of a data command from `s` is the result or the fault `r`. -/
def EndsWithResult (o : Host.Outcome State Fault Refusal) (s : State)
    (r : Except ErrCode (List Byte)) : Prop :=
  (∀ out, r = .ok out → ∃ t k, o = .next t ∧ DataDone s t k out) ∧
    ∀ e, r = .error e → ∃ t, o = .next t ∧ DataFault s t e

theorem endsWithResult_ok {o : Host.Outcome State Fault Refusal} {s : State} {k : Nat} {out : List Byte}
    (h : ∃ t, o = .next t ∧ DataDone s t k out) : EndsWithResult o s (.ok out) := by
  obtain ⟨t, ho, hdone⟩ := h
  refine ⟨fun out' hout => ?_, nofun⟩
  cases hout
  exact ⟨t, k, ho, hdone⟩

theorem endsWithResult_unpad {o : Host.Outcome State Fault Refusal} {s : State}
    {r : Except ErrCode (List Byte)}
    (h : (∀ out, r = .ok out → ∃ t, o = .next t ∧ DataDone s t 0 out) ∧
      ∀ e, r = .error e → ∃ t, o = .next t ∧ DataFault s t e) : EndsWithResult o s r := by
  obtain ⟨hok, herr⟩ := h
  refine ⟨fun out hout => ?_, herr⟩
  obtain ⟨t, ho, hdone⟩ := hok out hout
  exact ⟨t, 0, ho, hdone⟩

/-- Only ECB and CTR pass the checks with `par = 1` (R230). -/
theorem par_of_pass {m : Nat} {decrypt par : Bool} {s : State} (h : modeFault m decrypt par s = none)
    (h0 : m ≠ 0) (h5 : m ≠ 5) : par = false := by
  obtain ⟨-, -, hpar, -⟩ := modeFault_none h
  refine Bool.eq_false_iff.2 fun htrue => ?_
  obtain ⟨hmode, -⟩ := hpar htrue
  omega

/-- The statements of the seven modes in one (R196 to R222). -/
theorem exec_mode_of_pass {i : Instr} {m : Nat} {decrypt par : Bool} {s : State}
    (hi : modeOf i = some (m, decrypt, par)) (h : modeFault m decrypt par s = none) :
    EndsWithResult (exec i s) s (modeResult i s) := by
  obtain ⟨hecbEnc, hecbDec⟩ := ecbBlocks
  obtain ⟨hcbcEnc, hcbcDec⟩ := cbcChains
  obtain ⟨hpcbcEnc, hpcbcDec⟩ := pcbcChains
  obtain ⟨hrdEnc, hrdDec⟩ := randomDeltaUnits
  cases i with
  | ecbEnc par p => cases hi; exact endsWithResult_ok (hecbEnc par p s h)
  | ecbDec par p => cases hi; exact endsWithResult_unpad (hecbDec par p s h)
  | ctrEnc par => cases hi; exact endsWithResult_ok (ctrKeystream par s h _ (by simp))
  | ctrDec par =>
    cases hi
    rw [exec_ctrDec]
    exact endsWithResult_ok (ctrKeystream par s h _ (by simp))
  | cbcEnc par p =>
    cases hi
    obtain rfl := par_of_pass h (by decide) (by decide)
    exact endsWithResult_ok (hcbcEnc p s h)
  | cbcDec par p =>
    cases hi
    obtain rfl := par_of_pass h (by decide) (by decide)
    exact endsWithResult_unpad (hcbcDec p s h)
  | pcbcEnc par p =>
    cases hi
    obtain rfl := par_of_pass h (by decide) (by decide)
    exact endsWithResult_ok (hpcbcEnc p s h)
  | pcbcDec par p =>
    cases hi
    obtain rfl := par_of_pass h (by decide) (by decide)
    exact endsWithResult_unpad (hpcbcDec p s h)
  | rdEnc par p =>
    cases hi
    obtain rfl := par_of_pass h (by decide) (by decide)
    exact endsWithResult_ok (hrdEnc p s h)
  | rdDec par p =>
    cases hi
    obtain rfl := par_of_pass h (by decide) (by decide)
    exact endsWithResult_unpad (hrdDec p s h)
  | cfbEnc par =>
    cases hi
    obtain rfl := par_of_pass h (by decide) (by decide)
    obtain ⟨henc, -⟩ := cfbSegments s h
    exact endsWithResult_ok henc
  | cfbDec par =>
    cases hi
    obtain rfl := par_of_pass h (by decide) (by decide)
    obtain ⟨-, hdec⟩ := cfbSegments s ((modeFault_cfb true false s).symm.trans h)
    exact endsWithResult_ok hdec
  | ofbEnc par =>
    cases hi
    obtain rfl := par_of_pass h (by decide) (by decide)
    exact endsWithResult_ok (ofbKeystream s h _ (by simp))
  | ofbDec par =>
    cases hi
    obtain rfl := par_of_pass h (by decide) (by decide)
    exact endsWithResult_ok (ofbKeystream s h _ (by simp))
  | _ => cases hi

end Sys2Proof.Machine
end

section
/-! PROOFS over spec/43_modes.md section 9: how long the result of a MODE command is (R226). -/

namespace Sys2Proof.Machine

/-! ## The result of a command that completed -/

theorem modeResult_error_ne {i : Instr} {s : State} {e : ErrCode} (h : modeResult i s = .error e) :
    e ≠ .none := by
  cases i with
  | ecbDec par p | cbcDec par p | pcbcDec par p | rdDec par p =>
    obtain ⟨hne, -⟩ := unpadBytes_error_ne h
    exact hne
  | _ => cases h

/-- With ERR 0 the checks passed and the result was delivered. -/
theorem dataDone_of_completed {i : Instr} {m : Nat} {decrypt par : Bool} {s t : State}
    (hi : modeOf i = some (m, decrypt, par)) (h : exec i s = .next t) (herr : t.status.err = .none) :
    modeFault m decrypt par s = none ∧ ∃ r k, modeResult i s = .ok r ∧ DataDone s t k r := by
  have hclean {e : ErrCode} (he : e ≠ .none) : ¬∃ t', exec i s = .next t' ∧ DataFault s t' e := by
    rintro ⟨t', ht', hfault⟩
    cases h.symm.trans ht'
    rw [hfault.status] at herr
    exact he herr
  cases hfault : modeFault m decrypt par s with
  | some e => exact absurd (modeChecksInOrder i m decrypt par s e hi hfault) (hclean (modeFault_ne_none hfault))
  | none =>
    obtain ⟨hok, herror⟩ := exec_mode_of_pass hi hfault
    cases hr : modeResult i s with
    | error e => exact absurd (herror e hr) (hclean (modeResult_error_ne hr))
    | ok r =>
      obtain ⟨t', k, ht', hdone⟩ := hok r hr
      cases h.symm.trans ht'
      exact ⟨rfl, r, k, rfl, hdone⟩

theorem DataDone.outlen {s t : State} {k : Nat} {r : List Byte} (h : DataDone s t k r) :
    t.regs.outlen.toNat = r.length := by
  rw [← h.output, State.output, List.length_map, List.length_range]

theorem outlen_le_outcap {i : Instr} {s t : State} (hi : isDataCommand i = true)
    (h : exec i s = .next t) : t.regs.outlen.toNat ≤ s.conf.outcap := by
  have hfits {m : ModeState} {d : Option Dispatcher} (hends : DataEnds m d s t) :
      t.regs.outlen.toNat ≤ s.conf.outcap := by
    obtain ⟨u, -, -, -, ⟨e, -, rfl⟩ | ⟨r, hr, rfl⟩⟩ := hends
    · exact Nat.zero_le _
    · exact (Nat.mod_le ..).trans hr
  have hends := dataEnds_of_exec hi h
  split at hends <;> exact hfits hends

/-! ## Pieces of a buffer, the last possibly short -/

theorem length_assemble_congr {n : Nat} {f g : Nat → List Byte}
    (h : ∀ i < n, (f i).length = (g i).length) : (assemble n f).length = (assemble n g).length := by
  induction n with
  | zero => rfl
  | succ n ih =>
    rw [assemble_succ, assemble_succ, List.length_append, List.length_append,
      ih fun i hi => h i (by omega), h n (by omega)]

/-- The number of pieces covers the buffer. -/
theorem le_mul_pieces {m : Nat} (hm : 0 < m) (n : Nat) : n ≤ m * ((n + (m - 1)) / m) := by
  have hdiv := Nat.div_add_mod (n + (m - 1)) m
  have hmod := Nat.mod_lt (n + (m - 1)) hm
  omega

theorem assemble_pieces {m : Nat} (hm : 0 < m) (d : List Byte) :
    assemble ((d.length + (m - 1)) / m) (segAt m d) = d := by
  rw [assemble_segAt, List.take_of_length_le (le_mul_pieces hm d.length)]

/-! ## Data XORed with a keystream, piece by piece -/

/-- Piece `i` of the data XORed with the first bytes of `K i`: what CFB, OFB and CTR deliver (R194). -/
def keystreamPiece (m : Nat) (K : Nat → List Byte) (d : List Byte) (i : Nat) : List Byte :=
  xorBytes (segAt m d i) ((K i).take (segAt m d i).length)

/-- All pieces of the data, each XORed with its part of the keystream. -/
def streamXor (m : Nat) (K : Nat → List Byte) (d : List Byte) : List Byte :=
  assemble ((d.length + (m - 1)) / m) (keystreamPiece m K d)

theorem streamXor_congr {m : Nat} {K K' : Nat → List Byte} {d : List Byte}
    (h : ∀ i < (d.length + (m - 1)) / m, K i = K' i) : streamXor m K d = streamXor m K' d :=
  assemble_congr fun i hi => by rw [keystreamPiece, keystreamPiece, h i hi]

section Stream

variable {m : Nat} (hm : 0 < m) {K : Nat → List Byte} (hK : ∀ i, m ≤ (K i).length) (d : List Byte)
include hK

theorem length_keystreamPiece (i : Nat) : (keystreamPiece m K d i).length = (segAt m d i).length := by
  have hlen := hK i
  rw [keystreamPiece, length_xorBytes, List.length_take, length_segAt]
  omega

include hm

theorem length_streamXor : (streamXor m K d).length = d.length := by
  rw [streamXor, length_assemble_congr fun i _ => length_keystreamPiece hK d i, assemble_pieces hm]

end Stream

/-! ## The results of the modes without padding (R203, R210, R215) -/

theorem modeResult_cfbEnc (par : Bool) (s : State) : modeResult (.cfbEnc par) s =
    .ok (streamXor s.regs.seg.toNat (fun i => s.encBlock
      (cfbEncReg s.encBlock s.regs.seg.toNat (s.ivBytes 16) s.input i)) s.input) := by
  rw [streamXor, State.length_input]
  rfl

theorem modeResult_cfbDec (par : Bool) (s : State) : modeResult (.cfbDec par) s =
    .ok (streamXor s.regs.seg.toNat (fun i => s.encBlock
      (cfbDecReg s.regs.seg.toNat (s.ivBytes 16) s.input i)) s.input) := by
  rw [streamXor, State.length_input]
  rfl

theorem modeResult_ofb {i : Instr} {par : Bool} (hi : i = .ofbEnc par ∨ i = .ofbDec par) (s : State) :
    modeResult i s =
      .ok (streamXor 16 (fun i => s.encBlock (ofbReg s.encBlock (s.ivBytes 16) i)) s.input) := by
  rw [streamXor, State.length_input]
  obtain rfl | rfl := hi <;> rfl

theorem modeResult_ctr {i : Instr} {par : Bool} (hi : i = .ctrEnc par ∨ i = .ctrDec par) (s : State) :
    modeResult i s = .ok (streamXor 16
      (fun i => s.encBlock (s.ivBytes 8 ++ be64 (BitVec.ofNat 64 i))) s.input) := by
  rw [streamXor, State.length_input]
  obtain rfl | rfl := hi <;> rfl

theorem modeResult_streamXor {i : Instr} {m : Nat} {decrypt par : Bool} {s : State}
    (hi : modeOf i = some (m, decrypt, par)) (hm : m = 3 ∨ m = 4 ∨ m = 5)
    (hpass : modeFault m decrypt par s = none) :
    ∃ n K, 0 < n ∧ (∀ i, n ≤ (K i).length) ∧ modeResult i s = .ok (streamXor n K s.input) := by
  obtain ⟨-, -, -, hseg, -⟩ := modeFault_none hpass
  have hE (b : List Byte) : 16 ≤ (s.encBlock b).length := (length_encBlock s b).ge
  cases i with
  | cfbEnc par =>
    cases hi
    obtain ⟨hpos, hle⟩ := hseg rfl
    exact ⟨_, _, hpos, fun i => hle.trans (hE _), modeResult_cfbEnc par s⟩
  | cfbDec par =>
    cases hi
    obtain ⟨hpos, hle⟩ := hseg rfl
    exact ⟨_, _, hpos, fun i => hle.trans (hE _), modeResult_cfbDec par s⟩
  | ofbEnc par => exact ⟨_, _, Nat.succ_pos 15, fun i => hE _, modeResult_ofb (.inl rfl) s⟩
  | ofbDec par => exact ⟨_, _, Nat.succ_pos 15, fun i => hE _, modeResult_ofb (.inr rfl) s⟩
  | ctrEnc par => exact ⟨_, _, Nat.succ_pos 15, fun i => hE _, modeResult_ctr (.inl rfl) s⟩
  | ctrDec par => exact ⟨_, _, Nat.succ_pos 15, fun i => hE _, modeResult_ctr (.inr rfl) s⟩
  | _ => cases hi <;> omega

/-! ## The lengths of the padded modes -/

theorem length_assemble_pd (p : Scheme) (s : State) {m : Nat} {f : Nat → List Byte}
    (h : ∀ i, (f i).length = m) : 16 * (assemble ((s.pd p).length / 16) f).length =
      m * (s.regs.inlen.toNat + padLen s.regs.inlen.toNat) := by
  rw [length_assemble fun i _ => h i, State.length_pd, Nat.mul_left_comm,
    Nat.mul_div_cancel' (Nat.dvd_of_mod_eq_zero (add_padLen_mod _))]

theorem length_modeResult_padded {i : Instr} {m : Nat} {par : Bool} {s : State} {r : List Byte}
    (hi : modeOf i = some (m, false, par)) (hr : modeResult i s = .ok r)
    (hm : m = 0 ∨ m = 1 ∨ m = 2) : r.length = s.regs.inlen.toNat + padLen s.regs.inlen.toNat := by
  have hblocks {p : Scheme} {f : Nat → List Byte} (hf : ∀ i, (f i).length = 16) :
      (assemble ((s.pd p).length / 16) f).length
        = s.regs.inlen.toNat + padLen s.regs.inlen.toNat := by
    have hlen := length_assemble_pd p s hf
    omega
  cases i with
  | ecbEnc par p => cases hr; exact hblocks fun _ => rfl
  | cbcEnc par p => cases hr; exact hblocks fun _ => rfl
  | pcbcEnc par p => cases hr; exact hblocks fun i => by rw [pcbcChain_snd, length_encBlock]
  | _ => cases hi <;> omega

theorem length_modeResult_rdEnc {par : Bool} {p : Scheme} {s : State} {r : List Byte}
    (hr : modeResult (.rdEnc par p) s = .ok r) :
    r.length = 2 * (s.regs.inlen.toNat + padLen s.regs.inlen.toNat) := by
  cases hr
  have hlen := length_assemble_pd p s (m := 32)
    (f := rdOut s.encBlock (s.maskAt p) (s.pd p)) fun i => by simp [rdOut, State.length_maskAt]
  omega

/-! ## The deciphered data before unpad -/

/-- The blocks of the ciphertext of a padded decrypt. -/
theorem length_blockAt_input {s : State} {i : Nat} (hi : i < s.regs.inlen.toNat / 16) :
    (blockAt s.input i).length = 16 := by
  rw [length_blockAt, State.length_input]
  omega

theorem length_cbcPlain {s : State} {i : Nat} (hi : i < s.regs.inlen.toNat / 16) :
    (cbcPlain s.decBlock (s.ivBytes 16) s.input i).length = 16 := by
  cases i with
  | zero => simp [cbcPlain]
  | succ i =>
    have hblock := length_blockAt_input (s := s) (i := i) (by omega)
    simp [cbcPlain, hblock]

theorem length_pcbcPlain {s : State} {i : Nat} (hi : i < s.regs.inlen.toNat / 16) :
    (pcbcPlain s.decBlock (s.ivBytes 16) s.input i).length = 16 := by
  induction i with
  | zero => simp [pcbcPlain]
  | succ i ih =>
    have hblock := length_blockAt_input (s := s) (i := i) (by omega)
    simp [pcbcPlain, hblock, ih (by omega)]

theorem length_rdPlain {s : State} {i : Nat} (hi : i < s.regs.inlen.toNat / 32) :
    (rdPlain s.decBlock s.input i).length = 16 := by
  have hblock := length_blockAt_input (s := s) (i := 2 * i) (by omega)
  simp [rdPlain, hblock]

theorem length_deciphered {m : Nat} {par : Bool} {s : State} (hm : m = 0 ∨ m = 1 ∨ m = 2 ∨ m = 6)
    (hpass : modeFault m true par s = none) : (s.deciphered m).length =
      if m = 6 then s.regs.inlen.toNat / 2 else s.regs.inlen.toNat := by
  obtain ⟨-, -, -, -, -, -, h16, h32⟩ := modeFault_none hpass
  obtain rfl | rfl | rfl | rfl := hm
  · refine (length_assemble fun i _ => length_decBlock s _).trans ?_
    exact Nat.mul_div_cancel' (Nat.dvd_of_mod_eq_zero (h16 rfl (.inl rfl)))
  · refine (length_assemble fun i => length_cbcPlain).trans ?_
    exact Nat.mul_div_cancel' (Nat.dvd_of_mod_eq_zero (h16 rfl (.inr (.inl rfl))))
  · refine (length_assemble fun i => length_pcbcPlain).trans ?_
    exact Nat.mul_div_cancel' (Nat.dvd_of_mod_eq_zero (h16 rfl (.inr (.inr rfl))))
  · refine (length_assemble fun i => length_rdPlain).trans ?_
    have hwhole := h32 rfl rfl
    rw [if_pos rfl]
    omega

/-! ## What unpad takes away -/

theorem exists_trailer_of_unpadBytes {p : Scheme} (hp : p ≠ .zero) {T r : List Byte}
    (h : unpadBytes p T = .ok r) : ∃ k : Byte, T.getLast? = some k ∧ 1 ≤ k.toNat ∧ k.toNat ≤ 16 ∧
      r.length = T.length - k.toNat := by
  have hwhole : T.length % 16 = 0 := by
    by_contra hpart
    cases (unpadBytes_of_not_whole p hpart).symm.trans h
  rw [unpadBytes_of_ne_zero hp hwhole] at h
  cases hlast : T.getLast? with
  | none =>
    rw [unpadTrailer, hlast] at h
    cases h
  | some k =>
    rw [unpadTrailer_of_getLast? hlast] at h
    split at h
    · next hk =>
      obtain ⟨⟨hlo, hhi⟩, -⟩ := hk
      cases h
      exact ⟨k, rfl, hlo, hhi, by rw [List.length_take]; omega⟩
    · cases h

theorem exists_zeros_of_unpadBytes {T r : List Byte} (h : unpadBytes .zero T = .ok r) :
    ∃ k, T = r ++ List.replicate k 0 ∧ r.getLast? ≠ some 0 := by
  have hwhole : T.length % 16 = 0 := by
    by_contra hpart
    cases (unpadBytes_of_not_whole .zero hpart).symm.trans h
  rw [unpadBytes_zero hwhole] at h
  cases h
  obtain ⟨k, hk⟩ := exists_eq_stripZeros_append T
  exact ⟨k, hk, getLast?_stripZeros T⟩

/-- A padded decrypt delivers its deciphered data less what unpad takes away. -/
theorem outlen_of_unpad {p : Scheme} {s t : State} {k : Nat} {T r : List Byte}
    (hr : unpadBytes p T = .ok r) (hdone : DataDone s t k r) :
    (p ≠ .zero → ∃ k : Byte, T.getLast? = some k ∧ 1 ≤ k.toNat ∧ k.toNat ≤ 16 ∧
        t.regs.outlen.toNat = T.length - k.toNat) ∧
      (p = .zero → ∃ (r : List Byte) (k : Nat), T = r ++ List.replicate k 0 ∧
        r.getLast? ≠ some 0 ∧ t.regs.outlen.toNat = T.length - k) := by
  rw [hdone.outlen]
  refine ⟨fun hp => exists_trailer_of_unpadBytes hp hr, fun hp => ?_⟩
  subst hp
  obtain ⟨k, hk, hlast⟩ := exists_zeros_of_unpadBytes hr
  refine ⟨r, k, hk, hlast, ?_⟩
  rw [hk, List.length_append, List.length_replicate, Nat.add_sub_cancel]

/-- A padded decrypt command is one of the four, and unpads what it deciphered. -/
theorem padded_decrypt {par : Bool} {p : Scheme} {c : Nat × Instr}
    (hc : c ∈ [(0, Instr.ecbDec par p), (1, .cbcDec par p), (2, .pcbcDec par p), (6, .rdDec par p)]) :
    (c.1 = 0 ∨ c.1 = 1 ∨ c.1 = 2 ∨ c.1 = 6) ∧ modeOf c.2 = some (c.1, true, par) ∧
      ∀ s, modeResult c.2 s = unpadBytes p (s.deciphered c.1) := by
  simp only [List.mem_cons, List.not_mem_nil, or_false] at hc
  obtain rfl | rfl | rfl | rfl := hc
  all_goals exact ⟨by simp, rfl, fun _ => rfl⟩

/-- Settles O45: the blocks of each command's result, one after the other, and what unpad takes away. -/
theorem outputLengths : Obligations.OutputLengths := by
  refine ⟨fun i m decrypt par s t hi h herr => ?_, fun par p s t c hc h herr => ?_⟩
  · obtain ⟨hpass, r, k, hr, hdone⟩ := dataDone_of_completed hi h herr
    have hdata : isDataCommand i = true := isDataCommand_of_modeOf (by rw [hi]; rfl)
    simp only [hdone.outlen]
    refine ⟨fun hm hd => ?_, fun hm hd => ?_, fun hm => ?_, hdone.outlen ▸ outlen_le_outcap hdata h⟩
    · subst hd
      exact length_modeResult_padded hi hr hm
    · subst hd hm
      cases i with
      | rdEnc par p => exact length_modeResult_rdEnc hr
      | _ => cases hi
    · obtain ⟨n, K, hn, hK, hstream⟩ := modeResult_streamXor hi hm hpass
      cases hr.symm.trans hstream
      rw [length_streamXor hn hK, State.length_input]
  · obtain ⟨hm, hmode, hresult⟩ := padded_decrypt hc
    obtain ⟨hpass, r, k, hr, hdone⟩ := dataDone_of_completed hmode h herr
    have hlen := length_deciphered hm hpass
    rw [hresult] at hr
    rw [← hlen]
    exact ⟨rfl, outlen_of_unpad hr hdone⟩

end Sys2Proof.Machine
end

section
/-! PROOFS over spec/43_modes.md section 9: what a command gives on the result of another that the host
copied back into IN (R211, R216, R227). -/

namespace Sys2Proof.Machine

/-! ## Copying OUT into IN -/

theorem Memory.read_writeBytes_of_lt {m : Memory} (hm : Memory.wf m) {a x : Nat} (hx : x < a)
    (bs : List Byte) : Memory.read (Memory.writeBytes m a bs) x = Memory.read m x := by
  induction bs generalizing m a with
  | nil => rfl
  | cons b bs ih =>
    rw [Memory.writeBytes, ih (Memory.wf_write hm a b) (by omega), Memory.read_write hm,
      if_neg (by omega)]

theorem Memory.readBytes_writeBytes {m : Memory} (hm : Memory.wf m) (a : Nat) (bs : List Byte) :
    Memory.readBytes (Memory.writeBytes m a bs) a bs.length = bs := by
  induction bs generalizing m a with
  | nil => rfl
  | cons b bs ih =>
    have hm' := Memory.wf_write hm a b
    rw [Memory.writeBytes, List.length_cons, Memory.readBytes, ih hm',
      Memory.read_writeBytes_of_lt hm' (Nat.lt_succ_self a), Memory.read_write hm, if_pos rfl]

/-- `u` holds `r` in IN and everything else that a MODE command reads as `s` does. -/
structure HoldsResult (s u : State) (r : List Byte) : Prop where
  input : u.input = r
  iv : ∀ n ≤ 16, u.ivBytes n = s.ivBytes n
  keyReady : u.status.keyReady = s.status.keyReady
  threads : u.regs.threads = s.regs.threads
  seg : u.regs.seg = s.regs.seg
  ivlen : u.regs.ivlen = s.regs.ivlen
  tab : u.tab = s.tab
  key : u.key = s.key
  conf : u.conf = s.conf

theorem DataDone.holdsResult {s t : State} {k : Nat} {r : List Byte} (hmem : Memory.wf s.mem)
    (h : DataDone s t k r) : HoldsResult s t.copyBack r := by
  have houtlen := h.outlen
  obtain ⟨houtput, hregs, hstatus, -, hsame, htab, hkey, hconf, -⟩ := h
  refine ⟨?_, fun n hn => ?_, by simp [State.copyBack, hstatus], by simp [State.copyBack, hregs],
    by simp [State.copyBack, hregs], by simp [State.copyBack, hregs], htab, hkey, hconf⟩
  · show Memory.readBytes (Memory.writeBytes t.mem inBase t.output) inBase t.regs.outlen.toNat = r
    rw [houtput, houtlen, hsame, Memory.readBytes_writeBytes hmem]
  · show Memory.readBytes (Memory.writeBytes t.mem inBase t.output) ivBase n
      = Memory.readBytes s.mem ivBase n
    rw [hsame, Memory.readBytes_eq, Memory.readBytes_eq]
    refine List.map_congr_left fun i hi => Memory.read_writeBytes_of_lt hmem ?_ _
    rw [List.mem_range] at hi
    simp only [ivBase, inBase]
    omega

section HoldsResult

variable {s u : State} {r : List Byte} (h : HoldsResult s u r)
include h

theorem HoldsResult.inlen : u.regs.inlen.toNat = r.length := by
  rw [← State.length_input, h.input]

theorem HoldsResult.encBlock : u.encBlock = s.encBlock := by
  funext b
  rw [State.encBlock, State.encBlock, h.conf, h.tab, h.key]

theorem HoldsResult.decBlock : u.decBlock = s.decBlock := by
  funext b
  rw [State.decBlock, State.decBlock, h.conf, h.tab, h.key]

/-- The checks pass again when the result fits IN and is of whole units. -/
theorem HoldsResult.modeFault_eq_none {m : Nat} {par : Bool} (hpass : modeFault m false par s = none)
    (hcap : r.length ≤ s.conf.bufcap.val) (h16 : m = 0 ∨ m = 1 ∨ m = 2 → r.length % 16 = 0)
    (h32 : m = 6 → r.length % 32 = 0) (decrypt : Bool) : modeFault m decrypt par u = none := by
  obtain ⟨-, hready, hpar, hseg, hiv16, hiv8, -, -⟩ := modeFault_none hpass
  rw [modeFault, h.inlen, h.conf, h.keyReady, h.threads, h.seg, h.ivlen, if_neg (Nat.not_lt.2 hcap),
    if_neg (by rw [hready]; exact nofun), if_neg, if_neg, if_neg, if_neg, if_neg, if_neg, if_neg]
  · exact fun ⟨_, h6, hpart⟩ => hpart (h32 h6)
  · exact fun ⟨_, hm, hpart⟩ => hpart (h16 hm)
  · exact fun ⟨h5, hbad⟩ => hbad (hiv8 h5)
  · exact fun ⟨hm, hbad⟩ => hbad (hiv16 (by omega))
  · exact fun ⟨h3, hbad⟩ => hbad (hseg h3)
  · exact fun ⟨htrue, hbad⟩ => hbad (hpar htrue).2
  · exact fun ⟨htrue, h0, h5⟩ => (hpar htrue).1.elim h0 h5

end HoldsResult

/-- The command `j` on the result `c` of the command `i`, which it turns into `d`. -/
theorem exec_copyBack {i j : Instr} {m : Nat} {decrypt par : Bool} {s : State} {c d : List Byte}
    (hmem : s.MemOk) (hi : modeOf i = some (m, false, par)) (hj : modeOf j = some (m, decrypt, par))
    (hpass : modeFault m false par s = none) (hc : modeResult i s = .ok c)
    (hd : ∀ u, HoldsResult s u c → modeResult j u = .ok d) (hcap : c.length ≤ s.conf.bufcap.val)
    (h16 : m = 0 ∨ m = 1 ∨ m = 2 → c.length % 16 = 0) (h32 : m = 6 → c.length % 32 = 0) :
    ∃ t u, exec i s = .next t ∧ exec j t.copyBack = .next u ∧ u.status.err = .none ∧
      u.output = d := by
  obtain ⟨hwf, -⟩ := hmem
  obtain ⟨hfirst, -⟩ := exec_mode_of_pass hi hpass
  obtain ⟨t, k, ht, hdone⟩ := hfirst c hc
  have hholds := hdone.holdsResult hwf
  obtain ⟨hsecond, -⟩ := exec_mode_of_pass hj (hholds.modeFault_eq_none hpass hcap h16 h32 decrypt)
  obtain ⟨u, k', hu, hdone'⟩ := hsecond d (hd _ hholds)
  exact ⟨t, u, ht, hu, by rw [hdone'.status], hdone'.output⟩

/-! ## The modes without padding -/

theorem segAt_assemble_short {n m : Nat} {f : Nat → List Byte} (h : ∀ i < n, (f i).length = m)
    (hlast : (f n).length ≤ m) {i : Nat} (hi : i ≤ n) : segAt m (assemble (n + 1) f) i = f i := by
  have hlen := length_assemble h
  rw [assemble_succ]
  obtain rfl | hlt := hi.eq_or_lt
  · rw [segAt, ← hlen, List.drop_left, List.take_of_length_le hlast]
  · have hle : m * i + m ≤ m * n := Nat.mul_le_mul_left m hlt
    rw [← segAt_assemble h i hlt, segAt, segAt, List.drop_append_of_le_length (by omega),
      List.take_append_of_le_length (by rw [List.length_drop]; omega)]

section Stream

variable {m : Nat} (hm : 0 < m) {K : Nat → List Byte} (hK : ∀ i, m ≤ (K i).length) (d : List Byte)
include hK

/-- The pieces of the result are those the command delivered. -/
theorem segAt_streamXor {i : Nat} (hi : i < (d.length + (m - 1)) / m) :
    segAt m (streamXor m K d) i = keystreamPiece m K d i := by
  obtain ⟨n, hn⟩ : ∃ n, (d.length + (m - 1)) / m = n + 1 := ⟨_, (Nat.succ_pred (by omega)).symm⟩
  rw [streamXor, hn]
  refine segAt_assemble_short (fun j hj => ?_) ?_ (by omega)
  · rw [length_keystreamPiece hK, length_segAt_of_next (by omega)]
  · rw [length_keystreamPiece hK, length_segAt]
    exact Nat.min_le_left ..

include hm

/-- XOR with the same keystream gives the data back. -/
theorem streamXor_streamXor : streamXor m K (streamXor m K d) = d := by
  have hpiece {i : Nat} (hi : i < (d.length + (m - 1)) / m) :
      keystreamPiece m K (streamXor m K d) i = segAt m d i := by
    have hlen := length_keystreamPiece hK d i
    have hshort := hK i
    rw [keystreamPiece, segAt_streamXor hK d hi, hlen, keystreamPiece, xorBytes_cancel]
    rw [List.length_take, length_segAt]
    omega
  rw [streamXor, length_streamXor hm hK, assemble_congr fun i hi => hpiece hi, assemble_pieces hm]

end Stream

/-- The register of CFB.DEC on the result of CFB.ENC takes the same segments (R205, R206). -/
theorem cfbDecReg_streamXor {E : List Byte → List Byte} {n : Nat}
    (hE : ∀ b, n ≤ (E b).length) (iv d : List Byte) {i : Nat} (hi : i ≤ (d.length + (n - 1)) / n) :
    cfbDecReg n iv (streamXor n (fun i => E (cfbEncReg E n iv d i)) d) i = cfbEncReg E n iv d i := by
  induction i with
  | zero => rfl
  | succ i ih =>
    rw [cfbDecReg, ih (by omega), segAt_streamXor (fun i => hE _) d hi]
    rfl

/-- The decrypt command, or for OFB and CTR also the encrypt command, on the result of the encrypt command
of a mode without padding. -/
theorem exec_copyBack_streamXor {i j : Instr} {m : Nat} {decrypt par : Bool} {s : State} (hmem : s.MemOk)
    (hi : modeOf i = some (m, false, par)) (hj : modeOf j = some (m, decrypt, par))
    (hm : m = 3 ∨ m = 4 ∨ m = 5) (hpass : modeFault m false par s = none) {n : Nat} (hn : 0 < n)
    {K : Nat → List Byte} (hK : ∀ i, n ≤ (K i).length) (hc : modeResult i s = .ok (streamXor n K s.input))
    (hd : ∀ u, HoldsResult s u (streamXor n K s.input) →
      modeResult j u = .ok (streamXor n K (streamXor n K s.input))) :
    ∃ t u, exec i s = .next t ∧ exec j t.copyBack = .next u ∧ u.status.err = .none ∧
      u.output = s.input := by
  obtain ⟨hcap, -⟩ := modeFault_none hpass
  have hlen := (length_streamXor hn hK s.input).trans s.length_input
  rw [streamXor_streamXor hn hK] at hd
  exact exec_copyBack hmem hi hj hpass hc hd (hlen.trans_le hcap) (by omega) (by omega)

theorem cfb_roundTrip {par : Bool} {s : State} (hmem : s.MemOk) (hpass : modeFault 3 false par s = none) :
    ∃ t u, exec (.cfbEnc par) s = .next t ∧ exec (.cfbDec par) t.copyBack = .next u ∧
      u.status.err = .none ∧ u.output = s.input := by
  obtain ⟨-, -, -, hseg, -⟩ := modeFault_none hpass
  obtain ⟨hpos, hle⟩ := hseg rfl
  have hE (b : List Byte) : s.regs.seg.toNat ≤ (s.encBlock b).length := hle
  refine exec_copyBack_streamXor hmem rfl rfl (.inl rfl) hpass hpos (fun i => hE _)
    (modeResult_cfbEnc par s) fun u hu => ?_
  rw [modeResult_cfbDec, hu.seg, hu.encBlock, hu.iv 16 le_rfl, hu.input]
  refine congrArg _ (streamXor_congr fun i hi => ?_)
  rw [length_streamXor hpos fun i => hE _] at hi
  rw [cfbDecReg_streamXor hE _ _ hi.le]

theorem ofb_roundTrip {j : Instr} {decrypt par : Bool} {s : State} (hmem : s.MemOk)
    (hpass : modeFault 4 false par s = none) (hj : j = .ofbEnc par ∨ j = .ofbDec par)
    (hmode : modeOf j = some (4, decrypt, par)) :
    ∃ t u, exec (.ofbEnc par) s = .next t ∧ exec j t.copyBack = .next u ∧
      u.status.err = .none ∧ u.output = s.input := by
  refine exec_copyBack_streamXor hmem rfl hmode (.inr (.inl rfl)) hpass (Nat.succ_pos 15)
    (fun _ => (length_encBlock s _).ge) (modeResult_ofb (.inl rfl) s) fun u hu => ?_
  rw [modeResult_ofb hj, hu.encBlock, hu.iv 16 le_rfl, hu.input]

theorem ctr_roundTrip {j : Instr} {decrypt par : Bool} {s : State} (hmem : s.MemOk)
    (hpass : modeFault 5 false par s = none) (hj : j = .ctrEnc par ∨ j = .ctrDec par)
    (hmode : modeOf j = some (5, decrypt, par)) :
    ∃ t u, exec (.ctrEnc par) s = .next t ∧ exec j t.copyBack = .next u ∧
      u.status.err = .none ∧ u.output = s.input := by
  refine exec_copyBack_streamXor hmem rfl hmode (.inr (.inr rfl)) hpass (Nat.succ_pos 15)
    (fun _ => (length_encBlock s _).ge) (modeResult_ctr (.inl rfl) s) fun u hu => ?_
  rw [modeResult_ctr hj, hu.encBlock, hu.iv 8 (by decide), hu.input]

/-- Settles O46: the keystream does not depend on the data, so the second XOR takes the first back. -/
theorem keystreamInvolution : Obligations.KeystreamInvolution := by
  refine ⟨fun par s => ⟨exec_ofbDec par s, exec_ctrDec par s⟩, fun s hmem hpass => ?_,
    fun par s hmem hpass => ?_⟩
  · obtain ⟨t, u, ht, hu, -, hout⟩ := ofb_roundTrip hmem hpass (.inl rfl) rfl
    exact ⟨t, u, ht, hu, hout⟩
  · obtain ⟨t, u, ht, hu, -, hout⟩ := ctr_roundTrip hmem hpass (.inl rfl) rfl
    exact ⟨t, u, ht, hu, hout⟩

/-! ## The padded modes: deciphering the result of the encrypt command -/

theorem assemble_eq_of_blocks {d : List Byte} {n : Nat} (hd : d.length = 16 * n) {f : Nat → List Byte}
    (h : ∀ i < n, f i = blockAt d i) : assemble n f = d := by
  rw [assemble_congr h]
  exact (assemble_segAt 16 d n).trans (List.take_of_length_le hd.le)

theorem length_blockAt_of_whole {d : List Byte} {n i : Nat} (hd : d.length = 16 * n) (hi : i < n) :
    (blockAt d i).length = 16 := by
  rw [length_blockAt]
  omega

section Chains

variable {E D : List Byte → List Byte} (hE : ∀ b, (E b).length = 16)
  (hD : ∀ b, b.length = 16 → D (E b) = b) {iv pd : List Byte} (hiv : iv.length = 16) {n : Nat}
  (hpd : pd.length = 16 * n)

include hD in
/-- Deciphering a block that was XORed with `k` before E, and XORing again. -/
theorem xorBytes_deciphered {b k : List Byte} (hb : b.length = 16) (hk : k.length = 16) :
    xorBytes (D (E (xorBytes b k))) k = b := by
  rw [hD _ (by rw [length_xorBytes, hb, hk]; rfl), xorBytes_cancel b k (hb.trans hk.symm).le]

include hE

/-- The blocks of a result of CBC.ENC, and of PCBC.ENC. -/
theorem blockAt_cbcReg {i : Nat} (hi : i < n) :
    blockAt (assemble n fun i => cbcReg E iv pd (i + 1)) i = cbcReg E iv pd (i + 1) :=
  segAt_assemble (fun _ _ => hE _) i hi

theorem blockAt_pcbcChain {i : Nat} (hi : i < n) :
    blockAt (assemble n fun i => (pcbcChain E iv pd i).2) i = (pcbcChain E iv pd i).2 :=
  segAt_assemble (m := 16) (fun i _ => by rw [pcbcChain_snd, hE]) i hi

/-- The register of CBC.DEC on the result of CBC.ENC is that of CBC.ENC. -/
theorem cbcDecReg_cbcReg {i : Nat} (hi : i < n) :
    cbcDecReg iv (assemble n fun i => cbcReg E iv pd (i + 1)) i = cbcReg E iv pd i := by
  cases i with
  | zero => rfl
  | succ i => exact blockAt_cbcReg hE (by omega)

include hD hpd

theorem ecb_deciphered :
    (assemble n fun i => D (blockAt (assemble n fun i => E (blockAt pd i)) i)) = pd := by
  refine assemble_eq_of_blocks hpd fun i hi => ?_
  rw [blockAt_eq_segAt _ i, segAt_assemble (fun i _ => hE _) i hi,
    hD _ (length_blockAt_of_whole hpd hi)]

theorem rd_deciphered {mask : Nat → List Byte} (hmask : ∀ i, (mask i).length = 16) :
    assemble n (rdPlain D (assemble n (rdOut E mask pd))) = pd := by
  have hunit : ∀ i < n, (rdOut E mask pd i).length = 32 := fun i _ => by simp [rdOut, hmask, hE]
  refine assemble_eq_of_blocks hpd fun i hi => ?_
  rw [← rdDecStep_segAt D ModeState.cleared, segAt_assemble hunit i hi, rdDecStep, rdOut,
    List.drop_left' (hmask i), List.take_left' (hmask i),
    xorBytes_deciphered hD (length_blockAt_of_whole hpd hi) (hmask i)]

include hiv

theorem cbc_deciphered :
    assemble n (cbcPlain D iv (assemble n fun i => cbcReg E iv pd (i + 1))) = pd := by
  refine assemble_eq_of_blocks hpd fun i hi => ?_
  have hreg : (cbcReg E iv pd i).length = 16 := by
    cases i with
    | zero => exact hiv
    | succ i => exact hE _
  rw [cbcPlain_eq, cbcDecReg_cbcReg hE hi, blockAt_cbcReg hE hi, cbcReg,
    xorBytes_deciphered hD (length_blockAt_of_whole hpd hi) hreg]

theorem pcbcPlain_pcbcChain {i : Nat} (hi : i < n) :
    pcbcPlain D iv (assemble n fun i => (pcbcChain E iv pd i).2) i = blockAt pd i := by
  have hfb {j : Nat} (hj : j < n) : (pcbcChain E iv pd j).1.length = 16 := by
    cases j with
    | zero => exact hiv
    | succ j =>
      rw [pcbcChain_fst_succ, length_xorBytes, pcbcChain_snd, hE,
        length_blockAt_of_whole hpd (by omega : j < n)]
      rfl
  have hstep {j : Nat} (hj : j < n) :
      xorBytes (D (blockAt (assemble n fun i => (pcbcChain E iv pd i).2) j)) (pcbcChain E iv pd j).1
        = blockAt pd j := by
    rw [blockAt_pcbcChain hE hj, pcbcChain_snd, xorBytes_deciphered hD (length_blockAt_of_whole hpd hj) (hfb hj)]
  induction i with
  | zero => exact hstep hi
  | succ i ih =>
    rw [pcbcPlain, ih (by omega), blockAt_pcbcChain hE (by omega : i < n), ← pcbcChain_fst_succ]
    exact hstep hi

theorem pcbc_deciphered :
    assemble n (pcbcPlain D iv (assemble n fun i => (pcbcChain E iv pd i).2)) = pd :=
  assemble_eq_of_blocks hpd fun _ => pcbcPlain_pcbcChain hE hD hiv hpd

end Chains

theorem decBlock_encBlock (s : State) {b : List Byte} (hb : b.length = 16) :
    s.decBlock (s.encBlock b) = b := by
  obtain ⟨h, -⟩ := blockRoundTrip s.conf.cipher s.tab s.key.sboxWords s.key.k.toList b hb
  exact h

theorem State.length_pd_eq_mul (p : Scheme) (s : State) :
    (s.pd p).length = 16 * ((s.pd p).length / 16) := by
  have hwhole := add_padLen_mod s.regs.inlen.toNat
  rw [← s.length_pd p] at hwhole
  omega

/-- Each padded mode deciphers the result of its encrypt command to the padded input. -/
theorem deciphered_of_holdsResult {par : Bool} {p : Scheme} {s u : State} {c : Nat × Instr × Instr}
    (hc : c ∈ [(0, Instr.ecbEnc par p, Instr.ecbDec par p), (1, .cbcEnc par p, .cbcDec par p),
      (2, .pcbcEnc par p, .pcbcDec par p), (6, .rdEnc par p, .rdDec par p)]) {r : List Byte}
    (hr : modeResult c.2.1 s = .ok r) (h : HoldsResult s u r) : u.deciphered c.1 = s.pd p := by
  have hpd := s.length_pd_eq_mul p
  have hE := length_encBlock s
  have hD (b : List Byte) (hb : b.length = 16) : s.decBlock (s.encBlock b) = b :=
    decBlock_encBlock s hb
  have hiv := s.length_ivBytes 16
  have hunits {m : Nat} (hm : 0 < m) {f : Nat → List Byte} (hf : ∀ i, (f i).length = m) :
      (assemble ((s.pd p).length / 16) f).length / m = (s.pd p).length / 16 := by
    rw [length_assemble fun i _ => hf i, Nat.mul_div_cancel_left _ hm]
  simp only [List.mem_cons, List.not_mem_nil, or_false] at hc
  obtain rfl | rfl | rfl | rfl := hc
  all_goals cases hr
  all_goals simp only [State.deciphered, h.inlen, h.input, h.decBlock, h.iv 16 le_rfl]
  · exact (congrArg (assemble · _) (hunits (by decide) fun _ => hE _)).trans (ecb_deciphered hE hD hpd)
  · exact (congrArg (assemble · _) (hunits (by decide) fun _ => hE _)).trans
      (cbc_deciphered hE hD hiv hpd)
  · exact (congrArg (assemble · _) (hunits (by decide) fun i => by rw [pcbcChain_snd, hE])).trans
      (pcbc_deciphered hE hD hiv hpd)
  · have hmask := s.length_maskAt p
    exact (congrArg (assemble · _) (hunits (by decide) fun i => by simp [rdOut, hmask])).trans
      (rd_deciphered hE hD hpd hmask)

/-- The length of a padded encrypt command's result, whose bounds are those of R227. -/
theorem length_modeResult_enc {par : Bool} {p : Scheme} {s : State} {c : Nat × Instr × Instr}
    (hc : c ∈ [(0, Instr.ecbEnc par p, Instr.ecbDec par p), (1, .cbcEnc par p, .cbcDec par p),
      (2, .pcbcEnc par p, .pcbcDec par p), (6, .rdEnc par p, .rdDec par p)]) {r : List Byte}
    (hr : modeResult c.2.1 s = .ok r) :
    r.length = (if c.1 = 6 then 2 else 1) * (s.regs.inlen.toNat + padLen s.regs.inlen.toNat) := by
  simp only [List.mem_cons, List.not_mem_nil, or_false] at hc
  obtain rfl | rfl | rfl | rfl := hc
  · exact (length_modeResult_padded rfl hr (by decide)).trans (Nat.one_mul _).symm
  · exact (length_modeResult_padded rfl hr (by decide)).trans (Nat.one_mul _).symm
  · exact (length_modeResult_padded rfl hr (by decide)).trans (Nat.one_mul _).symm
  · exact length_modeResult_rdEnc hr

theorem padded_roundTrip {par : Bool} {p : Scheme} {s : State} (hmem : s.MemOk) {c : Nat × Instr × Instr}
    (hc : c ∈ [(0, Instr.ecbEnc par p, Instr.ecbDec par p), (1, .cbcEnc par p, .cbcDec par p),
      (2, .pcbcEnc par p, .pcbcDec par p), (6, .rdEnc par p, .rdDec par p)])
    (hpass : modeFault c.1 false par s = none)
    (hcap : if c.1 = 6 then 2 * s.regs.inlen.toNat + 32 ≤ s.conf.bufcap.val
      else s.regs.inlen.toNat + 16 ≤ s.conf.bufcap.val) :
    ∃ t u, exec c.2.1 s = .next t ∧ exec c.2.2 t.copyBack = .next u ∧ u.status.err = .none ∧
      u.output = if p = .zero then stripZeros s.input else s.input := by
  obtain ⟨hmode, hmode', hunpad, r, hr⟩ : modeOf c.2.1 = some (c.1, false, par) ∧
      modeOf c.2.2 = some (c.1, true, par) ∧
      (∀ s, modeResult c.2.2 s = unpadBytes p (s.deciphered c.1)) ∧ ∃ r, modeResult c.2.1 s = .ok r := by
    simp only [List.mem_cons, List.not_mem_nil, or_false] at hc
    obtain rfl | rfl | rfl | rfl := hc
    all_goals exact ⟨rfl, rfl, fun _ => rfl, _, rfl⟩
  have hlen := length_modeResult_enc hc hr
  obtain ⟨-, hpad⟩ := padLen_le s.regs.inlen.toNat
  have hwhole := add_padLen_mod s.regs.inlen.toNat
  refine exec_copyBack hmem hmode hmode' hpass hr (fun u hu => ?_) ?_ (fun hm => ?_) fun hm => ?_
  · rw [hunpad, deciphered_of_holdsResult hc hr hu, State.unpadBytes_pd]
  · split_ifs at hlen hcap <;> omega
  · rw [if_neg (by omega)] at hlen
    omega
  · rw [if_pos hm] at hlen
    omega

/-- Settles O47: a padded mode deciphers its own result to the padded input, which unpad takes back; a mode
without padding XORs with the same keystream. -/
theorem modeRoundTrip : Obligations.ModeRoundTrip := by
  intro par p s hmem
  refine ⟨fun c hc hpass hcap => ?_, fun c hc hpass => ?_⟩
  · obtain ⟨t, u, ht, hu, herr, hout⟩ := padded_roundTrip hmem hc hpass hcap
    refine ⟨t, u, ht, hu, herr, ?_⟩
    rw [hout]
    split <;> rfl
  · simp only [List.mem_cons, List.not_mem_nil, or_false] at hc
    obtain rfl | rfl | rfl := hc
    · exact cfb_roundTrip hmem hpass
    · exact ofb_roundTrip hmem hpass (.inr rfl) rfl
    · exact ctr_roundTrip hmem hpass (.inr rfl) rfl

end Sys2Proof.Machine
end

section
/-! PROOFS over spec/20_memory.md section 6: the key is latched, so only KEY.SETUP reads the KEY window
(R74, R286). -/

namespace Sys2Proof.Machine

/-- `s` with other contents of the windows the host writes. -/
def State.withMem (m : Memory) (s : State) : State := { s with mem := m }

/-- `m` differs from the memory of `s` in KEY only. -/
def State.SameButKey (s : State) (m : Memory) : Prop :=
  ∀ a, ¬(0x40 ≤ a ∧ a ≤ 0x5F) → Memory.read m a = Memory.read s.mem a

/-- The command `run` leads from `s` with other windows to the same state with those windows. -/
def KeepsMem (run : State → Host.Outcome State Fault Refusal) (m : Memory) (s : State) : Prop :=
  ∃ t, run s = .next t ∧ run (s.withMem m) = .next (t.withMem m)

variable {s : State} {m : Memory}

/-! ## What a command reads of the windows -/

section Reads

variable (h : s.SameButKey m)
include h

/-- IV and IN lie above KEY. -/
theorem readBytes_sameButKey {a : Nat} (ha : 0x5F < a) (n : Nat) :
    Memory.readBytes m a n = Memory.readBytes s.mem a n := by
  rw [Memory.readBytes_eq, Memory.readBytes_eq]
  exact List.map_congr_left fun i _ => h (a + i) (by omega)

theorem State.input_withMem : (s.withMem m).input = s.input :=
  readBytes_sameButKey h (by decide) _

theorem State.ivBytes_withMem (n : Nat) : (s.withMem m).ivBytes n = s.ivBytes n :=
  readBytes_sameButKey h (by decide) n

theorem State.paddedInput_withMem (p : Scheme) : (s.withMem m).paddedInput p = s.paddedInput p := by
  rw [State.paddedInput, State.paddedInput, State.input_withMem h]
  rfl

end Reads

/-! ## The shared shapes of the commands -/

theorem keepsMem_fieldCommand (r : Except ErrCode Byte) : KeepsMem (fieldCommand r) m s := by
  cases hready : s.status.feReady with
  | false => exact ⟨_, fieldCommand_notReady hready r, fieldCommand_notReady (s := s.withMem m) hready r⟩
  | true =>
    cases r with
    | ok v => exact ⟨_, fieldCommand_ok hready v, fieldCommand_ok (s := s.withMem m) hready v⟩
    | error e =>
      refine ⟨s.raise false e, ?_, ?_⟩
      · rw [fieldCommand, hready]
        rfl
      · rw [fieldCommand, State.withMem, hready]
        rfl

theorem keepsMem_feInit : KeepsMem (exec .feInit) m s := by
  cases hgen : s.conf.genOf s.regs.poly with
  | none => exact ⟨_, exec_feInit_of_none hgen, exec_feInit_of_none (s := s.withMem m) hgen⟩
  | some g => exact ⟨_, exec_feInit_of_some hgen, exec_feInit_of_some (s := s.withMem m) hgen⟩

theorem keepsMem_padCommand (h : s.SameButKey m) (p : Scheme) : KeepsMem (padCommand p) m s := by
  cases hlong : s.inputTooLong with
  | true => exact ⟨_, if_pos hlong, if_pos hlong⟩
  | false =>
    have hshort : ¬s.inputTooLong = true := Bool.eq_false_iff.1 hlong
    refine ⟨_, if_neg hshort, ?_⟩
    rw [padCommand, State.paddedInput_withMem h]
    exact if_neg hshort

theorem keepsMem_unpadCommand (h : s.SameButKey m) (p : Scheme) : KeepsMem (unpadCommand p) m s := by
  cases hlong : s.inputTooLong with
  | true => exact ⟨_, if_pos hlong, if_pos hlong⟩
  | false =>
    have hshort : ¬s.inputTooLong = true := Bool.eq_false_iff.1 hlong
    rw [KeepsMem, unpadCommand, unpadCommand, State.input_withMem h, if_neg hshort]
    cases hr : unpadBytes p s.input with
    | error e => exact ⟨_, rfl, if_neg hshort⟩
    | ok r => exact ⟨_, rfl, if_neg hshort⟩

theorem keepsMem_blockCommand (h : s.SameButKey m) {F : State → List Byte → List Byte}
    (hF : F (s.withMem m) = F s) : KeepsMem (fun s => blockCommand (F s) s) m s := by
  have hchecks : blockChecks (s.withMem m) = blockChecks s := rfl
  cases hcheck : firstFault (blockChecks s) with
  | some e =>
    have hfault (u : State) (hu : firstFault (blockChecks u) = some e) :
        blockCommand (F u) u = .next (u.raise true e) := by rw [blockCommand, hu]
    exact ⟨_, hfault s hcheck, hfault (s.withMem m) (hchecks ▸ hcheck)⟩
  | none =>
    refine ⟨_, blockCommand_of_none hcheck _, (blockCommand_of_none (hchecks ▸ hcheck) _).trans ?_⟩
    rw [hF, State.input_withMem h]
    rfl

theorem State.finishMode_withMem (r : Except ErrCode (List Byte)) (u : State) :
    (u.withMem m).finishMode r = (u.finishMode r).withMem m := by
  cases r <;> rfl

/-- A MODE command whose work runs the pieces of a buffer and ends with the result. -/
theorem keepsMem_modeCommand (needs : ModeNeeds) (par : Bool) {g : State → List Byte × State}
    {r : List Byte → Except ErrCode (List Byte)}
    (hg : g (s.withMem m) = ((g s).1, (g s).2.withMem m)) :
    KeepsMem (modeCommand needs par fun s => (g s).2.finishMode (r (g s).1)) m s := by
  have hchecks : modeChecks needs par (s.withMem m) = modeChecks needs par s := rfl
  cases hcheck : firstFault (modeChecks needs par s) with
  | some e => exact ⟨_, modeCommand_fail hcheck, modeCommand_fail (hchecks ▸ hcheck)⟩
  | none =>
    refine ⟨_, modeCommand_pass hcheck, ?_⟩
    rw [modeCommand_pass (hchecks ▸ hcheck), hg, State.finishMode_withMem]

theorem State.runIndependent_withMem (par : Bool) (X : ChunkTransform) (f : BlockStep) (st : ModeState)
    (ps : List (List Byte)) (u : State) : (u.withMem m).runIndependent par X f st ps =
      ((u.runIndependent par X f st ps).1, (u.runIndependent par X f st ps).2.withMem m) := by
  cases par <;> rfl

/-! ## The work of the MODE commands -/

section Modes

variable (h : s.SameButKey m) (par : Bool) (p : Scheme)
include h

theorem keepsMem_execEcbEnc : KeepsMem (execEcbEnc par p) m s :=
  keepsMem_modeCommand ecbEncNeeds par (r := .ok)
    (g := fun s => (s.skipFiller p).runIndependent par (fun _ c => s.encBlock c) (ecbStep s.encBlock)
      ModeState.cleared (pieces 16 (s.paddedInput p)))
    (by rw [State.paddedInput_withMem h]
        exact State.runIndependent_withMem _ _ _ _ _ (s.skipFiller p))

theorem keepsMem_execEcbDec : KeepsMem (execEcbDec par p) m s :=
  keepsMem_modeCommand ecbDecNeeds par (r := unpadBytes p)
    (g := fun s => s.runIndependent par (fun _ c => s.decBlock c) (ecbStep s.decBlock)
      ModeState.cleared (pieces 16 s.input))
    (by rw [State.input_withMem h]
        exact State.runIndependent_withMem ..)

theorem keepsMem_runCtr : KeepsMem (modeCommand ctrNeeds par (State.runCtr par)) m s :=
  keepsMem_modeCommand ctrNeeds par (r := .ok)
    (g := fun s => s.runIndependent par (ctrChunk s.encBlock (s.ivBytes 8)) (ctrStep s.encBlock)
      (ModeState.withNonce (s.ivBytes 8)) (pieces 16 s.input))
    (by rw [State.input_withMem h, State.ivBytes_withMem h]
        exact State.runIndependent_withMem ..)

theorem keepsMem_execRdEnc : KeepsMem (execRdEnc par p) m s :=
  keepsMem_modeCommand rdEncNeeds par (r := .ok) (g := State.runRdEnc p)
    (by rw [State.runRdEnc, State.paddedInput_withMem h]
        rfl)

variable (needs : ModeNeeds) {F : State → BlockStep} {M : State → ModeState}
  (hF : F (s.withMem m) = F s) (hM : M (s.withMem m) = M s)
include hF hM

theorem keepsMem_padThenRun :
    KeepsMem (modeCommand needs par fun s => s.padThenRun p (F s) (M s)) m s :=
  keepsMem_modeCommand needs par (r := .ok)
    (g := fun s => (s.skipFiller p).runSequential (F s) (M s) (pieces 16 (s.paddedInput p)))
    (by rw [State.paddedInput_withMem h, hF, hM]
        rfl)

theorem keepsMem_runThenUnpad (n : Nat) :
    KeepsMem (modeCommand needs par fun s => s.runThenUnpad p n (F s) (M s)) m s :=
  keepsMem_modeCommand needs par (r := unpadBytes p)
    (g := fun s => s.runSequential (F s) (M s) (pieces n s.input))
    (by rw [State.input_withMem h, hF, hM]
        rfl)

theorem keepsMem_runUnpadded {n : State → Nat} (hn : n (s.withMem m) = n s) :
    KeepsMem (modeCommand needs par fun s => s.runUnpadded (n s) (F s) (M s)) m s :=
  keepsMem_modeCommand needs par (r := .ok)
    (g := fun s => s.runSequential (F s) (M s) (pieces (n s) s.input))
    (by rw [State.input_withMem h, hF, hM, hn]
        rfl)

end Modes

/-! ## Every command but KEY.SETUP and SYS.RESET -/

theorem keepsMem_exec {i : Instr} (hkey : i ≠ .keySetup) (hreset : i ≠ .sysReset)
    (h : s.SameButKey m) : KeepsMem (exec i) m s := by
  have hiv : ModeState.withIv ((s.withMem m).ivBytes 16) = ModeState.withIv (s.ivBytes 16) := by
    rw [State.ivBytes_withMem h]
  cases i with
  | sysReset => exact absurd rfl hreset
  | keySetup => exact absurd rfl hkey
  | feInit => exact keepsMem_feInit
  | feAdd a b | feSub a b => exact keepsMem_fieldCommand (.ok (a ^^^ b))
  | feMul a b => exact keepsMem_fieldCommand (.ok (gfMul s.tab a b))
  | feDiv a b => exact keepsMem_fieldCommand (gfDiv s.tab a b)
  | fePow a n => exact keepsMem_fieldCommand (.ok (gfPow s.tab a n))
  | feInv a => exact keepsMem_fieldCommand (gfInv s.tab a)
  | mode7Enc | mode7Dec => exact ⟨_, rfl, rfl⟩
  | blkEnc => exact keepsMem_blockCommand h (F := State.encBlock) rfl
  | blkDec => exact keepsMem_blockCommand h (F := State.decBlock) rfl
  | padZero | padAnsi | padPkcs7 | padIso => exact keepsMem_padCommand h _
  | unpadZero | unpadAnsi | unpadPkcs7 | unpadIso => exact keepsMem_unpadCommand h _
  | ecbEnc par p => exact keepsMem_execEcbEnc h par p
  | ecbDec par p => exact keepsMem_execEcbDec h par p
  | ctrEnc par | ctrDec par => exact keepsMem_runCtr h par
  | rdEnc par p => exact keepsMem_execRdEnc h par p
  | cbcEnc par p =>
    exact keepsMem_padThenRun h par p cbcEncNeeds (F := fun s => cbcEncStep s.encBlock)
      (M := fun s => ModeState.withIv (s.ivBytes 16)) rfl hiv
  | pcbcEnc par p =>
    exact keepsMem_padThenRun h par p pcbcEncNeeds (F := fun s => pcbcEncStep s.encBlock)
      (M := fun s => ModeState.withIv (s.ivBytes 16)) rfl hiv
  | cbcDec par p =>
    exact keepsMem_runThenUnpad h par p cbcDecNeeds (F := fun s => cbcDecStep s.decBlock)
      (M := fun s => ModeState.withIv (s.ivBytes 16)) rfl hiv 16
  | pcbcDec par p =>
    exact keepsMem_runThenUnpad h par p pcbcDecNeeds (F := fun s => pcbcDecStep s.decBlock)
      (M := fun s => ModeState.withIv (s.ivBytes 16)) rfl hiv 16
  | rdDec par p =>
    exact keepsMem_runThenUnpad h par p rdDecNeeds (F := fun s => rdDecStep s.decBlock)
      (M := fun _ => ModeState.cleared) rfl rfl 32
  | cfbEnc par =>
    exact keepsMem_runUnpadded h par cfbNeeds
      (F := fun s => cfbEncStep s.encBlock s.regs.seg.toNat)
      (M := fun s => ModeState.withIv (s.ivBytes 16)) (n := fun s => s.regs.seg.toNat) rfl hiv rfl
  | cfbDec par =>
    exact keepsMem_runUnpadded h par cfbNeeds
      (F := fun s => cfbDecStep s.encBlock s.regs.seg.toNat)
      (M := fun s => ModeState.withIv (s.ivBytes 16)) (n := fun s => s.regs.seg.toNat) rfl hiv rfl
  | ofbEnc par | ofbDec par =>
    exact keepsMem_runUnpadded h par ofbNeeds (F := fun s => ofbStep s.encBlock)
      (M := fun s => ModeState.withIv (s.ivBytes 16)) (n := fun _ => 16) rfl hiv rfl

/-- Settles O58: what a command other than KEY.SETUP reads of the windows lies in IV and IN. -/
theorem keyWindowNotRead : Obligations.KeyWindowNotRead :=
  fun _ _ _ hkey hreset h => keepsMem_exec hkey hreset h

end Sys2Proof.Machine
end

section
/-! PROOFS over spec/60_exceptions.md section 2: a command that faulted faults again (R260). -/

namespace Sys2Proof.Machine

/-! ## What decides the error of a command -/

/-- `u` agrees with `s` on all that decides whether and how a command faults. -/
structure SameReads (s u : State) : Prop where
  conf : u.conf = s.conf
  mem : u.mem = s.mem
  tab : u.tab = s.tab
  key : u.key = s.key
  feReady : u.status.feReady = s.status.feReady
  keyReady : u.status.keyReady = s.status.keyReady
  poly : u.regs.poly = s.regs.poly
  threads : u.regs.threads = s.regs.threads
  seg : u.regs.seg = s.regs.seg
  keylen : u.regs.keylen = s.regs.keylen
  ivlen : u.regs.ivlen = s.regs.ivlen
  inlen : u.regs.inlen = s.regs.inlen

theorem Transient.sameReads {s u : State} (h : Transient s u) : SameReads s u :=
  ⟨h.conf, h.mem, h.tab, h.key, congrArg _ h.status, congrArg _ h.status, congrArg _ h.regs,
    congrArg _ h.regs, congrArg _ h.regs, congrArg _ h.regs, congrArg _ h.regs, congrArg _ h.regs⟩

/-- A fault writes ERR, FLT, OUT and OUTLEN, and what ERR and FLT hold is not read. -/
theorem SameReads.raise_withFlags {s u : State} (h : SameReads s u) (data : Bool) (c e : ErrCode)
    (f : Bool) : SameReads s ((u.raise data c).withFlags e f) := by
  obtain ⟨hconf, hmem, htab, hkey, hfe, hready, hpoly, hthreads, hseg, hkeylen, hivlen, hinlen⟩ := h
  cases data
  all_goals exact ⟨hconf, hmem, htab, hkey, hfe, hready, hpoly, hthreads, hseg, hkeylen, hivlen, hinlen⟩

section SameReads

variable {s u : State} (h : SameReads s u)
include h

theorem SameReads.input : u.input = s.input := by
  rw [State.input, State.input, h.mem, h.inlen]

theorem SameReads.ivBytes (n : Nat) : u.ivBytes n = s.ivBytes n := by
  rw [State.ivBytes, State.ivBytes, h.mem]

theorem SameReads.inputTooLong : u.inputTooLong = s.inputTooLong := by
  rw [State.inputTooLong, State.inputTooLong, h.conf, h.inlen]

theorem SameReads.modeFault (m : Nat) (decrypt par : Bool) :
    modeFault m decrypt par u = modeFault m decrypt par s := by
  rw [Machine.modeFault, Machine.modeFault, h.conf, h.keyReady, h.threads, h.seg, h.ivlen, h.inlen]

theorem SameReads.firstFault_blockChecks :
    firstFault (blockChecks u) = firstFault (blockChecks s) := by
  rw [Machine.firstFault_blockChecks, Machine.firstFault_blockChecks, h.conf, h.keyReady, h.inlen]

theorem SameReads.deciphered (m : Nat) : u.deciphered m = s.deciphered m := by
  have hdec : u.decBlock = s.decBlock := by
    funext b
    rw [State.decBlock, State.decBlock, h.conf, h.tab, h.key]
  rw [State.deciphered, State.deciphered, hdec, h.input, h.ivBytes, h.inlen]

end SameReads

/-! ## The same error twice -/

/-- The error of a result that may be one. -/
def errorOf {α : Type} : Except ErrCode α → Option ErrCode
  | .ok _ => none
  | .error e => some e

/-- The outcome `o` is a next state with the error `r`, or with ERR 0 for none. -/
def Reports (o : Host.Outcome State Fault Refusal) (r : Option ErrCode) : Prop :=
  ∃ t, o = .next t ∧ t.status.err = r.getD .none

theorem reports_raise (data : Bool) (c : ErrCode) (s : State) :
    Reports (.next (s.raise data c)) (some c) :=
  ⟨_, rfl, by rw [State.raise_status]; rfl⟩

theorem reports_endsWithResult {o : Host.Outcome State Fault Refusal} {s : State}
    {r : Except ErrCode (List Byte)} (h : EndsWithResult o s r) : Reports o (errorOf r) := by
  obtain ⟨hok, herr⟩ := h
  cases r with
  | ok out =>
    obtain ⟨t, k, ht, hdone⟩ := hok out rfl
    exact ⟨t, ht, by rw [hdone.status]; rfl⟩
  | error e =>
    obtain ⟨t, ht, hfault⟩ := herr e rfl
    exact ⟨t, ht, by rw [hfault.status]; rfl⟩

/-! ## The error each shape of command reports -/

theorem reports_fieldCommand (r : Except ErrCode Byte) (s : State) :
    Reports (fieldCommand r s) (if s.status.feReady then errorOf r else some .notReady) := by
  rw [fieldCommand.eq_def]
  cases s.status.feReady with
  | false => exact reports_raise false .notReady s
  | true =>
    cases r with
    | ok v => exact ⟨_, rfl, rfl⟩
    | error e => exact reports_raise false e s

theorem reports_feInit (s : State) :
    Reports (exec .feInit s) (if s.conf.genOf s.regs.poly = none then some .config else none) := by
  cases hgen : s.conf.genOf s.regs.poly with
  | none => exact ⟨_, exec_feInit_of_none hgen, rfl⟩
  | some g => exact ⟨_, exec_feInit_of_some hgen, rfl⟩

theorem reports_keySetup (s : State) : Reports (exec .keySetup s)
    (if s.status.feReady = false then some .notReady
      else if s.regs.keylen.toNat ∈ [16, 24, 32] then none else some .keyLength) := by
  cases hready : s.status.feReady with
  | false => exact ⟨_, exec_keySetup_of_notReady hready, rfl⟩
  | true =>
    rw [if_neg nofun]
    split
    · next hlen => exact ⟨_, exec_keySetup_of_legal hready hlen, rfl⟩
    · next hlen => exact ⟨_, exec_keySetup_of_illegal hready hlen, rfl⟩

theorem reports_blockCommand (f : List Byte → List Byte) (s : State) :
    Reports (blockCommand f s) (firstFault (blockChecks s)) := by
  cases hcheck : firstFault (blockChecks s) with
  | none => exact ⟨_, blockCommand_of_none hcheck f, rfl⟩
  | some e =>
    obtain ⟨t, ht, hfault⟩ := dataFault_blockCommand hcheck f
    exact ⟨t, ht, by rw [hfault.status]; rfl⟩

theorem reports_padCommand (p : Scheme) (s : State) :
    Reports (padCommand p s) (if s.inputTooLong then some .illegalCommand else none) := by
  rw [padCommand]
  split
  · exact reports_raise true .illegalCommand s
  · exact ⟨_, rfl, rfl⟩

theorem reports_unpadCommand (p : Scheme) (s : State) : Reports (unpadCommand p s)
    (if s.inputTooLong then some .illegalCommand else errorOf (unpadBytes p s.input)) := by
  rw [unpadCommand]
  split
  · exact reports_raise true .illegalCommand s
  · cases unpadBytes p s.input with
    | ok r => exact ⟨_, rfl, rfl⟩
    | error e => exact reports_raise true e s

theorem reports_mode {i : Instr} {m : Nat} {decrypt par : Bool}
    (hi : modeOf i = some (m, decrypt, par)) (s : State) :
    Reports (exec i s) ((modeFault m decrypt par s).or (errorOf (modeResult i s))) := by
  cases hfault : modeFault m decrypt par s with
  | none => exact reports_endsWithResult (exec_mode_of_pass hi hfault)
  | some e =>
    obtain ⟨t, ht, hdata⟩ := modeChecksInOrder i m decrypt par s e hi hfault
    exact ⟨t, ht, by rw [hdata.status]; rfl⟩

/-- The unpad of a padded decrypt is the only error of a MODE command past its checks. -/
theorem SameReads.errorOf_modeResult {s u : State} (h : SameReads s u) (i : Instr) :
    errorOf (modeResult i u) = errorOf (modeResult i s) := by
  cases i with
  | ecbDec par p | cbcDec par p | pcbcDec par p | rdDec par p =>
    rw [modeResult, modeResult, h.deciphered]
  | _ => exact Eq.refl (none : Option ErrCode)

/-- A command reports the same error in the state its fault left (R260). -/
theorem exists_reports {i : Instr} (hi : i ≠ .sysReset) {s u : State}
    (h : SameReads (faultBase i s) u) : ∃ r, Reports (exec i s) r ∧ Reports (exec i u) r := by
  have hmode {m : Nat} {decrypt par : Bool} (hm : modeOf i = some (m, decrypt, par))
      (h : SameReads s u) : ∃ r, Reports (exec i s) r ∧ Reports (exec i u) r := by
    refine ⟨_, reports_mode hm s, ?_⟩
    rw [← h.modeFault, ← h.errorOf_modeResult]
    exact reports_mode hm u
  have hfield {r : Tables → Except ErrCode Byte} (h : SameReads s u) :
      ∃ o, Reports (fieldCommand (r s.tab) s) o ∧ Reports (fieldCommand (r u.tab) u) o := by
    refine ⟨_, reports_fieldCommand _ s, ?_⟩
    rw [← h.feReady, ← h.tab]
    exact reports_fieldCommand _ u
  have hblock (f g : List Byte → List Byte) (h : SameReads s u) :
      ∃ o, Reports (blockCommand f s) o ∧ Reports (blockCommand g u) o :=
    ⟨_, reports_blockCommand f s, h.firstFault_blockChecks ▸ reports_blockCommand g u⟩
  have hpad (p : Scheme) (h : SameReads s u) :
      ∃ o, Reports (padCommand p s) o ∧ Reports (padCommand p u) o :=
    ⟨_, reports_padCommand p s, h.inputTooLong ▸ reports_padCommand p u⟩
  have hunpad (p : Scheme) (h : SameReads s u) :
      ∃ o, Reports (unpadCommand p s) o ∧ Reports (unpadCommand p u) o := by
    refine ⟨_, reports_unpadCommand p s, ?_⟩
    rw [← h.inputTooLong, ← h.input]
    exact reports_unpadCommand p u
  cases i with
  | sysReset => exact absurd rfl hi
  | feInit =>
    refine ⟨_, reports_feInit s, ?_⟩
    have hgen : u.conf.genOf u.regs.poly = s.conf.genOf s.regs.poly := by rw [h.conf, h.poly]; rfl
    rw [← hgen]
    exact reports_feInit u
  | keySetup =>
    refine ⟨_, reports_keySetup s, ?_⟩
    have hready : u.status.feReady = s.status.feReady := h.feReady
    have hlen : u.regs.keylen = s.regs.keylen := h.keylen
    rw [← hready, ← hlen]
    exact reports_keySetup u
  | feAdd a b | feSub a b => exact hfield (r := fun _ => .ok (a ^^^ b)) h
  | feMul a b => exact hfield (r := fun T => .ok (gfMul T a b)) h
  | feDiv a b => exact hfield (r := fun T => gfDiv T a b) h
  | fePow a n => exact hfield (r := fun T => .ok (gfPow T a n)) h
  | feInv a => exact hfield (r := fun T => gfInv T a) h
  | mode7Enc | mode7Dec => exact ⟨_, reports_raise false .config s, reports_raise false .config u⟩
  | blkEnc | blkDec => exact hblock _ _ h
  | padZero | padAnsi | padPkcs7 | padIso => exact hpad _ h
  | unpadZero | unpadAnsi | unpadPkcs7 | unpadIso => exact hunpad _ h
  | ecbEnc | cbcEnc | pcbcEnc | cfbEnc | ofbEnc | ctrEnc | rdEnc => exact hmode rfl h
  | ecbDec | cbcDec | pcbcDec | cfbDec | ofbDec | ctrDec | rdDec => exact hmode rfl h

theorem Reports.err {o : Host.Outcome State Fault Refusal} {r : Option ErrCode} {t : State}
    (h : Reports o r) (ht : o = .next t) : t.status.err = r.getD .none := by
  obtain ⟨t', ht', herr⟩ := h
  cases ht.symm.trans ht'
  exact herr

/-- Settles O57: a fault leaves what decides the error as it was, FE.INIT and KEY.SETUP apart, which
read nothing that they clear. -/
theorem reissueFaultsAgain : Obligations.ReissueFaultsAgain := by
  intro w s t e f ht herr
  cases hdecode : decode w with
  | error d =>
    rw [runWord_of_decode_error hdecode] at ht ⊢
    cases ht
    exact ⟨_, rfl, rfl⟩
  | ok i =>
    rw [runWord_of_decode_ok hdecode] at ht ⊢
    have hi : i ≠ .sysReset := by
      rintro rfl
      cases ht
      exact herr rfl
    obtain ⟨u, c, hu, -, rfl⟩ := (ends_exec hi s).exists_raise ht herr
    obtain ⟨r, hfirst, v, hv, hsecond⟩ :=
      exists_reports hi (hu.sameReads.raise_withFlags (isDataCommand i) c e f)
    exact ⟨v, hv, hsecond.trans (hfirst.err ht).symm⟩

end Sys2Proof.Machine
end
